-- ==== Sys2Proof/Word.lean ====
section
/-! DEFINITION. The words the spec's machine is made of: bytes, command words, sample beats, binary64 patterns and
the two-lane sample (spec 00_scope.md R14, R15; 20_memory.md R46, R50; 40_numerics.md R77). Types only: every
operation on them stands under Sys2Proof/Machine/ or in Decode.lean. -/

namespace Sys2Proof

/-- One byte of the host's sample memory or of a command stream carried over bytes (R47, R48). -/
abbrev Byte := BitVec 8

/-- One 32-bit word of the control port (R50, R59). -/
abbrev CmdWord := BitVec 32

/-- One 128-bit beat of a data port: `re` in bits 63..0, `im` in bits 127..64 (R46, R61). -/
abbrev Beat := BitVec 128

/-- A binary64 value, held as its 64-bit pattern, so that NaN payloads and signed zeros are kept apart (R15, R74). -/
abbrev F64 := BitVec 64

/-- A 4-bit mode code, as MODE and PMODE hold it (R33, R63). -/
abbrev ModeCode := BitVec 4

/-- ComplexSample, a pair of independent binary64 lanes; the constructor is the spec's `cplx` (R16, R77). -/
structure ComplexSample where
  re : F64
  im : F64
deriving DecidableEq, Repr, Inhabited

/-- The two agents that act on the block (R5). -/
inductive Agent where
  | control
  | data
deriving DecidableEq, Repr, Inhabited

end Sys2Proof
end

