-- ==== Sys2Proof/Config.lean ====
section
/-! DEFINITION. What an implementation of the block fixes, and the free values: constants WITHOUT A BODY, so that no
proof can see what they are and a claim holds whatever they are. The limits the spec sets on some of them (R8, R83, R84,
and that a NaN result is a quiet NaN) are put on in Machine/Params.lean and Machine/Float.lean, which alone read the raw
constants. -/

namespace Sys2Proof

/-- One row of `MODE_CFG`: a bandwidth and two limit factors in hertz (R8, R41). -/
structure ModeRow where
  bandwidthHz   : F64
  loLimitFactor : F64
  hiLimitFactor : F64
deriving DecidableEq, Repr, Inhabited

/-- The binary64 operations that can answer a NaN (R74). -/
inductive FOp where
  | add
  | sub
  | mul
  | div
  | sqrt
deriving DecidableEq, Repr

/-- `NUM.sin` before the limits of R84 (assumption 1). -/
opaque Config.rawSin : F64 → F64

/-- `NUM.cos` before the limits of R84 (assumption 1). -/
opaque Config.rawCos : F64 → F64

/-- `NUM.atan2` before the limits of R83; the first operand is the imaginary one (R82; assumption 1). -/
opaque Config.rawAtan2 : F64 → F64 → F64

/-- `MODE_CFG` before the constraint of R8, by mode code (assumption 2). -/
opaque Config.rawModeCfg : ModeCode → ModeRow

/-- The strap `FM_LOOP` (R10; assumption 3). -/
opaque Config.fmLoop : Bool

/-- `LOCK_UPDATE lockCurrent lockPrevious absIm` (R11; assumption 4). -/
opaque Config.lockUpdate : F64 → F64 → F64 → F64 × F64

/-- `AFC_UPDATE afc frequency` (R12; assumption 5). -/
opaque Config.afcUpdate : F64 → F64 → F64

/-- The sign and payload of the NaN an invalid operation answers where no operand is a NaN: R74 leaves them to IEEE 754,
which leaves them to the implementation. One pattern for all of them, so that the laws of R79 and R80 hold bit for bit on
operands that are no NaN (assumption 6). -/
opaque Config.defaultNaN : F64

/-- The sign and payload of the NaN an operation answers on an operand that is a NaN of another pattern. A function of the
operation and the operands alone, since the arithmetic is deterministic (93_implementation_defined.md U1; assumption 6). -/
opaque Config.nanPattern : FOp → F64 → F64 → F64

/-- The value an unspecified register holds after the `n`-th event that leaves it unspecified (R32, R140, R158);
the second argument is the register's RDSTATE index (assumption 7). -/
opaque Config.freeRegister : Nat → Nat → BitVec 64

/-- Which agent's request the block takes on the `n`-th occasion both have one (R54, U10; assumption 8). -/
opaque Config.arbiter : Nat → Agent

end Sys2Proof
end

