-- ==== Sys2Proof/Syntax.lean ====
section
/-! DEFINITION. The instructions: one constructor for each of the 18 rows of spec/opcode_table.json, and the three
forms an encoding takes (30_encoding.md R58 to R61, R67, R73). -/

namespace Sys2Proof

/-- The instructions of DEMOD command set v1. A sample step's operand is its input beat (R61). The two TRACK
micro-operations carry the sample they are run on; they have no command encoding and are selected by `tv` (R67, R73). -/
inductive Instr where
  /-- `INIT sampleRate, blockSize` (43_mode_control.md R117). -/
  | init (sampleRate blockSize : BitVec 32)
  /-- `SETMODE c` (R118). -/
  | setmode (code : ModeCode)
  /-- `GETMODE` (R123). -/
  | getmode
  /-- `RDSTATE r` (R124). -/
  | rdstate (index : BitVec 5)
  /-- `SAMPLE.AM` (44_am.md R127). -/
  | sampleAm (beat : Beat)
  /-- `SAMPLE.SAM` (45_sam.md R130). -/
  | sampleSam (beat : Beat)
  /-- `SAMPLE.FMN` (46_fm.md R133). -/
  | sampleFmn (beat : Beat)
  /-- `SAMPLE.FMW` (46_fm.md R134). -/
  | sampleFmw (beat : Beat)
  /-- `SAMPLE.DSB` (42_dispatch.md R103). -/
  | sampleDsb (beat : Beat)
  /-- `SAMPLE.LSB` (R104). -/
  | sampleLsb (beat : Beat)
  /-- `SAMPLE.USB` (R105). -/
  | sampleUsb (beat : Beat)
  /-- `SAMPLE.CWL` (R106). -/
  | sampleCwl (beat : Beat)
  /-- `SAMPLE.CWU` (R107). -/
  | sampleCwu (beat : Beat)
  /-- `SAMPLE.DIGL` (R108). -/
  | sampleDigl (beat : Beat)
  /-- `SAMPLE.DIGU` (R109). -/
  | sampleDigu (beat : Beat)
  /-- `SAMPLE.NONE` (R110). -/
  | sampleNone (beat : Beat)
  /-- `TRACK.SAM`, the micro-operation with `tv = 1` (41_pll_track.md R93). -/
  | trackSam (beat : Beat)
  /-- `TRACK.FM`, the micro-operation with `tv = 0` (R94). -/
  | trackFm (beat : Beat)
deriving DecidableEq, Repr

/-- What stands where the block takes an instruction from: words on the control port (formats K1 and K3), a beat on
the data-in port with the MODE register that selects its meaning (format B), or a micro-operation inside a sample step
with its variant select `tv` (format MICRO). -/
inductive Encoding where
  | command (words : List CmdWord)
  | beat (mode : ModeCode) (b : Beat)
  | micro (tv : Bool) (b : Beat)
deriving DecidableEq, Repr

end Sys2Proof
end

