-- ==== Sys2Proof/Machine/State.lean ====
section
/-! DEFINITION. The state of the block (10_state.md R17), the requests that stand at its ports, the host's sample memory
(20_memory.md R47), the reasons a step can stop, and the state after power-on reset (70_reset_and_hazards.md R158). -/

namespace Sys2Proof.Machine

/-- Why a step has no result. -/
inductive Fault where
  /-- The phase wrap of 41_pll_track.md R97 never ends: the block is stuck (60_exceptions.md R155,
  70_reset_and_hazards.md R170). Raised by TRACK.SAM and TRACK.FM and by the sample steps that run them. Safe: the
  spec gives the step no result, and only the reset input leaves the hang (assumption 15). -/
  | wrapHang
deriving DecidableEq, Repr

/-- Why something is not run at all. -/
inductive Refusal where
  /-- Raised by `exec` for an instruction that has no meaning yet. Safe: nothing is claimed of it. -/
  | notModelled (mnemonic : String)
  /-- Raised by the PROCESSBLOCK pseudo-operation while `constructed = 0` (42_dispatch.md R112, U13). Safe: the spec
  refuses it and no beat is issued. -/
  | processBlockNotConstructed
  /-- Raised by PROCESSBLOCK at `IDX` not 0 (R112, U13). Safe: as above. -/
  | processBlockInsideBlock
  /-- Raised by PROCESSBLOCK with a base address that is no multiple of 16 (20_memory.md R49, U13). Safe: as above. -/
  | processBlockMisaligned
deriving DecidableEq, Repr

/-- The host's byte-addressed sample memory (R47): addresses strictly rising, and no entry that equals what an unlisted
address reads as. -/
abbrev Memory := List Host.Cell

/-- The state. The first five groups are the block's (R17); the last two are the model's own, for what stands
outside the block: the requests at its ports and the host's memory. -/
structure State where
  /-- `S[0]`, radians (R19). -/
  phase : F64
  /-- `S[1]`, radians per sample (R20). -/
  frequency : F64
  /-- `S[2]` (R21). -/
  alpha : F64
  /-- `S[3]` (R22). -/
  beta : F64
  /-- `S[4]` (R23). -/
  loLimit : F64
  /-- `S[5]` (R24). -/
  hiLimit : F64
  /-- `S[6]` (R25). -/
  amDc : F64
  /-- `S[7]` (R26). -/
  amSmooth : F64
  /-- `S[8]` (R27). -/
  samDc : F64
  /-- `S[9]` (R28). -/
  lockCurrent : F64
  /-- `S[10]` (R29). -/
  lockPrevious : F64
  /-- `S[11]` (R30). -/
  afc : F64
  /-- `S[12]` (R31). -/
  prevRe : F64
  /-- `S[13]` (R31). -/
  prevIm : F64
  /-- `SR`, the sample rate (R32). -/
  sr : BitVec 32
  /-- `BS`, the block size (R32). -/
  bs : BitVec 32
  /-- `MODE`, the mode in force (R33). -/
  mode : ModeCode
  /-- `PMODE`, the mode requested in mid-block (R33). -/
  pmode : ModeCode
  /-- An INIT has succeeded and no later one has failed (R34). -/
  constructed : Bool
  /-- `PMODE` waits for the next block boundary (R34). -/
  pendingValid : Bool
  /-- `prevRe`, `prevIm` hold a sample of the current FM run (R34). -/
  prevValid : Bool
  /-- `IDX`, the sample steps taken in the current block (R35). -/
  idx : BitVec 32
  /-- `RSP`, the response of the last command (R36, R62). -/
  rsp : BitVec 32
  /-- `RSPD`, the value the last RDSTATE read (R36, R62). -/
  rspd : BitVec 64
  /-- The words the control agent has put on the control port, first to be taken first (assumption 11). -/
  ctrlIn : List CmdWord
  /-- The beats the data agent has put on the data-in port, first to be taken first (assumption 11). -/
  dataIn : List Beat
  /-- The beats emitted on the data-out port, in order (R45, R53; assumption 11). -/
  dataOut : List Beat
  /-- The reset input is asserted (R158; assumption 14). -/
  resetIn : Bool
  /-- How many free values have been drawn (assumption 22). -/
  freeCount : Nat
  /-- The host's sample memory, which only PROCESSBLOCK reads and writes (R47; assumption 18). -/
  hostMem : Memory
deriving DecidableEq, Repr

/-- The state right after power-on reset (R158): the flags, `IDX`, `RSP` and `RSPD` zero. What R158 leaves
unspecified is zero here, a DESIGN CHOICE (assumption 10); nothing stands at the ports. -/
def State.reset : State where
  phase := 0#64
  frequency := 0#64
  alpha := 0#64
  beta := 0#64
  loLimit := 0#64
  hiLimit := 0#64
  amDc := 0#64
  amSmooth := 0#64
  samDc := 0#64
  lockCurrent := 0#64
  lockPrevious := 0#64
  afc := 0#64
  prevRe := 0#64
  prevIm := 0#64
  sr := 0#32
  bs := 0#32
  mode := 0#4
  pmode := 0#4
  constructed := false
  pendingValid := false
  prevValid := false
  idx := 0#32
  rsp := 0#32
  rspd := 0#64
  ctrlIn := []
  dataIn := []
  dataOut := []
  resetIn := false
  freeCount := 0
  hostMem := []

end Sys2Proof.Machine
end

