-- ==== Sys2Proof/Machine/Flags.lean ====
section
/-! DEFINITION. The flags as STATUS packs them, the fields of RSP and the payload bits of ERR_CONFIG (10_state.md R34 and
the control-register table; 30_encoding.md R62; 60_exceptions.md R139, R140). No rule sets a flag from a result value
(R34), so there is no condition code to compute. -/

namespace Sys2Proof.Machine

/-- The status codes of RSP bits 31 to 28 (R62, R139). -/
inductive Status where
  | ok
  | errConfig
  | errIllegalCmd
  | errNotConstructed
deriving DecidableEq, Repr

/-- A status as its 4-bit code (R62). -/
def statusCode : Status → BitVec 4
  | .ok => 0#4
  | .errConfig => 1#4
  | .errIllegalCmd => 2#4
  | .errNotConstructed => 3#4

/-- RSP: the status in bits 31 to 28, zero in 27 to 8, the payload in 7 to 0 (R62). -/
def responseWord (st : Status) (payload : BitVec 8) : BitVec 32 := statusCode st ++ 0#20 ++ payload

/-- One bit of a packed field. -/
def flagBit (b : Bool) : BitVec 1 := if b then 1#1 else 0#1

/-- STATUS: bit 0 `constructed`, bit 1 `pendingValid`, bit 2 `prevValid` (R34). -/
def statusFlags (s : State) : BitVec 3 := flagBit s.prevValid ++ flagBit s.pendingValid ++ flagBit s.constructed

/-- The payload of ERR_CONFIG: bit 0 the sample rate, bit 1 the block size (R62, R140). -/
def configErrorBits (badRate badSize : Bool) : BitVec 8 := 0#6 ++ flagBit badSize ++ flagBit badRate

end Sys2Proof.Machine
end

