-- ==== Sys2Proof/Machine/Float.lean ====
section
/-! DEFINITION. IEEE 754 binary64 arithmetic on patterns, round to nearest, ties to even, one rounding per operation, no
fused operation, subnormals computed, no flag and no trap (40_numerics.md R74). A finite value is a whole number of units
of 2^-1074; every operation computes its exact result in those units and rounds once. The operations are irreducible to the elaborator, so that no
proof runs one by accident; `unfold` opens them and the kernel evaluates them. -/

namespace Sys2Proof.Machine

/-- `+0.0`. -/
def posZero : F64 := 0#64

/-- `-0.0`. -/
def negZero : F64 := 0x8000000000000000#64

/-- The magnitude pattern of an infinity: exponent all ones, fraction zero. -/
def infBits : Nat := 0x7FF0000000000000

/-- The sign bit. -/
def fsign (x : F64) : Bool := decide (2 ^ 63 ≤ x.toNat)

/-- The pattern without its sign bit. -/
def fmagBits (x : F64) : Nat := x.toNat % 2 ^ 63

/-- A NaN of either sign and any payload. -/
def fisNaN (x : F64) : Bool := decide (infBits < fmagBits x)

/-- An infinity of either sign. -/
def fisInf (x : F64) : Bool := decide (fmagBits x = infBits)

/-- A zero, a subnormal or a normal value. -/
def fisFinite (x : F64) : Bool := decide (fmagBits x < infBits)

/-- A zero of either sign. -/
def fisZero (x : F64) : Bool := decide (fmagBits x = 0)

/-- The magnitude of a finite value in units of 2^-1074. -/
def funits (x : F64) : Nat :=
  if fmagBits x < 2 ^ 52 then fmagBits x
  else (2 ^ 52 + fmagBits x % 2 ^ 52) * 2 ^ (fmagBits x / 2 ^ 52 - 1)

/-- A finite value in units of 2^-1074. -/
def fsignedUnits (x : F64) : Int := if fsign x then -(funits x : Int) else (funits x : Int)

/-- The pattern of a sign and a magnitude pattern. -/
def fpack (neg : Bool) (mag : Nat) : F64 := BitVec.ofNat 64 (if neg then 2 ^ 63 + mag else mag)

/-- An infinity. -/
def finf (neg : Bool) : F64 := fpack neg infBits

/-- `num / den` rounded to the nearest integer, a tie to the even one. -/
def divNearestEven (num den : Nat) : Nat :=
  if 2 * (num % den) < den then num / den
  else if den < 2 * (num % den) then num / den + 1
  else num / den + num / den % 2

/-- How many low bits of a magnitude of `q` units a 53-bit significand leaves out. -/
def roundShift (q : Nat) : Nat := if q < 2 ^ 53 then 0 else q.log2 - 52

/-- The magnitude pattern nearest to `num / den` units, ties to even, infinity where the rounded magnitude is 2^1024 or
more. A significand rounded up to 2^53 carries into the exponent field, which is the pattern of the next power of two. -/
@[irreducible] def roundUnits (num den : Nat) : Nat :=
  min infBits
    (roundShift (num / den) * 2 ^ 52 + divNearestEven num (den * 2 ^ roundShift (num / den)))

/-- A pattern made a quiet NaN: exponent all ones, the top fraction bit set. -/
def fquiet (x : F64) : F64 := x ||| 0x7FF8000000000000#64

/-- The NaN of an invalid operation on numbers (assumption 6). -/
def defaultNaN : F64 := fquiet Config.defaultNaN

/-- An operand that brings no NaN of its own: a number, or the NaN of an invalid operation before. -/
def fordinary (x : F64) : Bool := !fisNaN x || decide (x = defaultNaN)

/-- The NaN an operation answers, quiet, its sign and payload free: one pattern wherever no operand brings a NaN of its
own, so that the order of the operands does not show (R79, R80; assumption 6). -/
def fnan (op : FOp) (x y : F64) : F64 :=
  if fordinary x && fordinary y then defaultNaN else fquiet (Config.nanPattern op x y)

/-- The sum of two values neither of which is a NaN; `op` names the operation in a NaN result. -/
@[irreducible] def faddNumbers (op : FOp) (x y : F64) : F64 :=
  if fisInf x then
    if fisInf y && (fsign x != fsign y) then fnan op x y else x
  else if fisInf y then y
  else if fsignedUnits x + fsignedUnits y = 0 then
    -- an exact zero sum is +0.0 but for two negative zeros
    if fsign x && fsign y then negZero else posZero
  else
    fpack (decide (fsignedUnits x + fsignedUnits y < 0))
      (roundUnits (fsignedUnits x + fsignedUnits y).natAbs 1)

/-- Unary `-`: the sign bit flips, on every pattern. -/
def fneg (x : F64) : F64 := x ^^^ 0x8000000000000000#64

/-- `abs`: the sign bit clears, on every pattern. -/
def fabs (x : F64) : F64 := x &&& 0x7FFFFFFFFFFFFFFF#64

/-- `x + y`. -/
@[irreducible] def fadd (x y : F64) : F64 :=
  if fisNaN x || fisNaN y then fnan .add x y else faddNumbers .add x y

/-- `x - y`. -/
@[irreducible] def fsub (x y : F64) : F64 :=
  if fisNaN x || fisNaN y then fnan .sub x y else faddNumbers .sub x (fneg y)

/-- `x * y`. -/
@[irreducible] def fmul (x y : F64) : F64 :=
  if fisNaN x || fisNaN y then fnan .mul x y
  else if fisInf x || fisInf y then
    if fisZero x || fisZero y then fnan .mul x y else finf (fsign x != fsign y)
  else fpack (fsign x != fsign y) (roundUnits (funits x * funits y) (2 ^ 1074))

/-- `x / y`. -/
@[irreducible] def fdiv (x y : F64) : F64 :=
  if fisNaN x || fisNaN y then fnan .div x y
  else if fisInf x then
    if fisInf y then fnan .div x y else finf (fsign x != fsign y)
  else if fisInf y then fpack (fsign x != fsign y) 0
  else if fisZero y then
    if fisZero x then fnan .div x y else finf (fsign x != fsign y)
  else fpack (fsign x != fsign y) (roundUnits (funits x * 2 ^ 1074) (funits y))

/-- Newton's iteration for the integer square root of `n`, downwards from a guess that is not below it. -/
def isqrtFrom : Nat → Nat → Nat → Nat
  | 0, _, guess => guess
  | fuel + 1, n, guess =>
    if (guess + n / guess) / 2 < guess then isqrtFrom fuel n ((guess + n / guess) / 2) else guess

/-- The largest integer whose square is at most `n`. The iteration descends from a power of two above the root, so it
ends long before its fuel does. -/
@[irreducible] def isqrt (n : Nat) : Nat := if n = 0 then 0 else isqrtFrom (2 ^ (n.log2 / 2 + 1)) n (2 ^ (n.log2 / 2 + 1))

/-- The magnitude of `sqrt x` for a finite `x`: the integer root of the units scaled by 2^1074, with half a unit added
where the root is not exact, which rounds as the irrational root does. -/
def sqrtMagnitude (x : F64) : Nat :=
  roundUnits
    (2 * isqrt (funits x * 2 ^ 1074)
      + (if isqrt (funits x * 2 ^ 1074) * isqrt (funits x * 2 ^ 1074) = funits x * 2 ^ 1074 then 0 else 1))
    2

/-- `sqrt x`. -/
@[irreducible] def fsqrt (x : F64) : F64 :=
  if fisNaN x then fnan .sqrt x x
  else if fisZero x then x
  else if fsign x then fnan .sqrt x x
  else if fisInf x then x
  else fpack false (sqrtMagnitude x)

/-- The place of a value that is not a NaN in the order of the numbers; both zeros stand at 0. -/
def forder (x : F64) : Int := if fsign x then -(fmagBits x : Int) else (fmagBits x : Int)

/-- `x < y`, false where either is a NaN. -/
def flt (x y : F64) : Bool := !fisNaN x && !fisNaN y && decide (forder x < forder y)

/-- `x <= y`, false where either is a NaN. -/
def fle (x y : F64) : Bool := !fisNaN x && !fisNaN y && decide (forder x ≤ forder y)

/-- `x == y`, false where either is a NaN; the two zeros are equal. -/
def feq (x y : F64) : Bool := !fisNaN x && !fisNaN y && decide (forder x = forder y)

/-- `f64(n)` of a signed 32-bit integer, always exact (R87). -/
@[irreducible] def fofInt32 (n : BitVec 32) : F64 := fpack (decide (n.toInt < 0)) (roundUnits (n.toInt.natAbs * 2 ^ 1074) 1)

end Sys2Proof.Machine
end

