-- ==== Sys2Proof/Machine/Params.lean ====
section
/-! DEFINITION. The constants of 40_numerics.md R75 and R76, and the parameters of 00_scope.md R8 to R12 with the limits
the spec sets on them: a raw constant of Config.lean wherever it keeps to the limits, a value that keeps to them
elsewhere. Every choice of parameters the spec allows is a choice of raw constants, so a claim proved here holds for all
of them. -/

namespace Sys2Proof.Machine

/-- `PI`, the binary64 nearest π (R75). -/
def piConst : F64 := 0x400921FB54442D18#64

/-- `TWO_PI = 2.0 * PI` (R75). -/
def twoPi : F64 := 0x401921FB54442D18#64

/-- 0.3, the loop gain factor (R13, R76). -/
def c0_3 : F64 := 0x3FD3333333333333#64

/-- 4.0 (R76). -/
def c4 : F64 := 0x4010000000000000#64

/-- 0.9999, the DC estimators' pole (R13, R76). -/
def c0_9999 : F64 := 0x3FEFFF2E48E8A71E#64

/-- 0.0001, the DC estimators' gain (R13, R76). -/
def c0_0001 : F64 := 0x3F1A36E2EB1C432D#64

/-- 0.5 (R13, R76). -/
def c0_5 : F64 := 0x3FE0000000000000#64

/-- 1.0 (R13, R76). -/
def c1 : F64 := 0x3FF0000000000000#64

/-- -1.0, a bound of R84. -/
def cNeg1 : F64 := 0xBFF0000000000000#64

/-- 100.0, the FM output divisor (R13, R76). -/
def c100 : F64 := 0x4059000000000000#64

/-- 300.0, the default bandwidth (R76). -/
def c300 : F64 := 0x4072C00000000000#64

/-- 5000.0, the FM bandwidth (R76). -/
def c5000 : F64 := 0x40B3880000000000#64

/-- 2000.0, the default SAM limit factor (R41). -/
def c2000 : F64 := 0x409F400000000000#64

/-- 6000.0, the default FM limit factor (R41). -/
def c6000 : F64 := 0x40B7700000000000#64

/-- 0.999, of the default LOCK_UPDATE (R131). -/
def c0_999 : F64 := 0x3FEFF7CED916872B#64

/-- 0.001, of the default LOCK_UPDATE (R131). -/
def c0_001 : F64 := 0x3F50624DD2F1A9FC#64

/-- 2.0, the default of `IN_MAX` (70_reset_and_hazards.md R165). -/
def c2 : F64 := 0x4000000000000000#64

/-- Property S2's range: `-1.0 <= r <= 1.0`, which no NaN meets (R84). -/
def inUnitRange (r : F64) : Bool := fle cNeg1 r && fle r c1

/-- `NUM.sin` with the properties S1 to S3 of R84. -/
def numSin (x : F64) : F64 :=
  if x = posZero then posZero
  else if fisFinite x && !inUnitRange (Config.rawSin x) then posZero
  else Config.rawSin x

/-- `NUM.cos` with the properties S1 to S3 of R84. -/
def numCos (x : F64) : F64 :=
  if x = posZero then c1
  else if fisFinite x && !inUnitRange (Config.rawCos x) then c1
  else Config.rawCos x

/-- Property A1's range (R83). -/
def inPiRange (r : F64) : Bool := fle (fneg piConst) r && fle r piConst

/-- Property A1's range for a positive `y`, where A3 asks for the sign of `y` (R83). -/
def inUpperRange (r : F64) : Bool := fle posZero r && fle r piConst

/-- Where property A2 fixes the result at `+0.0` (R83). -/
def atan2Fixed (y x : F64) : Bool := decide (y = posZero) && (decide (x = posZero) || flt posZero x)

/-- What properties A1 and A3 leave of the range of `NUM.atan2` where the sign bit of `y` is clear: A1's range for a zero
`y`, and the half with the sign of `y` for a `y` that is not zero. That `it` in A3 is `y` is how 41_pll_track.md R98 and
46_fm.md R133 and R137 read A3 (assumption 1). -/
def atan2Legal (y r : F64) : Bool := if y = posZero then inPiRange r else inUpperRange r

/-- `NUM.atan2` of two numbers where the sign bit of `y` is clear (R83). -/
def atan2Upper (y x : F64) : F64 :=
  if atan2Fixed y x then posZero
  else if atan2Legal y (Config.rawAtan2 y x) then Config.rawAtan2 y x
  else posZero

/-- `NUM.atan2` with the properties A1 to A4 of R83: property A3 gives the negative `y` from the positive ones. Two NaN
operands give a NaN of free sign and payload, since 41_pll_track.md R98 has a NaN in the sample reach the phase; on one
NaN operand no rule states anything, and the raw constant stands (assumption 1). -/
def numAtan2 (y x : F64) : F64 :=
  if fisNaN y && fisNaN x then fquiet (Config.rawAtan2 y x)
  else if fisNaN y || fisNaN x then Config.rawAtan2 y x
  else if fsign y then fneg (atan2Upper (fneg y) x)
  else atan2Upper y x

/-- The constraint on a row of `MODE_CFG` (R8). -/
def rowLegal (r : ModeRow) : Bool :=
  fisFinite r.bandwidthHz && fisFinite r.loLimitFactor && fisFinite r.hiLimitFactor
    && fle posZero r.bandwidthHz && fle r.loLimitFactor posZero && fle posZero r.hiLimitFactor

/-- The row of the modes that do not track, in the default table (R41). -/
def plainRow : ModeRow := ⟨c300, posZero, posZero⟩

/-- The default instance of `MODE_CFG` (R41). -/
def defaultModeCfg (m : ModeCode) : ModeRow :=
  if m = 1#4 then ⟨c300, fneg c2000, c2000⟩
  else if m = 2#4 ∨ m = 3#4 then ⟨c5000, fneg c6000, c6000⟩
  else plainRow

/-- `MODE_CFG`, every row of which keeps to R8's constraint. -/
def modeCfg (m : ModeCode) : ModeRow :=
  if rowLegal (Config.rawModeCfg m) then Config.rawModeCfg m else plainRow

/-- The default instance of `LOCK_UPDATE` (R131). -/
def defaultLockUpdate (cur _prev absIm : F64) : F64 × F64 :=
  (fadd (fmul c0_999 cur) (fmul c0_001 absIm), cur)

/-- The default instance of `AFC_UPDATE` (R136). -/
def defaultAfcUpdate (afc frequency : F64) : F64 :=
  fadd (fmul c0_9999 afc) (fmul c0_0001 frequency)

end Sys2Proof.Machine
end

