-- ==== Sys2Proof/Machine/Numerics.lean ====
section
/-! DEFINITION. The pure operations on ComplexSample (40_numerics.md R77 to R82, R88) and the DC estimator the AM and SAM
paths share in form (44_am.md R128). -/

namespace Sys2Proof.Machine

/-- `cadd` (R78). -/
def cadd (s t : ComplexSample) : ComplexSample := ⟨fadd s.re t.re, fadd s.im t.im⟩

/-- `csub` (R78). -/
def csub (s t : ComplexSample) : ComplexSample := ⟨fsub s.re t.re, fsub s.im t.im⟩

/-- `cmul`, in the operand order of R79. -/
def cmul (s t : ComplexSample) : ComplexSample :=
  ⟨fsub (fmul s.re t.re) (fmul s.im t.im), fadd (fmul s.re t.im) (fmul s.im t.re)⟩

/-- `conj` (R80). -/
def conj (s : ComplexSample) : ComplexSample := ⟨s.re, fneg s.im⟩

/-- `mag`, not a scaled hypot (R81). -/
def mag (s : ComplexSample) : F64 := fsqrt (fadd (fmul s.re s.re) (fmul s.im s.im))

/-- `cphase`, the imaginary lane first (R82). -/
def cphase (s : ComplexSample) : F64 := numAtan2 s.im s.re

/-- `mono`, one value in both lanes (R88). -/
def mono (y : F64) : ComplexSample := ⟨y, y⟩

/-- One step of the exponential moving average `dc <- (0.9999 * dc) + (0.0001 * x)` (R128). -/
def dcEstimate (dc x : F64) : F64 := fadd (fmul c0_9999 dc) (fmul c0_0001 x)

/-- The smoothed envelope `(0.5 * smooth) + (0.5 * (current - dc))` (R127). -/
def smoothEnvelope (smooth current dc : F64) : F64 := fadd (fmul c0_5 smooth) (fmul c0_5 (fsub current dc))

/-- The discriminator `cphase(cmul(s, conj(p))) / 100.0` (46_fm.md R137). -/
def disc (s p : ComplexSample) : F64 := fdiv (cphase (cmul s (conj p))) c100

/-- `k = TWO_PI / f64(SR)` (43_mode_control.md R121). -/
def radiansPerHertz (sr : BitVec 32) : F64 := fdiv twoPi (fofInt32 sr)

/-- `alpha` of a bandwidth and a sample rate (R120). -/
def loopAlpha (bandwidth : F64) (sr : BitVec 32) : F64 := fmul (fmul c0_3 bandwidth) (radiansPerHertz sr)

/-- `beta` of an `alpha` (R120). -/
def loopBeta (alpha : F64) : F64 := fdiv (fmul alpha alpha) c4

/-- A limit of the capture range from its factor (R121). -/
def captureLimit (factor : F64) (sr : BitVec 32) : F64 := fmul factor (radiansPerHertz sr)

end Sys2Proof.Machine
end

