-- ==== Sys2Proof/Machine/Operands.lean ====
section
/-! DEFINITION. Every operand form of 30_encoding.md section 2: the mode code (R63, R69), the signed integers of INIT
(R64), the register index (R65) and the lanes of a beat (R46, R61). -/

namespace Sys2Proof.Machine

/-- `canon`: any 4-bit value as a mode code; 12 to 15 select AM (R63, R69). -/
def canonMode (c : ModeCode) : ModeCode := if c.toNat ≤ 11 then c else 0#4

/-- `sampleRate <= 0` or `blockSize <= 0`, signed (R64, R86, R140). -/
def notPositive (n : BitVec 32) : Bool := decide (n.toInt ≤ 0)

/-- The sample a beat holds (R46, R101). -/
def unpackBeat (b : Beat) : ComplexSample := ⟨b.extractLsb' 0 64, b.extractLsb' 64 64⟩

/-- The beat of a sample: `fbits(im) ++ fbits(re)` (R46, R101). -/
def packBeat (s : ComplexSample) : Beat := s.im ++ s.re

end Sys2Proof.Machine
end

