-- ==== Sys2Proof/Machine/Ops.lean ====
section
/-! DEFINITION. The named operations over the state: one update for each thing a rule writes, the register read of
RDSTATE, the response and the raising of an error, ApplyMode, the free values, the end of a sample step, and the host's
sample memory. Every meaning is built from these. -/

namespace Sys2Proof.Machine

/-! ## Updates -/

/-- `RSP <- v` (R36). -/
def State.setRsp (s : State) (v : BitVec 32) : State := { s with rsp := v }

/-- `RSPD <- v` (R36). -/
def State.setRspd (s : State) (v : BitVec 64) : State := { s with rspd := v }

/-- `frequency <- f ; phase <- p`, the two writes of Track (41_pll_track.md R90). -/
def State.setLoop (s : State) (f p : F64) : State := { s with frequency := f, phase := p }

/-- `amDc <- dc ; amSmooth <- smooth` (44_am.md R127). -/
def State.setAm (s : State) (dc smooth : F64) : State := { s with amDc := dc, amSmooth := smooth }

/-- `(lockCurrent, lockPrevious) <- lock` (45_sam.md R130). -/
def State.setLock (s : State) (lock : F64 × F64) : State :=
  { s with lockCurrent := lock.1, lockPrevious := lock.2 }

/-- `samDc <- dc` (R130). -/
def State.setSamDc (s : State) (dc : F64) : State := { s with samDc := dc }

/-- `afc <- v` (46_fm.md R133). -/
def State.setAfc (s : State) (v : F64) : State := { s with afc := v }

/-- `prevRe <- x.re ; prevIm <- x.im ; prevValid <- 1` (R133). -/
def State.setPrev (s : State) (x : ComplexSample) : State :=
  { s with prevRe := x.re, prevIm := x.im, prevValid := true }

/-- `IDX <- i` (R35). -/
def State.setIdx (s : State) (i : BitVec 32) : State := { s with idx := i }

/-- `PMODE <- m ; pendingValid <- 1` (43_mode_control.md R118). -/
def State.latchMode (s : State) (m : ModeCode) : State := { s with pmode := m, pendingValid := true }

/-- `pendingValid <- 0` (R111, R118). -/
def State.clearPending (s : State) : State := { s with pendingValid := false }

/-- `SR <- sampleRate ; BS <- blockSize ; IDX <- 0 ; pendingValid <- 0 ; PMODE <- 0` (R117). -/
def State.setRates (s : State) (sampleRate blockSize : BitVec 32) : State :=
  { s with sr := sampleRate, bs := blockSize, idx := 0#32, pendingValid := false, pmode := 0#4 }

/-- `constructed <- 1` (R117). -/
def State.setConstructed (s : State) : State := { s with constructed := true }

/-- `constructed <- 0 ; pendingValid <- 0 ; prevValid <- 0 ; IDX <- 0` (R117, R158). -/
def State.clearFlags (s : State) : State :=
  { s with constructed := false, pendingValid := false, prevValid := false, idx := 0#32 }

/-- `PortOut(b)` (R16, R45). -/
def State.emit (s : State) (b : Beat) : State := { s with dataOut := s.dataOut ++ [b] }

/-- The control port with the words still waiting on it. -/
def State.withCtrlIn (s : State) (words : List CmdWord) : State := { s with ctrlIn := words }

/-- The data-in port with the beats still waiting on it. -/
def State.withDataIn (s : State) (beats : List Beat) : State := { s with dataIn := beats }

/-- The data-out port after the data agent has taken beats from it (R5). -/
def State.withDataOut (s : State) (beats : List Beat) : State := { s with dataOut := beats }

/-- The host's sample memory (R47). -/
def State.withHostMem (s : State) (m : Memory) : State := { s with hostMem := m }

/-- The reset input released (R158). -/
def State.releaseReset (s : State) : State := { s with resetIn := false }

/-- One more free value drawn (assumption 22). -/
def State.drawFree (s : State) : State := { s with freeCount := s.freeCount + 1 }

/-- The registers R158 and R140 leave unspecified, `S[0]` to `S[13]`, `SR`, `BS`, `MODE` and `PMODE`, at free values
(assumption 7). -/
def State.unspecify (s : State) : State :=
  { s with
    phase := Config.freeRegister s.freeCount 0
    frequency := Config.freeRegister s.freeCount 1
    alpha := Config.freeRegister s.freeCount 2
    beta := Config.freeRegister s.freeCount 3
    loLimit := Config.freeRegister s.freeCount 4
    hiLimit := Config.freeRegister s.freeCount 5
    amDc := Config.freeRegister s.freeCount 6
    amSmooth := Config.freeRegister s.freeCount 7
    samDc := Config.freeRegister s.freeCount 8
    lockCurrent := Config.freeRegister s.freeCount 9
    lockPrevious := Config.freeRegister s.freeCount 10
    afc := Config.freeRegister s.freeCount 11
    prevRe := Config.freeRegister s.freeCount 12
    prevIm := Config.freeRegister s.freeCount 13
    sr := (Config.freeRegister s.freeCount 16).setWidth 32
    bs := (Config.freeRegister s.freeCount 17).setWidth 32
    mode := (Config.freeRegister s.freeCount 18).setWidth 4
    pmode := (Config.freeRegister s.freeCount 19).setWidth 4
    freeCount := s.freeCount + 1 }

/-- `ApplyMode(m)` (43_mode_control.md R119 to R121): every value it writes is a function of `m`, `SR` and `MODE_CFG`. -/
def State.applyMode (s : State) (m : ModeCode) : State :=
  { s with
    mode := m
    phase := posZero
    frequency := posZero
    alpha := loopAlpha (modeCfg m).bandwidthHz s.sr
    beta := loopBeta (loopAlpha (modeCfg m).bandwidthHz s.sr)
    loLimit := captureLimit (modeCfg m).loLimitFactor s.sr
    hiLimit := captureLimit (modeCfg m).hiLimitFactor s.sr
    lockCurrent := c0_5
    lockPrevious := c1
    samDc := posZero
    afc := posZero
    amDc := posZero
    amSmooth := posZero
    prevRe := posZero
    prevIm := posZero
    prevValid := false }

/-! ## Reading the state space -/

/-- The register RDSTATE reads at an index, zero-extended to 64 bits; `S[14]` and `S[15]` read `+0.0` (R37); none at the
reserved indices 22 to 31 (R18, R51, R62 and the control-register table of 10_state.md). -/
def readRegister (s : State) (index : Nat) : Option (BitVec 64) :=
  match index with
  | 0 => some s.phase
  | 1 => some s.frequency
  | 2 => some s.alpha
  | 3 => some s.beta
  | 4 => some s.loLimit
  | 5 => some s.hiLimit
  | 6 => some s.amDc
  | 7 => some s.amSmooth
  | 8 => some s.samDc
  | 9 => some s.lockCurrent
  | 10 => some s.lockPrevious
  | 11 => some s.afc
  | 12 => some s.prevRe
  | 13 => some s.prevIm
  | 14 => some posZero
  | 15 => some posZero
  | 16 => some (s.sr.setWidth 64)
  | 17 => some (s.bs.setWidth 64)
  | 18 => some (s.mode.setWidth 64)
  | 19 => some (s.pmode.setWidth 64)
  | 20 => some ((statusFlags s).setWidth 64)
  | 21 => some (s.idx.setWidth 64)
  | _ => none

/-! ## Responses and errors -/

/-- `Rsp(st, payload)` (R16, R62). -/
def respond (s : State) (st : Status) (payload : BitVec 8) : State := s.setRsp (responseWord st payload)

/-- `raise E(info)`: the failing command writes RSP and ends; no context is saved and control goes nowhere
(60_exceptions.md R139, R146). There is no return from an error, since there is no handler (R147). -/
def raiseError (s : State) (st : Status) (info : BitVec 8) : State := respond s st info

/-- `ERR_ILLEGAL_CMD`: `RSP <- 0x20000000`, nothing else changes (R142). -/
def raiseIllegal (s : State) : State := raiseError s .errIllegalCmd 0#8

/-- `ERR_NOT_CONSTRUCTED`: `RSP <- 0x30000000`, nothing else changes (R141). -/
def raiseNotConstructed (s : State) : State := raiseError s .errNotConstructed 0#8

/-- `ERR_CONFIG(e)`: the flags and `IDX` clear, `RSP <- 0x10000000 | e`, every other register but `RSPD` becomes
unspecified (R117, R140; assumption 26). -/
def raiseConfig (s : State) (e : BitVec 8) : State := raiseError s.unspecify.clearFlags .errConfig e

/-- A command that needs a constructed block, or its error (R141, R145). -/
def whenConstructed (s : State) (body : State) : State := if s.constructed then body else raiseNotConstructed s

/-! ## The sample step -/

/-- The end of every sample step, whatever the mode (42_dispatch.md R111). -/
def advance (s : State) : State :=
  if s.idx.toNat + 1 = s.bs.toNat then
    if s.pendingValid then ((s.setIdx 0#32).clearPending).applyMode s.pmode else s.setIdx 0#32
  else s.setIdx (s.idx + 1#32)

/-- A sample step around what its mode does with the input beat: enabled only when constructed, and a wait with no
effect otherwise; the output beat is emitted, then the block position advances (R101). No result of `f` is the hang
(41_pll_track.md R97). -/
def sampleStep (f : Beat → State → Option (Beat × State)) (b : Beat) (s : State) :
    Host.Outcome State Fault Refusal :=
  if s.constructed then
    match f b s with
    | some r => .next (advance (r.2.emit r.1))
    | none => .fault .wrapHang
  else .next s

/-! ## Power-on reset -/

/-- Power-on reset of the block (70_reset_and_hazards.md R158): the flags, `IDX`, `RSP` and `RSPD` clear, all else of the
block unspecified. The reset input is released in the same step (assumption 14). -/
def powerOn (s : State) : State := (((s.unspecify.clearFlags).setRsp 0#32).setRspd 0#64).releaseReset

/-! ## The host's sample memory -/

/-- What a byte that nothing has written reads as (assumption 18). -/
def unlistedByte : Byte := 0#8

/-- The byte at an address (R47). -/
def Memory.read : Memory → Nat → Byte
  | [], _ => unlistedByte
  | cell :: rest, a => if cell.1 = a then cell.2 else Memory.read rest a

/-- The memory with one byte written, in canonical form again. -/
def Memory.write : Memory → Nat → Byte → Memory
  | [], a, v => if v = unlistedByte then [] else [(a, v)]
  | cell :: rest, a, v =>
    if a < cell.1 then (if v = unlistedByte then cell :: rest else (a, v) :: cell :: rest)
    else if a = cell.1 then (if v = unlistedByte then rest else (a, v) :: rest)
    else cell :: Memory.write rest a v

/-- Addresses rise strictly from `lo` on and no cell holds what an unlisted byte reads as. -/
def Memory.wfFrom : Nat → Memory → Bool
  | _, [] => true
  | lo, cell :: rest => decide (lo ≤ cell.1) && decide (cell.2 ≠ unlistedByte) && Memory.wfFrom (cell.1 + 1) rest

/-- The canonical form. -/
def Memory.wf (m : Memory) : Bool := Memory.wfFrom 0 m

/-- `n` bytes from an address on, little-endian, as a number (R47, R48). -/
def Memory.readLE (m : Memory) (a : Nat) : Nat → Nat
  | 0 => 0
  | n + 1 => (m.read a).toNat + 256 * Memory.readLE m (a + 1) n

/-- `n` bytes written from an address on, the low byte first (R47, R48). -/
def Memory.writeLE (m : Memory) (a : Nat) : Nat → Nat → Memory
  | 0, _ => m
  | n + 1, v => Memory.writeLE (m.write a (BitVec.ofNat 8 v)) (a + 1) n (v / 256)

/-- `MemRead(addr, 16)` (R47). -/
def memReadBeat (m : Memory) (a : Nat) : Beat := BitVec.ofNat 128 (m.readLE a 16)

/-- `MemWrite(addr, 16, beat)` (R47). -/
def memWriteBeat (m : Memory) (a : Nat) (b : Beat) : Memory := m.writeLE a 16 b.toNat

end Sys2Proof.Machine
end

