-- ==== Sys2Proof/Machine/Am.lean ====
section
/-! DEFINITION. The AM envelope detector with DC removal, SAMPLE.AM (44_am.md R127). -/

namespace Sys2Proof.Machine

/-- The new `amDc` (R127). -/
def amNextDc (x : ComplexSample) (s : State) : F64 := dcEstimate s.amDc (mag x)

/-- The new `amSmooth`, from the `amDc` just written (R127). -/
def amNextSmooth (x : ComplexSample) (s : State) : F64 := smoothEnvelope s.amSmooth (mag x) (amNextDc x s)

/-- The output value, from the `amSmooth` just written (R127). -/
def amOutput (x : ComplexSample) (s : State) : F64 := fmul (amNextSmooth x s) c0_5

/-- What a beat undergoes in mode AM (R127). -/
def demodAm (b : Beat) (s : State) : Option (Beat × State) :=
  some (packBeat (mono (amOutput (unpackBeat b) s)),
    s.setAm (amNextDc (unpackBeat b) s) (amNextSmooth (unpackBeat b) s))

/-- `SAMPLE.AM` (R127). -/
def execSampleAm (b : Beat) (s : State) : Host.Outcome State Fault Refusal := sampleStep demodAm b s

end Sys2Proof.Machine
end

