-- ==== Sys2Proof/Machine/Control.lean ====
section
/-! DEFINITION. The four commands of the control port (43_mode_control.md R117, R118, R122 to R124). -/

namespace Sys2Proof.Machine

/-- What a successful INIT does (R117). -/
def initialise (sampleRate blockSize : BitVec 32) (s : State) : State :=
  respond (((s.setRates sampleRate blockSize).applyMode 0#4).setConstructed) .ok 0#8

/-- `INIT sampleRate, blockSize`, in every state (R117). -/
def execInit (sampleRate blockSize : BitVec 32) (s : State) : Host.Outcome State Fault Refusal :=
  if notPositive sampleRate || notPositive blockSize then
    .next (raiseConfig s (configErrorBits (notPositive sampleRate) (notPositive blockSize)))
  else .next (initialise sampleRate blockSize s)

/-- The mode change of SETMODE: at once at a block boundary, else latched (R118, R122). -/
def requestMode (m : ModeCode) (s : State) : State :=
  if s.idx = 0#32 then (s.clearPending).applyMode m else s.latchMode m

/-- `SETMODE c` (R118). -/
def execSetmode (code : ModeCode) (s : State) : Host.Outcome State Fault Refusal :=
  .next (whenConstructed s (respond (requestMode (canonMode code) s) .ok 0#8))

/-- The mode most recently requested (R123). -/
def requestedMode (s : State) : ModeCode := if s.pendingValid then s.pmode else s.mode

/-- `GETMODE` (R123). -/
def execGetmode (s : State) : Host.Outcome State Fault Refusal :=
  .next (whenConstructed s (respond s .ok ((requestedMode s).setWidth 8)))

/-- `RDSTATE r` (R124). A reserved index makes the command illegal, before the constructed test (R68, R145). -/
def execRdstate (index : BitVec 5) (s : State) : Host.Outcome State Fault Refusal :=
  match readRegister s index.toNat with
  | some v => .next (whenConstructed s (respond (s.setRspd v) .ok 0#8))
  | none => .next (raiseIllegal s)

end Sys2Proof.Machine
end

