-- ==== Sys2Proof/Machine/Track.lean ====
section
/-! DEFINITION. The PLL loop filter: the shared steps of Track (41_pll_track.md R91, R92, R95 to R97) and its two
variants, the micro-operations TRACK.SAM (R93) and TRACK.FM (R94). -/

namespace Sys2Proof.Machine

/-- The wrap of R97, one iteration of an inner loop at a time: subtract while `p >= TWO_PI`, add while `p < +0.0`, until
the phase is in range. An iteration that does not change `p`, and a `p` that meets no test, repeat for ever: no result.
The fuel bounds the iterations of a loop that ends. -/
def wrapLoop : Nat → F64 → Option F64
  | 0, _ => none
  | fuel + 1, p =>
    if fle twoPi p then
      if fsub p twoPi = p then none else wrapLoop fuel (fsub p twoPi)
    else if flt p posZero then
      if fadd p twoPi = p then none else wrapLoop fuel (fadd p twoPi)
    else if fle posZero p && flt p twoPi then some p
    else none

/-- More iterations than any wrap that ends can take: each moves the phase to another of the 2^64 patterns. -/
def wrapFuel : Nat := 2 ^ 65

/-- `wrap(p)`, none where the loop never ends (R97; assumption 15). -/
@[irreducible] def wrap (p : F64) : Option F64 := wrapLoop wrapFuel p

/-- The local reference `z` (R91). -/
def localReference (s : State) : ComplexSample := ⟨numCos s.phase, numSin s.phase⟩

/-- `rotated = z * inputSample`, by `z` and not by its conjugate (R92, 70_reset_and_hazards.md R173). -/
def demix (s : State) (x : ComplexSample) : ComplexSample := cmul (localReference s) x

/-- The hard clamp, the lower limit first; a NaN passes (R95). -/
def clampFrequency (lo hi f1 : F64) : F64 :=
  if flt hi (if flt f1 lo then lo else f1) then hi else (if flt f1 lo then lo else f1)

/-- `frequency + (beta * difference)`, clamped (R95). -/
def nextFrequency (s : State) (difference : F64) : F64 :=
  clampFrequency s.loLimit s.hiLimit (fadd s.frequency (fmul s.beta difference))

/-- `phase + (frequency + (alpha * difference))` with the frequency just clamped, before the wrap (R96). -/
def nextPhaseRaw (s : State) (difference : F64) : F64 :=
  fadd s.phase (fadd (nextFrequency s difference) (fmul s.alpha difference))

/-- The frequency and phase updates, none where the wrap hangs (R95 to R97). -/
def loopUpdate (s : State) (difference : F64) : Option State :=
  match wrap (nextPhaseRaw s difference) with
  | some p => some (s.setLoop (nextFrequency s difference) p)
  | none => none

/-- The phase detector of the SAM variant, weighted by the magnitude of the input sample (R93). -/
def samDifference (s : State) (x : ComplexSample) : F64 := fmul (mag x) (cphase (demix s x))

/-- The phase detector of the FM variant (R94). -/
def fmDifference (s : State) (x : ComplexSample) : F64 := cphase (demix s x)

/-- `TRACK.SAM(x)`: the state with the loop updated; its result is `demix s x` (R93). -/
def trackSamOp (x : ComplexSample) (s : State) : Option State := loopUpdate s (samDifference s x)

/-- `TRACK.FM(x)` (R94). -/
def trackFmOp (x : ComplexSample) (s : State) : Option State := loopUpdate s (fmDifference s x)

/-- A micro-operation run by itself: the rotated sample it returns is no state (10_state.md R44; assumption 21). -/
def microStep (r : Option State) : Host.Outcome State Fault Refusal :=
  match r with
  | some t => .next t
  | none => .fault .wrapHang

/-- `TRACK.SAM` (R93). -/
def execTrackSam (b : Beat) (s : State) : Host.Outcome State Fault Refusal := microStep (trackSamOp (unpackBeat b) s)

/-- `TRACK.FM` (R94). -/
def execTrackFm (b : Beat) (s : State) : Host.Outcome State Fault Refusal := microStep (trackFmOp (unpackBeat b) s)

end Sys2Proof.Machine
end

