-- ==== Sys2Proof/Machine/Fm.lean ====
section
/-! DEFINITION. The FM demodulator, SAMPLE.FMN (46_fm.md R133) and SAMPLE.FMW (R134), with the loop feedback of R135
under the strap `FM_LOOP`. -/

namespace Sys2Proof.Machine

/-- The predecessor of the current FM sample (R138). -/
def previousSample (s : State) : ComplexSample := ⟨s.prevRe, s.prevIm⟩

/-- `TRACK.FM`, then `AFC_UPDATE` with the frequency just written (R133, R135). -/
def fmFeedback (x : ComplexSample) (s : State) : Option State :=
  match trackFmOp x s with
  | some t => some (t.setAfc (Config.afcUpdate t.afc t.frequency))
  | none => none

/-- The loop feedback under a setting of the strap; none under `FM_LOOP = false` (R10, R135). -/
def fmLoopStep (strap : Bool) (x : ComplexSample) (s : State) : Option State :=
  if strap then fmFeedback x s else some s

/-- The output value: the discriminator, or `+0.0` where the sample has no predecessor (R133, R137, R138). -/
def fmOutput (x : ComplexSample) (s : State) : F64 := if s.prevValid then disc x (previousSample s) else posZero

/-- What follows the loop feedback in an FM step (R133). -/
def fmFinish (x : ComplexSample) (s : State) : Beat × State := (packBeat (mono (fmOutput x s)), s.setPrev x)

/-- What a beat undergoes in the FM modes (R133), under a setting of the strap. -/
def demodFmWith (strap : Bool) (b : Beat) (s : State) : Option (Beat × State) :=
  match fmLoopStep strap (unpackBeat b) s with
  | some t => some (fmFinish (unpackBeat b) t)
  | none => none

/-- What a beat undergoes in the FM modes of this block. -/
def demodFm (b : Beat) (s : State) : Option (Beat × State) := demodFmWith Config.fmLoop b s

/-- `SAMPLE.FMN` (R133). -/
def execSampleFmn (b : Beat) (s : State) : Host.Outcome State Fault Refusal := sampleStep demodFm b s

/-- `SAMPLE.FMW` (R134). -/
def execSampleFmw (b : Beat) (s : State) : Host.Outcome State Fault Refusal := sampleStep demodFm b s

end Sys2Proof.Machine
end

