-- ==== Sys2Proof/Machine/Pass.lean ====
section
/-! DEFINITION. The eight pass-through sample steps (42_dispatch.md R103 to R110): the output beat is the input beat, bit
for bit, and no register is written but by the advance. -/

namespace Sys2Proof.Machine

/-- `out = s`, the very bits of the beat (R103). -/
def passThrough (b : Beat) (s : State) : Option (Beat × State) := some (b, s)

/-- `SAMPLE.DSB` (R103). -/
def execSampleDsb (b : Beat) (s : State) : Host.Outcome State Fault Refusal := sampleStep passThrough b s

/-- `SAMPLE.LSB` (R104). -/
def execSampleLsb (b : Beat) (s : State) : Host.Outcome State Fault Refusal := sampleStep passThrough b s

/-- `SAMPLE.USB` (R105). -/
def execSampleUsb (b : Beat) (s : State) : Host.Outcome State Fault Refusal := sampleStep passThrough b s

/-- `SAMPLE.CWL` (R106). -/
def execSampleCwl (b : Beat) (s : State) : Host.Outcome State Fault Refusal := sampleStep passThrough b s

/-- `SAMPLE.CWU` (R107). -/
def execSampleCwu (b : Beat) (s : State) : Host.Outcome State Fault Refusal := sampleStep passThrough b s

/-- `SAMPLE.DIGL` (R108). -/
def execSampleDigl (b : Beat) (s : State) : Host.Outcome State Fault Refusal := sampleStep passThrough b s

/-- `SAMPLE.DIGU` (R109). -/
def execSampleDigu (b : Beat) (s : State) : Host.Outcome State Fault Refusal := sampleStep passThrough b s

/-- `SAMPLE.NONE` (R110). -/
def execSampleNone (b : Beat) (s : State) : Host.Outcome State Fault Refusal := sampleStep passThrough b s

end Sys2Proof.Machine
end

