-- ==== Sys2Proof/Machine/Sam.lean ====
section
/-! DEFINITION. The synchronous-AM demodulator, SAMPLE.SAM (45_sam.md R130). -/

namespace Sys2Proof.Machine

/-- The lock trackers after a step, from `abs(rotated.im)` (R130). -/
def samLock (rotated : ComplexSample) (s : State) : F64 × F64 :=
  Config.lockUpdate s.lockCurrent s.lockPrevious (fabs rotated.im)

/-- The new `samDc` (R130). -/
def samNextDc (rotated : ComplexSample) (s : State) : F64 := dcEstimate s.samDc rotated.re

/-- The output value, from the `samDc` just written (R130). -/
def samOutput (rotated : ComplexSample) (s : State) : F64 := fmul (fsub rotated.re (samNextDc rotated s)) c0_5

/-- What follows Track in a SAM step: lock trackers, DC removal, output (R130). -/
def samFinish (rotated : ComplexSample) (s : State) : Beat × State :=
  (packBeat (mono (samOutput rotated s)), (s.setLock (samLock rotated s)).setSamDc (samNextDc rotated s))

/-- What a beat undergoes in mode SAM; `rotated` is taken with the phase as it stood before the step (R91, R130). -/
def demodSam (b : Beat) (s : State) : Option (Beat × State) :=
  match trackSamOp (unpackBeat b) s with
  | some t => some (samFinish (demix s (unpackBeat b)) t)
  | none => none

/-- `SAMPLE.SAM` (R130). -/
def execSampleSam (b : Beat) (s : State) : Host.Outcome State Fault Refusal := sampleStep demodSam b s

end Sys2Proof.Machine
end

