-- ==== Sys2Proof/Machine/Dispatch.lean ====
section
/-! DEFINITION. One arm for each instruction. -/

namespace Sys2Proof.Machine

def exec (i : Instr) (s : State) : Host.Outcome State Fault Refusal :=
  match i with
  -- the commands (43_mode_control.md)
  | .init sampleRate blockSize => Sys2Proof.Machine.execInit sampleRate blockSize s
  | .setmode code => Sys2Proof.Machine.execSetmode code s
  | .getmode => Sys2Proof.Machine.execGetmode s
  | .rdstate index => Sys2Proof.Machine.execRdstate index s
  -- the sample steps (42_dispatch.md, 44_am.md, 45_sam.md, 46_fm.md)
  | .sampleAm b => Sys2Proof.Machine.execSampleAm b s
  | .sampleSam b => Sys2Proof.Machine.execSampleSam b s
  | .sampleFmn b => Sys2Proof.Machine.execSampleFmn b s
  | .sampleFmw b => Sys2Proof.Machine.execSampleFmw b s
  | .sampleDsb b => Sys2Proof.Machine.execSampleDsb b s
  | .sampleLsb b => Sys2Proof.Machine.execSampleLsb b s
  | .sampleUsb b => Sys2Proof.Machine.execSampleUsb b s
  | .sampleCwl b => Sys2Proof.Machine.execSampleCwl b s
  | .sampleCwu b => Sys2Proof.Machine.execSampleCwu b s
  | .sampleDigl b => Sys2Proof.Machine.execSampleDigl b s
  | .sampleDigu b => Sys2Proof.Machine.execSampleDigu b s
  | .sampleNone b => Sys2Proof.Machine.execSampleNone b s
  -- the micro-operations (41_pll_track.md)
  | .trackSam b => Sys2Proof.Machine.execTrackSam b s
  | .trackFm b => Sys2Proof.Machine.execTrackFm b s

end Sys2Proof.Machine
end

