-- ==== Sys2Proof/WellFormed.lean ====
section
/-! DEFINITION. Which instructions the encoding admits (30_encoding.md R65, R68): the one operand with values outside
its range is the register index of RDSTATE; every mode code (R69), every pair of INIT operands (R64) and every beat
(R70) is legal. -/

namespace Sys2Proof

/-- The largest register index RDSTATE can read (R65). -/
def lastRegisterIndex : Nat := 21

/-- The check of R65: RDSTATE reads the indices 0 to 21. -/
def legalIndex (index : BitVec 5) : Bool := decide (index.toNat ≤ lastRegisterIndex)

/-- An instruction some encoding of the spec stands for. -/
def Instr.wellFormed : Instr → Bool
  | .init _ _ => true
  | .setmode _ => true
  | .getmode => true
  | .rdstate index => legalIndex index
  | .sampleAm _ => true
  | .sampleSam _ => true
  | .sampleFmn _ => true
  | .sampleFmw _ => true
  | .sampleDsb _ => true
  | .sampleLsb _ => true
  | .sampleUsb _ => true
  | .sampleCwl _ => true
  | .sampleCwu _ => true
  | .sampleDigl _ => true
  | .sampleDigu _ => true
  | .sampleNone _ => true
  | .trackSam _ => true
  | .trackFm _ => true

end Sys2Proof
end

