-- ==== Sys2Proof/Decode.lean ====
section
/-! DEFINITION. The decoder and the encoder of 30_encoding.md: command words (R58 to R60, R66, R68), the dispatch of a
beat by MODE (R67), the micro-operations by `tv` (R67, R73), and the byte order of a command stream (20_memory.md R48). -/

namespace Sys2Proof

/-- Why a first command word is illegal, one name for each clause of R68. -/
inductive DecodeError where
  /-- `op` is 0x00 or 0x05 to 0xFF. -/
  | unknownOpcode
  /-- A bit of `rsv`, bits 23 to 5, is set. -/
  | reservedBitsSet
  /-- INIT or GETMODE with `arg` not zero, or SETMODE with `arg[4] = 1`. -/
  | argumentNotZero
  /-- RDSTATE with an index above 21. -/
  | registerIndexReserved
deriving DecidableEq, Repr

/-- What the decoder makes of the words waiting on the control port. -/
inductive CommandDecode where
  /-- A command and the words after it. -/
  | command (i : Instr) (rest : List CmdWord)
  /-- An illegal first word, one word long, and the words after it (R68). -/
  | illegal (e : DecodeError) (rest : List CmdWord)
  /-- No command is whole yet: no word, or INIT with fewer than its two operand words (R58). -/
  | incomplete
deriving DecidableEq, Repr

/-- Bits 31 to 24, the opcode (R59). -/
def opField (w : CmdWord) : BitVec 8 := w.extractLsb' 24 8

/-- Bits 23 to 5, reserved (R59). -/
def rsvField (w : CmdWord) : BitVec 19 := w.extractLsb' 5 19

/-- Bits 4 to 0, the operand (R59). -/
def argField (w : CmdWord) : BitVec 5 := w.extractLsb' 0 5

/-- Bits 3 to 0, SETMODE's mode code (R59). -/
def modeField (w : CmdWord) : ModeCode := w.extractLsb' 0 4

/-- INIT after its legal first word: exactly two operand words, never decoded as commands (R58, R60). -/
def decodeInit : List CmdWord → CommandDecode
  | sampleRate :: blockSize :: rest => .command (.init sampleRate blockSize) rest
  | _ => .incomplete

/-- One command off the control port (R58, R59, R66, R68). Total on any words. -/
def decodeCommand : List CmdWord → CommandDecode
  | [] => .incomplete
  | w :: rest =>
    if opField w = 0#8 ∨ 5 ≤ (opField w).toNat then .illegal .unknownOpcode rest
    else if rsvField w ≠ 0#19 then .illegal .reservedBitsSet rest
    else if opField w = 1#8 then
      if argField w ≠ 0#5 then .illegal .argumentNotZero rest else decodeInit rest
    else if opField w = 2#8 then
      if 16 ≤ (argField w).toNat then .illegal .argumentNotZero rest
      else .command (.setmode (modeField w)) rest
    else if opField w = 3#8 then
      if argField w ≠ 0#5 then .illegal .argumentNotZero rest else .command .getmode rest
    else if legalIndex (argField w) then .command (.rdstate (argField w)) rest
    else .illegal .registerIndexReserved rest

/-- The dispatch table of R67: the operation a beat undergoes, by the MODE register alone. The codes 12 to 15, which
MODE never holds in a constructed block, pass through, as R67 says of a total model; NONE stands for them. -/
def decodeBeat (mode : ModeCode) (b : Beat) : Instr :=
  if mode = 0#4 then .sampleAm b
  else if mode = 1#4 then .sampleSam b
  else if mode = 2#4 then .sampleFmn b
  else if mode = 3#4 then .sampleFmw b
  else if mode = 4#4 then .sampleDsb b
  else if mode = 5#4 then .sampleLsb b
  else if mode = 6#4 then .sampleUsb b
  else if mode = 7#4 then .sampleCwl b
  else if mode = 8#4 then .sampleCwu b
  else if mode = 9#4 then .sampleDigl b
  else if mode = 10#4 then .sampleDigu b
  else .sampleNone b

/-- The micro-operation the variant select names (R67, R73). -/
def decodeMicro (tv : Bool) (b : Beat) : Instr :=
  if tv then .trackSam b else .trackFm b

/-- The 2-bit micro-operation select the dispatch decodes from MODE: 00 PASS, 01 AM, 10 SAM, 11 FM (R67). -/
def uselOf (mode : ModeCode) : BitVec 2 :=
  if mode = 0#4 then 1#2 else if mode = 1#4 then 2#2 else if mode = 2#4 ∨ mode = 3#4 then 3#2 else 0#2

/-- The variant select: 1 exactly in mode SAM (R67). -/
def tvOf (mode : ModeCode) : Bool := decide (mode = 1#4)

/-- Any of the three forms of an encoding. -/
def decode : Encoding → Option Instr
  | .command words =>
    match decodeCommand words with
    | .command i [] => some i
    | _ => none
  | .beat mode b => some (decodeBeat mode b)
  | .micro tv b => some (decodeMicro tv b)

/-- The word of four bytes, the first at the lowest address, lowest byte first (R48). -/
def wordOfBytes (b0 b1 b2 b3 : Byte) : CmdWord := b3 ++ b2 ++ b1 ++ b0

/-- The whole words of a byte stream; a last partial word has not arrived yet (R48, R50). -/
def wordsOfBytes : List Byte → List CmdWord
  | b0 :: b1 :: b2 :: b3 :: rest => wordOfBytes b0 b1 b2 b3 :: wordsOfBytes rest
  | _ => []

/-- The bytes of a word, lowest first (R48). -/
def bytesOfWord (w : CmdWord) : List Byte :=
  [w.extractLsb' 0 8, w.extractLsb' 8 8, w.extractLsb' 16 8, w.extractLsb' 24 8]

/-- The bytes of a stream of words, in order (R48). -/
def bytesOfWords : List CmdWord → List Byte
  | [] => []
  | w :: rest => bytesOfWord w ++ bytesOfWords rest

/-- One command off a command stream carried over bytes. Total on any bytes. -/
def decodeBytes (bytes : List Byte) : CommandDecode := decodeCommand (wordsOfBytes bytes)

/-- `op ++ rsv ++ arg` with `rsv = 0`, format K1 (R59). -/
def commandWord (op : BitVec 8) (arg : BitVec 5) : CmdWord := op ++ 0#19 ++ arg

/-- The encoding of an instruction, from the tables of R59, R60, R66, R67 and R73. -/
def encode : Instr → Encoding
  | .init sampleRate blockSize => .command [commandWord 1#8 0#5, sampleRate, blockSize]
  | .setmode code => .command [commandWord 2#8 (0#1 ++ code)]
  | .getmode => .command [commandWord 3#8 0#5]
  | .rdstate index => .command [commandWord 4#8 index]
  | .sampleAm b => .beat 0#4 b
  | .sampleSam b => .beat 1#4 b
  | .sampleFmn b => .beat 2#4 b
  | .sampleFmw b => .beat 3#4 b
  | .sampleDsb b => .beat 4#4 b
  | .sampleLsb b => .beat 5#4 b
  | .sampleUsb b => .beat 6#4 b
  | .sampleCwl b => .beat 7#4 b
  | .sampleCwu b => .beat 8#4 b
  | .sampleDigl b => .beat 9#4 b
  | .sampleDigu b => .beat 10#4 b
  | .sampleNone b => .beat 11#4 b
  | .trackSam b => .micro true b
  | .trackFm b => .micro false b

/-- The first three words of an instruction numbered as the opcode table numbers its bits, every bit above `nbits`
zero; INIT, the longest command, has three words (R60). -/
def tableWords (nbits w : Nat) : List CmdWord :=
  [BitVec.ofNat 32 (w % 2 ^ nbits), BitVec.ofNat 32 (w % 2 ^ nbits / 2 ^ 32), BitVec.ofNat 32 (w % 2 ^ nbits / 2 ^ 64)]

/-- The selector of a row that gives fewer bits than a command word has: the table numbers the MODE register's bits
for a format B row (R67), and the beat that MODE dispatches is all zeros (assumption 9). -/
def tableMode (w : Nat) : ModeCode := BitVec.ofNat 4 w

/-- The instruction the decoder reads from an opcode-table word (assumption 9): a command, laid out in bytes and
decoded, where the row gives a whole command word; a beat under the MODE the row gives otherwise. -/
def decodeTableWord (nbits w : Nat) : Option Instr :=
  if 32 ≤ nbits then
    match decodeBytes (bytesOfWords (tableWords nbits w)) with
    | .command i _ => some i
    | _ => none
  else some (decodeBeat (tableMode w) 0#128)

end Sys2Proof
end

