-- ==== Sys2Proof/Machine/Ports.lean ====
section
/-! DEFINITION. Where a step takes its instruction from: which agent's request is ready, which of two is taken, and the
state with that request taken (00_scope.md R5; 20_memory.md R54; 30_encoding.md R58; 42_dispatch.md R101). -/

namespace Sys2Proof.Machine

/-- A whole command stands on the control port (R58; assumption 13). -/
def commandReady (s : State) : Bool := decide (decodeCommand s.ctrlIn ≠ .incomplete)

/-- The data-in port takes a beat: one stands there and the block is constructed (R101). -/
def beatReady (s : State) : Bool := s.constructed && !s.dataIn.isEmpty

/-- The agent whose request the step takes, none where neither has one (R54; assumption 8). -/
def grantedAgent (s : State) : Option Agent :=
  if commandReady s && beatReady s then some (Config.arbiter s.freeCount)
  else if commandReady s then some .control
  else if beatReady s then some .data
  else none

/-- The state in which the granted request is taken: a choice between two requests has used one free value. -/
def arbitrated (s : State) : State := if commandReady s && beatReady s then s.drawFree else s

/-- The words left on the control port when the command at its head is gone; the words of a command that is not whole yet
are all its own. -/
def commandRest (words : List CmdWord) : List CmdWord :=
  match decodeCommand words with
  | .command _ rest => rest
  | .illegal _ rest => rest
  | .incomplete => []

/-- The ports when the reset input cuts the step under way (70_reset_and_hazards.md R159): the request whose step it is
goes with the step, and so do the words of a command that is not whole yet; no response and no output beat answers them.
A request of the other agent that was not granted still stands (assumption 14). -/
def abandonRequest (s : State) : State :=
  (s.withCtrlIn (if grantedAgent s = some .data && commandReady s then s.ctrlIn else commandRest s.ctrlIn)).withDataIn
    (if grantedAgent s = some .data then s.dataIn.tail else s.dataIn)

/-- A command word stream of an instruction that stands alone on the control port, the data-in port empty. -/
def placeCommand (s : State) (words : List CmdWord) : State :=
  ((s.withCtrlIn words).withDataIn []).releaseReset

/-- A beat that stands alone at the data-in port of a constructed block in mode `m`, the control port empty. -/
def placeBeat (s : State) (m : ModeCode) (b : Beat) : State :=
  { ((s.withCtrlIn []).withDataIn [b]).releaseReset with mode := m, constructed := true }

end Sys2Proof.Machine
end

