-- ==== Sys2Proof/Machine/Step.lean ====
section
/-! DEFINITION. One step of the block: the reset input first, then one atomic step of the agent whose request is taken
(20_memory.md R54; 70_reset_and_hazards.md R158, R159), or nothing where no request stands (60_exceptions.md R154). -/

namespace Sys2Proof.Machine

/-- A command step: the words are taken off the control port; an illegal first word answers ERR_ILLEGAL_CMD and is one
word long (R68, R142, R145). -/
def commandStep (s : State) : Host.Outcome State Fault Refusal :=
  match decodeCommand s.ctrlIn with
  | .command i rest => exec i (s.withCtrlIn rest)
  | .illegal _ rest => .next (raiseIllegal (s.withCtrlIn rest))
  | .incomplete => .next s

/-- A sample step: the beat is taken off the data-in port and undergoes what MODE selects (R67, R101). -/
def beatStep (s : State) : Host.Outcome State Fault Refusal :=
  match s.dataIn with
  | b :: rest => exec (decodeBeat s.mode b) (s.withDataIn rest)
  | [] => .next s

/-- The step of the agent that was granted. -/
def agentStep (g : Option Agent) (s : State) : Host.Outcome State Fault Refusal :=
  match g with
  | some .control => commandStep s
  | some .data => beatStep s
  | none => .next s

/-- One step. -/
def step (s : State) : Host.Outcome State Fault Refusal :=
  if s.resetIn then .next (powerOn (abandonRequest s)) else agentStep (grantedAgent s) (arbitrated s)

/-- The instruction of an opcode-table row stored where the next step takes its instruction from (assumption 9): the
command's words on the control port, or an all-zero beat at the data-in port under the MODE the row gives. -/
def State.withFetchWord (s : State) (nbits w : Nat) : State :=
  if 32 ≤ nbits then placeCommand s (tableWords nbits w) else placeBeat s (tableMode w) 0#128

end Sys2Proof.Machine
end

