-- ==== Sys2Proof/Machine/ProcessBlock.lean ====
section
/-! DEFINITION. The pseudo-operation `PROCESSBLOCK in, out` (30_encoding.md R73, 42_dispatch.md R112), the document's
ProcessBlock: `BS` sample steps over the host's sample memory. -/

namespace Sys2Proof.Machine

/-- The output beat a sample step has just emitted. -/
def lastOut (s : State) : Beat := s.dataOut.getLastD 0#128

/-- The data agent's part of one `sample` of the expansion: the beat is read from the input buffer before the step and
the output beat is taken off the port and written to the output buffer after it (R50, R112). -/
def processSample (inAddr outAddr : Nat) (s : State) : Host.Outcome State Fault Refusal :=
  match exec (decodeBeat s.mode (memReadBeat s.hostMem inAddr)) s with
  | .next t => .next ((t.withHostMem (memWriteBeat t.hostMem outAddr (lastOut t))).withDataOut s.dataOut)
  | .fault r => .fault r
  | .refused r => .refused r

/-- The samples of a block still to come, in order (R112). -/
def processSamples : Nat → Nat → Nat → State → Host.Outcome State Fault Refusal
  | 0, _, _, s => .next s
  | n + 1, inAddr, outAddr, s =>
    match processSample inAddr outAddr s with
    | .next t => processSamples n (inAddr + 16) (outAddr + 16) t
    | .fault r => .fault r
    | .refused r => .refused r

/-- `PROCESSBLOCK in, out` with no other step between its samples. What it does on a state where beats already stand at the
data-in port or the reset input is asserted, and with words on the control port, is the model's choice: the `BS` samples
run first, and all of those wait until after it (R53, R112; assumption 19). The three conditions it is refused on
are those of R49, R112 and 93_implementation_defined.md U13. -/
def processBlock (inAddr outAddr : Nat) (s : State) : Host.Outcome State Fault Refusal :=
  if inAddr % 16 ≠ 0 ∨ outAddr % 16 ≠ 0 then .refused .processBlockMisaligned
  else if !s.constructed then .refused .processBlockNotConstructed
  else if s.idx ≠ 0#32 then .refused .processBlockInsideBlock
  else processSamples s.bs.toNat inAddr outAddr s

end Sys2Proof.Machine
end

