-- ==== Sys2Proof/Machine/Assembler.lean ====
section
/-! DEFINITION. The host tool's part of the command set: mode names (30_encoding.md R72), assembler syntax (R71) and what
a statement becomes at the ports (R58 to R61, R73). It lies outside the block: no step calls it. -/

namespace Sys2Proof.Machine

/-! ## Names -/

/-- The twelve mode names with their codes (R63, R72). -/
def modeNames : List (String × ModeCode) :=
  [("AM", 0#4), ("SAM", 1#4), ("FMN", 2#4), ("FMW", 3#4), ("DSB", 4#4), ("LSB", 5#4), ("USB", 6#4), ("CWL", 7#4),
    ("CWU", 8#4), ("DIGL", 9#4), ("DIGU", 10#4), ("NONE", 11#4)]

/-- `ModeToName`, not defined on 12 to 15 (R72). -/
def modeToName (c : ModeCode) : Option String := (modeNames.find? (fun p => p.2 = c)).map Prod.fst

/-- `NameToMode`: the code whose name is the string itself, else AM (R72). -/
def nameToMode (name : String) : ModeCode := ((modeNames.find? (fun p => p.1 = name)).map Prod.snd).getD 0#4

/-- The register names of 10_state.md with their RDSTATE indices (R18 and the control-register table). -/
def registerNames : List (String × BitVec 5) :=
  [("phase", 0#5), ("frequency", 1#5), ("alpha", 2#5), ("beta", 3#5), ("loLimit", 4#5), ("hiLimit", 5#5),
    ("amDc", 6#5), ("amSmooth", 7#5), ("samDc", 8#5), ("lockCurrent", 9#5), ("lockPrevious", 10#5), ("afc", 11#5),
    ("prevRe", 12#5), ("prevIm", 13#5), ("SR", 16#5), ("BS", 17#5), ("MODE", 18#5), ("PMODE", 19#5),
    ("STATUS", 20#5), ("IDX", 21#5)]

/-- The index a register name stands for. -/
def registerIndex (name : String) : Option (BitVec 5) := (registerNames.find? (fun p => p.1 = name)).map Prod.snd

/-! ## Statements and what they become -/

/-- One statement of R71. -/
inductive Statement where
  | init (sampleRate blockSize : BitVec 32)
  | setmodeName (name : String)
  | setmodeCode (code : ModeCode)
  | getmode
  | rdstate (index : BitVec 5)
  | sample (x : ComplexSample)
  | processblock (inAddr outAddr : Nat)
deriving DecidableEq, Repr

/-- Why the host tool reports a line. -/
inductive AsmError where
  | unknownMnemonic
  | badOperands
  /-- A PROCESSBLOCK base that is no multiple of 16 (20_memory.md R49). -/
  | misaligned
deriving DecidableEq, Repr

/-- What a statement puts at the block's ports: words on the control port, a beat on the data-in port, or the run of
beats of PROCESSBLOCK, which machine code has no form for (R73). -/
inductive Transaction where
  | command (words : List CmdWord)
  | beat (b : Beat)
  | block (inAddr outAddr : Nat)
deriving DecidableEq, Repr

/-- The words of a command; a sample step and a micro-operation have none (R61, R73). -/
def commandWords (i : Instr) : List CmdWord :=
  match encode i with
  | .command words => words
  | .beat _ _ => []
  | .micro _ _ => []

/-- What a statement becomes (R71 to R73). -/
def assemble : Statement → Except AsmError Transaction
  | .init sampleRate blockSize => .ok (.command (commandWords (.init sampleRate blockSize)))
  | .setmodeName name => .ok (.command (commandWords (.setmode (nameToMode name))))
  | .setmodeCode code => .ok (.command (commandWords (.setmode code)))
  | .getmode => .ok (.command (commandWords .getmode))
  | .rdstate index => .ok (.command (commandWords (.rdstate index)))
  | .sample x => .ok (.beat (packBeat x))
  | .processblock inAddr outAddr =>
    if inAddr % 16 ≠ 0 ∨ outAddr % 16 ≠ 0 then .error .misaligned else .ok (.block inAddr outAddr)

/-! ## Text -/

/-- A line without its comment (R71). -/
def stripComment (line : List Char) : List Char := line.takeWhile (fun c => c ≠ ';')

/-- Blank characters between the parts of a statement. -/
def isBlank (c : Char) : Bool := c = ' ' || c = '\t'

/-- A text without the blanks at its ends. -/
def trim (text : List Char) : List Char := ((text.dropWhile isBlank).reverse.dropWhile isBlank).reverse

/-- The parts of a text between commas, each trimmed. -/
def splitCommas : List Char → List Char → List (List Char)
  | part, [] => [trim part.reverse]
  | part, c :: rest => if c = ',' then trim part.reverse :: splitCommas [] rest else splitCommas (c :: part) rest

/-- The operands of a statement; none where nothing stands. -/
def operandsOf (text : List Char) : List (List Char) := if trim text = [] then [] else splitCommas [] text

/-- The value of a digit in a base up to 16. -/
def digitValue (base : Nat) (c : Char) : Option Nat :=
  if '0' ≤ c ∧ c ≤ '9' then
    if c.toNat - '0'.toNat < base then some (c.toNat - '0'.toNat) else none
  else if 'a' ≤ c ∧ c ≤ 'f' ∧ base = 16 then some (c.toNat - 'a'.toNat + 10)
  else if 'A' ≤ c ∧ c ≤ 'F' ∧ base = 16 then some (c.toNat - 'A'.toNat + 10)
  else none

/-- Digits read onto a number already read. -/
def readDigits (base : Nat) : Nat → List Char → Option Nat
  | n, [] => some n
  | n, c :: rest =>
    match digitValue base c with
    | some d => readDigits base (base * n + d) rest
    | none => none

/-- A natural number with at least one digit. -/
def parseDigits (base : Nat) (text : List Char) : Option Nat := if text = [] then none else readDigits base 0 text

/-- A decimal or `0x` natural number. -/
def parseNat : List Char → Option Nat
  | '0' :: 'x' :: rest => parseDigits 16 rest
  | '0' :: 'X' :: rest => parseDigits 16 rest
  | text => parseDigits 10 text

/-- A signed decimal integer. -/
def parseInt : List Char → Option Int
  | '-' :: rest => (parseDigits 10 rest).map (fun n => -(n : Int))
  | '+' :: rest => (parseDigits 10 rest).map (fun n => (n : Int))
  | text => (parseDigits 10 text).map (fun n => (n : Int))

/-- A signed 32-bit operand of `init`: `0x` spells the pattern, decimal the value (R71, R117; assumption 24). -/
def parseInt32 (text : List Char) : Option (BitVec 32) :=
  match text with
  | '0' :: 'x' :: rest => (parseDigits 16 rest).bind (fun n => if n < 2 ^ 32 then some (BitVec.ofNat 32 n) else none)
  | '0' :: 'X' :: rest => (parseDigits 16 rest).bind (fun n => if n < 2 ^ 32 then some (BitVec.ofNat 32 n) else none)
  | text =>
    (parseInt text).bind (fun n => if -(2 ^ 31) ≤ n ∧ n < 2 ^ 31 then some (BitVec.ofInt 32 n) else none)

/-- `digits * base^(-places) * radix^e` as the nearest binary64 magnitude (R15). -/
def literalMagnitude (digits base places radix : Nat) (e : Int) : Nat :=
  roundUnits (digits * 2 ^ 1074 * radix ^ e.toNat) (base ^ places * radix ^ (-e).toNat)

/-- The significand of a number in a base, as digits and the count of those after the point. -/
def parseSignificand (base : Nat) (text : List Char) : Option (Nat × Nat) :=
  match text.dropWhile (fun c => c ≠ '.') with
  | [] => (parseDigits base text).map (fun n => (n, 0))
  | _ :: fraction =>
    (parseDigits base (text.takeWhile (fun c => c ≠ '.') ++ fraction)).map (fun n => (n, fraction.length))

/-- The exponent after its letter; 0 where none stands. -/
def parseExponent (text : List Char) : Option Int :=
  match text with
  | [] => some 0
  | _ :: digits => parseInt digits

/-- A magnitude whose digits are in `base`, whose exponent follows one of `marks` and scales by `radix`. -/
def parseMagnitude (base radix : Nat) (marks : List Char) (text : List Char) : Option Nat :=
  match parseSignificand base (text.takeWhile (fun c => c ∉ marks)),
    parseExponent (text.dropWhile (fun c => c ∉ marks)) with
  | some (digits, places), some e => some (literalMagnitude digits base places radix e)
  | _, _ => none

/-- The magnitude of a C hexadecimal float or of a decimal. -/
def parseUnsignedFloat : List Char → Option Nat
  | '0' :: 'x' :: rest => parseMagnitude 16 2 ['p', 'P'] rest
  | '0' :: 'X' :: rest => parseMagnitude 16 2 ['p', 'P'] rest
  | text => parseMagnitude 10 10 ['e', 'E'] text

/-- A C hexadecimal float or a decimal, with its sign (R71). -/
def parseFloat : List Char → Option F64
  | '-' :: rest => (parseUnsignedFloat rest).map (fpack true)
  | '+' :: rest => (parseUnsignedFloat rest).map (fpack false)
  | text => (parseUnsignedFloat text).map (fpack false)

/-- The operand of `setmode`: a name, or `#` and a raw code 0 to 15 (R71). -/
def parseModeOperand : List Char → Option Statement
  | '#' :: rest => (parseNat rest).bind (fun n => if n < 16 then some (.setmodeCode (BitVec.ofNat 4 n)) else none)
  | name => some (.setmodeName (String.ofList name))

/-- The operand of `rdstate`: a name, or `#` and an index 0 to 21 (R71). -/
def parseRegisterOperand : List Char → Option Statement
  | '#' :: rest => (parseNat rest).bind (fun n => if n ≤ 21 then some (.rdstate (BitVec.ofNat 5 n)) else none)
  | name => (registerIndex (String.ofList name)).map .rdstate

/-- A statement's mnemonic in lower case with its operands (R71). -/
def parseOperands (mnemonic : String) (operands : List (List Char)) : Except AsmError Statement :=
  let found (r : Option Statement) : Except AsmError Statement :=
    match r with
    | some st => .ok st
    | none => .error .badOperands
  match mnemonic, operands with
  | "init", [a, b] => found ((parseInt32 a).bind (fun x => (parseInt32 b).map (fun y => .init x y)))
  | "setmode", [a] => found (parseModeOperand a)
  | "getmode", [] => .ok .getmode
  | "rdstate", [a] => found (parseRegisterOperand a)
  | "sample", [a, b] => found ((parseFloat a).bind (fun x => (parseFloat b).map (fun y => .sample ⟨x, y⟩)))
  | "processblock", [a, b] => found ((parseNat a).bind (fun x => (parseNat b).map (fun y => .processblock x y)))
  | name, _ =>
    if name ∈ ["init", "setmode", "getmode", "rdstate", "sample", "processblock"] then .error .badOperands
    else .error .unknownMnemonic

/-- One line of source: nothing, or a statement (R71). Mnemonics fold case; mode and register names do not. -/
def parseLine (line : String) : Except AsmError (Option Statement) :=
  let text := trim (stripComment line.toList)
  if text = [] then .ok none
  else
    (parseOperands (String.ofList ((text.takeWhile (fun c => !isBlank c)).map Char.toLower))
      (operandsOf (text.dropWhile (fun c => !isBlank c)))).map some

end Sys2Proof.Machine
end

