-- ==== Sys2Proof/Safety.lean ====
section
/-! DEFINITION. The terms claims about the block are made in: the input contract, the legal states, the relation between
states that differ only in unspecified registers, what it is to be correctly rounded, and the loops of the phase wrap as
the spec writes them. -/

namespace Sys2Proof.Safety

open Sys2Proof.Machine

/-! ## The host's side of the contract (70_reset_and_hazards.md R165) -/

/-- A component inside the contract: finite and at most `inMax` in absolute value. -/
def laneInContract (inMax x : F64) : Bool := fisFinite x && fle (fabs x) inMax

/-- A beat inside the contract. -/
def inContract (inMax : F64) (b : Beat) : Bool :=
  laneInContract inMax (unpackBeat b).re && laneInContract inMax (unpackBeat b).im

/-- The default bound of the contract, `IN_MAX = 2.0`. -/
def defaultInMax : F64 := c2

/-! ## Legal states -/

/-- `+0.0 <= phase < TWO_PI` (10_state.md R38). -/
def phaseInRange (s : State) : Bool := fle posZero s.phase && flt s.phase twoPi

/-- `loLimit <= frequency <= hiLimit` (R39). -/
def frequencyInRange (s : State) : Bool := fle s.loLimit s.frequency && fle s.frequency s.hiLimit

/-- The loop coefficients and limits are what R120 and R121 compute from MODE, SR and `MODE_CFG` (R40). -/
def coefficientsDerived (s : State) : Prop :=
  s.alpha = fmul (fmul c0_3 (modeCfg s.mode).bandwidthHz) (fdiv twoPi (fofInt32 s.sr)) ∧
  s.beta = fdiv (fmul s.alpha s.alpha) c4 ∧
  s.loLimit = fmul (modeCfg s.mode).loLimitFactor (fdiv twoPi (fofInt32 s.sr)) ∧
  s.hiLimit = fmul (modeCfg s.mode).hiLimitFactor (fdiv twoPi (fofInt32 s.sr))

/-- What holds in a constructed block between steps (R32, R33, R35, R38 to R40). -/
structure ConstructedLegal (s : State) : Prop where
  mode_legal : s.mode.toNat ≤ 11
  pmode_legal : s.pmode.toNat ≤ 11
  sr_positive : 0 < s.sr.toInt
  bs_positive : 0 < s.bs.toInt
  idx_in_block : s.idx.toNat < s.bs.toNat
  pending_inside_block : s.pendingValid = true → s.idx ≠ 0#32
  derived : coefficientsDerived s
  phase_range : phaseInRange s = true
  frequency_range : frequencyInRange s = true

/-- What holds of the block while it is not constructed (R34, R35). -/
structure UnconstructedLegal (s : State) : Prop where
  pending_clear : s.pendingValid = false
  prev_clear : s.prevValid = false
  idx_zero : s.idx = 0#32

/-- RSP has the form of 30_encoding.md R62: a status of 0 to 3, bits 27 to 8 zero. -/
def responseLegal (s : State) : Prop := s.rsp.toNat / 2 ^ 28 ≤ 3 ∧ s.rsp.toNat / 2 ^ 8 % 2 ^ 20 = 0

/-- The legal states of the machine. -/
structure Legal (s : State) : Prop where
  constructed_legal : s.constructed = true → ConstructedLegal s
  unconstructed_legal : s.constructed = false → UnconstructedLegal s
  response : responseLegal s
  memory : s.hostMem.wf = true

/-- The accumulators of every mode but the one in force are at their ApplyMode values, and so is the loop where the mode
in force never runs Track: no state leaks across a mode switch (10_state.md R40, 43_mode_control.md R119). -/
structure NoStaleState (s : State) : Prop where
  am_only : s.mode ≠ 0#4 → s.amDc = posZero ∧ s.amSmooth = posZero
  sam_only : s.mode ≠ 1#4 → s.samDc = posZero ∧ s.lockCurrent = c0_5 ∧ s.lockPrevious = c1
  fm_only : s.mode ≠ 2#4 → s.mode ≠ 3#4 →
    s.afc = posZero ∧ s.prevRe = posZero ∧ s.prevIm = posZero ∧ s.prevValid = false
  loop_only : s.mode ≠ 1#4 → s.mode ≠ 2#4 → s.mode ≠ 3#4 → s.phase = posZero ∧ s.frequency = posZero

/-- A loop that cannot leave the range the wrap ends on, for inputs inside the default contract: the registers as the
default `MODE_CFG` bounds them at every legal sample rate (41_pll_track.md R97; 70_reset_and_hazards.md R165). -/
structure LoopBounded (s : State) : Prop where
  phase_range : phaseInRange s = true
  frequency_range : frequencyInRange s = true
  lo_bound : fle (fneg 0x40F0000000000000#64) s.loLimit = true
  hi_bound : fle s.hiLimit 0x40F0000000000000#64 = true
  alpha_range : fle posZero s.alpha = true ∧ fle s.alpha 0x40D0000000000000#64 = true
  beta_range : fle posZero s.beta = true ∧ fle s.beta 0x4190000000000000#64 = true

/-! ## Unspecified registers (93_implementation_defined.md U3) -/

/-- Two states that agree on everything but the registers R158 and R140 leave unspecified. -/
structure AgreeButUnspecified (s t : State) : Prop where
  constructed : s.constructed = t.constructed
  pendingValid : s.pendingValid = t.pendingValid
  prevValid : s.prevValid = t.prevValid
  idx : s.idx = t.idx
  rsp : s.rsp = t.rsp
  rspd : s.rspd = t.rspd
  ctrlIn : s.ctrlIn = t.ctrlIn
  dataIn : s.dataIn = t.dataIn
  dataOut : s.dataOut = t.dataOut
  resetIn : s.resetIn = t.resetIn
  freeCount : s.freeCount = t.freeCount
  hostMem : s.hostMem = t.hostMem

/-! ## Correct rounding (40_numerics.md R74) -/

/-- The magnitude a finite magnitude pattern stands for, in units of 2^-1074. -/
def magnitudeUnits (m : Nat) : Nat := funits (BitVec.ofNat 64 m)

/-- How far `num / den` lies from a magnitude, times `den`. -/
def distance (num den m : Nat) : Nat := ((num : Int) - (magnitudeUnits m * den : Nat)).natAbs

/-- `m` is the finite magnitude pattern nearest to `num / den`, an even one where two are equally near. -/
def NearestEven (num den m : Nat) : Prop :=
  m < infBits ∧ ∀ k, k < infBits → k ≠ m →
    distance num den m < distance num den k ∨ (distance num den m = distance num den k ∧ m % 2 = 0)

/-- The magnitude half way between the largest finite one and 2^1024, from which on rounding gives infinity. -/
def overflowUnits : Nat := (2 ^ 54 - 1) * 2 ^ 2044

/-- `m` is `num / den` rounded to nearest, ties to even, as a magnitude pattern. -/
def CorrectlyRounded (num den m : Nat) : Prop :=
  if overflowUnits * den ≤ num then m = infBits else NearestEven num den m

/-! ## The loops of the wrap (41_pll_track.md R97) -/

/-- `while p >= TWO_PI do p = p - TWO_PI` takes `p` to `q`. -/
inductive WhileSubtract : F64 → F64 → Prop where
  | done (p : F64) (h : fle twoPi p = false) : WhileSubtract p p
  | again (p q : F64) (h : fle twoPi p = true) (rest : WhileSubtract (fsub p twoPi) q) : WhileSubtract p q

/-- `while p < +0.0 do p = p + TWO_PI` takes `p` to `q`. -/
inductive WhileAdd : F64 → F64 → Prop where
  | done (p : F64) (h : flt p posZero = false) : WhileAdd p p
  | again (p q : F64) (h : flt p posZero = true) (rest : WhileAdd (fadd p twoPi) q) : WhileAdd p q

/-- The `repeat … until` of R97 takes `p` to the value it returns. -/
inductive WrapEnds : F64 → F64 → Prop where
  | stop (p q r : F64) (sub : WhileSubtract p q) (add : WhileAdd q r)
      (inRange : (fle posZero r && flt r twoPi) = true) : WrapEnds p r
  | again (p q r w : F64) (sub : WhileSubtract p q) (add : WhileAdd q r)
      (outside : (fle posZero r && flt r twoPi) = false) (rest : WrapEnds r w) : WrapEnds p w

end Sys2Proof.Safety
end

