-- ==== Sys2Proof/Certificates/Slice0/Obligations.lean ====
section
/-! DEFINITION. The statements for the provers, from the numbered rules of spec/. The free values and parameters of
Config.lean are constants without a body: a statement holds whatever they are. -/

open Sys2Proof Sys2Proof.Machine Sys2Proof.Safety

/-! ## Encodings -/

/-- R66, R67, R73: the encoding of a well-formed instruction decodes to that instruction, at every operand value. -/
def Obligations.DecodeOfEncodeIsTheInstruction : Prop :=
  ∀ i : Instr, i.wellFormed = true → decode (encode i) = some i

/-- R58 to R60: a command is read off a longer stream of words and the rest is left; and every command the decoder reads
is well-formed and is read off exactly the words that encode it. -/
def Obligations.CommandWordsRoundTrip : Prop :=
  (∀ (i : Instr) (words rest : List CmdWord), i.wellFormed = true → encode i = .command words →
    decodeCommand (words ++ rest) = .command i rest) ∧
  (∀ (words rest : List CmdWord) (i : Instr), decodeCommand words = .command i rest →
    i.wellFormed = true ∧ ∃ own, encode i = .command own ∧ words = own ++ rest)

/-- R68, R142: which first words are illegal, and what an illegal command does: one word is consumed, RSP answers
ERR_ILLEGAL_CMD, and no other state of the block changes, constructed or not. (`freeCount` is the model's own: it counts
the choice between two agents' requests. That `exec` of RDSTATE at a reserved index, which no word decodes to, answers the
same is the model's choice, assumption 20.) -/
def Obligations.IllegalCommandAnswersAndChangesNothing : Prop :=
  ∀ (w : CmdWord) (rest : List CmdWord),
    ((∃ e, decodeCommand (w :: rest) = .illegal e rest) ↔
      (w.toNat / 2 ^ 24 = 0 ∨ 5 ≤ w.toNat / 2 ^ 24 ∨ w.toNat / 2 ^ 5 % 2 ^ 19 ≠ 0 ∨
        ((w.toNat / 2 ^ 24 = 1 ∨ w.toNat / 2 ^ 24 = 3) ∧ w.toNat % 2 ^ 5 ≠ 0) ∨
        (w.toNat / 2 ^ 24 = 2 ∧ w.toNat / 2 ^ 4 % 2 = 1) ∨
        (w.toNat / 2 ^ 24 = 4 ∧ 21 < w.toNat % 2 ^ 5))) ∧
    (∀ (e : DecodeError) (s : State), decodeCommand (w :: rest) = .illegal e rest → s.resetIn = false →
      s.ctrlIn = w :: rest → grantedAgent s = some .control →
      step s = .next { s with ctrlIn := rest, rsp := 0x20000000#32, freeCount := (arbitrated s).freeCount }) ∧
    (∀ (r : BitVec 5) (s : State), 21 < r.toNat → exec (.rdstate r) s = .next { s with rsp := 0x20000000#32 })

/-- R66 to R69, worked encodings of 95_test_vectors.md section 4.1. -/
def Obligations.SpecWordsDecode : Prop :=
  decodeCommand [0x01000000#32, 0x0000BB80#32, 0x00000800#32] = .command (.init 48000#32 2048#32) [] ∧
  decodeCommand [0x02000001#32] = .command (.setmode 1#4) [] ∧
  decodeCommand [0x0200000F#32] = .command (.setmode 15#4) [] ∧
  decodeCommand [0x03000000#32] = .command .getmode [] ∧
  decodeCommand [0x04000015#32] = .command (.rdstate 21#5) [] ∧
  decodeCommand [0x04000016#32] = .illegal .registerIndexReserved []

/-- R48: a command stream over bytes is little-endian, and carries every stream of words. -/
def Obligations.CommandBytesAreLittleEndian : Prop :=
  (∀ b0 b1 b2 b3 : Byte,
    (wordOfBytes b0 b1 b2 b3).toNat = b0.toNat + 2 ^ 8 * b1.toNat + 2 ^ 16 * b2.toNat + 2 ^ 24 * b3.toNat) ∧
  (∀ words : List CmdWord, wordsOfBytes (bytesOfWords words) = words)

/-- R67: MODE alone selects the step, with the selects `usel` and `tv` the table gives. -/
def Obligations.DispatchIsByModeAlone : Prop :=
  ∀ (m : ModeCode) (b : Beat),
    decodeBeat m b =
      (match m.toNat with
        | 0 => Instr.sampleAm b
        | 1 => .sampleSam b
        | 2 => .sampleFmn b
        | 3 => .sampleFmw b
        | 4 => .sampleDsb b
        | 5 => .sampleLsb b
        | 6 => .sampleUsb b
        | 7 => .sampleCwl b
        | 8 => .sampleCwu b
        | 9 => .sampleDigl b
        | 10 => .sampleDigu b
        | _ => .sampleNone b) ∧
    (uselOf m).toNat = (if m.toNat = 0 then 1 else if m.toNat = 1 then 2 else if m.toNat ≤ 3 then 3 else 0) ∧
    (tvOf m = true ↔ m.toNat = 1)

/-! ## The commands -/

/-- R117: INIT in every state, both of its ends. On a successful one every register of the block is written, by ApplyMode
of AM among them (R119 to R121); on a failed one the flags and IDX clear and RSP names the bad operands, and what becomes
unspecified (R140) is not stated. -/
def Obligations.InitFollowsItsRule : Prop :=
  ∀ (rate size : BitVec 32) (s : State),
    (0 < rate.toInt → 0 < size.toInt →
      exec (.init rate size) s = .next
        { s with
          sr := rate, bs := size, idx := 0#32, pendingValid := false, pmode := 0#4, mode := 0#4
          phase := posZero, frequency := posZero
          alpha := fmul (fmul c0_3 (modeCfg 0#4).bandwidthHz) (fdiv twoPi (fofInt32 rate))
          beta := fdiv (fmul (fmul (fmul c0_3 (modeCfg 0#4).bandwidthHz) (fdiv twoPi (fofInt32 rate)))
            (fmul (fmul c0_3 (modeCfg 0#4).bandwidthHz) (fdiv twoPi (fofInt32 rate)))) c4
          loLimit := fmul (modeCfg 0#4).loLimitFactor (fdiv twoPi (fofInt32 rate))
          hiLimit := fmul (modeCfg 0#4).hiLimitFactor (fdiv twoPi (fofInt32 rate))
          lockCurrent := c0_5, lockPrevious := c1, samDc := posZero, afc := posZero, amDc := posZero
          amSmooth := posZero, prevRe := posZero, prevIm := posZero, prevValid := false
          constructed := true, rsp := 0#32 }) ∧
    (rate.toInt ≤ 0 ∨ size.toInt ≤ 0 →
      ∃ t, exec (.init rate size) s = .next t ∧ t.constructed = false ∧ t.pendingValid = false ∧
        t.prevValid = false ∧ t.idx = 0#32 ∧
        t.rsp.toNat = 2 ^ 28 + (if rate.toInt ≤ 0 then 1 else 0) + (if size.toInt ≤ 0 then 2 else 0) ∧
        t.ctrlIn = s.ctrlIn ∧ t.dataIn = s.dataIn ∧ t.dataOut = s.dataOut ∧
        t.resetIn = s.resetIn ∧ t.hostMem = s.hostMem)

/-- R140: a rejected INIT answers ERR_CONFIG with its payload, and the block then refuses every command but INIT and takes
no beat. That RSPD keeps its value is the model's choice (assumption 26). -/
def Obligations.RejectedInitClosesTheBlock : Prop :=
  ∀ (rate size : BitVec 32) (s t : State), rate.toInt ≤ 0 ∨ size.toInt ≤ 0 → exec (.init rate size) s = .next t →
    t.rsp.toNat = 2 ^ 28 + (if rate.toInt ≤ 0 then 1 else 0) + (if size.toInt ≤ 0 then 2 else 0) ∧
    t.constructed = false ∧ t.pendingValid = false ∧ t.prevValid = false ∧ t.idx = 0#32 ∧ t.rspd = s.rspd ∧
    (∀ c : ModeCode, exec (.setmode c) t = .next { t with rsp := 0x30000000#32 }) ∧
    exec .getmode t = .next { t with rsp := 0x30000000#32 } ∧
    (∀ r : BitVec 5, r.toNat ≤ 21 → exec (.rdstate r) t = .next { t with rsp := 0x30000000#32 }) ∧
    (∀ beats : List Beat, step { t with ctrlIn := [], dataIn := beats, resetIn := false } =
      .next { t with ctrlIn := [], dataIn := beats, resetIn := false })

/-- 93_implementation_defined.md U3, R160: a successful INIT overwrites every register of the block but RSPD, so that
nothing of the state before it is left. -/
def Obligations.InitOverwritesEverything : Prop :=
  ∀ (rate size : BitVec 32) (s t : State), 0 < rate.toInt → 0 < size.toInt →
    s.rspd = t.rspd → s.ctrlIn = t.ctrlIn → s.dataIn = t.dataIn → s.dataOut = t.dataOut → s.resetIn = t.resetIn →
    s.freeCount = t.freeCount → s.hostMem = t.hostMem →
    exec (.init rate size) s = exec (.init rate size) t

/-- R118: SETMODE applies the canonical mode at a block boundary, latches it in mid-block, and answers
ERR_NOT_CONSTRUCTED in a block that is not constructed. -/
def Obligations.SetmodeFollowsItsRule : Prop :=
  ∀ (c : ModeCode) (s : State),
    let m : ModeCode := if c.toNat ≤ 11 then c else 0#4
    (s.constructed = true → s.idx = 0#32 →
      exec (.setmode c) s = .next
        { s with
          pendingValid := false, mode := m, phase := posZero, frequency := posZero
          alpha := fmul (fmul c0_3 (modeCfg m).bandwidthHz) (fdiv twoPi (fofInt32 s.sr))
          beta := fdiv (fmul (fmul (fmul c0_3 (modeCfg m).bandwidthHz) (fdiv twoPi (fofInt32 s.sr)))
            (fmul (fmul c0_3 (modeCfg m).bandwidthHz) (fdiv twoPi (fofInt32 s.sr)))) c4
          loLimit := fmul (modeCfg m).loLimitFactor (fdiv twoPi (fofInt32 s.sr))
          hiLimit := fmul (modeCfg m).hiLimitFactor (fdiv twoPi (fofInt32 s.sr))
          lockCurrent := c0_5, lockPrevious := c1, samDc := posZero, afc := posZero, amDc := posZero
          amSmooth := posZero, prevRe := posZero, prevIm := posZero, prevValid := false, rsp := 0#32 }) ∧
    (s.constructed = true → s.idx ≠ 0#32 →
      exec (.setmode c) s = .next { s with pmode := m, pendingValid := true, rsp := 0#32 }) ∧
    (s.constructed = false → exec (.setmode c) s = .next { s with rsp := 0x30000000#32 })

/-- R122, R125: of several SETMODE commands in one block the last wins, and so it does at a block boundary; and a later
INIT discards a pending mode. -/
def Obligations.LastSetmodeWins : Prop :=
  ∀ (a c : ModeCode) (s t u : State), s.constructed = true → exec (.setmode a) s = .next t →
    exec (.setmode c) t = .next u →
    exec (.setmode c) s = .next u ∧
    (∀ rate size : BitVec 32, 0 < rate.toInt → 0 < size.toInt →
      exec (.init rate size) t = exec (.init rate size) s)

/-- R123: GETMODE answers the pending mode, else the mode in force, and writes RSP alone. -/
def Obligations.GetmodeFollowsItsRule : Prop :=
  ∀ s : State,
    (s.constructed = true →
      exec .getmode s = .next { s with rsp := BitVec.ofNat 32 (if s.pendingValid then s.pmode else s.mode).toNat }) ∧
    (s.constructed = false → exec .getmode s = .next { s with rsp := 0x30000000#32 })

/-- R69, R123: GETMODE after SETMODE answers the mode requested, in mid-block too, an unrecognised code as AM. -/
def Obligations.GetmodeAnswersTheModeRequested : Prop :=
  ∀ (c : ModeCode) (s : State), s.constructed = true →
    ∃ t u, exec (.setmode c) s = .next t ∧ exec .getmode t = .next u ∧
      u.rsp.toNat = (if c.toNat ≤ 11 then c.toNat else 0)

/-- R124 with the register map of R18 and of the control registers: what RDSTATE answers at each of its 22 indices, that
it writes RSP and RSPD alone, and what it answers in a block that is not constructed. -/
def Obligations.RdstateFollowsItsRule : Prop :=
  ∀ s : State,
    (s.constructed = true →
      ∀ p ∈ [(0#5, s.phase), (1#5, s.frequency), (2#5, s.alpha), (3#5, s.beta), (4#5, s.loLimit), (5#5, s.hiLimit),
        (6#5, s.amDc), (7#5, s.amSmooth), (8#5, s.samDc), (9#5, s.lockCurrent), (10#5, s.lockPrevious), (11#5, s.afc),
        (12#5, s.prevRe), (13#5, s.prevIm), (14#5, 0#64), (15#5, 0#64), (16#5, BitVec.ofNat 64 s.sr.toNat),
        (17#5, BitVec.ofNat 64 s.bs.toNat), (18#5, BitVec.ofNat 64 s.mode.toNat), (19#5, BitVec.ofNat 64 s.pmode.toNat),
        (20#5, BitVec.ofNat 64 ((if s.constructed then 1 else 0) + (if s.pendingValid then 2 else 0) +
          (if s.prevValid then 4 else 0))), (21#5, BitVec.ofNat 64 s.idx.toNat)],
        exec (.rdstate p.1) s = .next { s with rspd := p.2, rsp := 0#32 }) ∧
    (s.constructed = false → ∀ r : BitVec 5, r.toNat ≤ 21 → exec (.rdstate r) s = .next { s with rsp := 0x30000000#32 })

/-- R141: the three commands that need a constructed block, in one that is not. -/
def Obligations.NotConstructedAnswersAndChangesNothing : Prop :=
  ∀ (i : Instr) (s : State), s.constructed = false →
    ((∃ c, i = .setmode c) ∨ i = .getmode ∨ ∃ r, i = .rdstate r ∧ i.wellFormed = true) →
    exec i s = .next { s with rsp := 0x30000000#32 }

/-- R125, R40: what ApplyMode writes depends on its argument, SR and `MODE_CFG` alone: after two of them the state is
that after the second, and two states that agree on everything ApplyMode does not write, and differ in any way in MODE,
in any of `S[0]` to `S[13]` and in `prevValid`, end the same. -/
def Obligations.ApplyModeForgetsWhatItWrites : Prop :=
  (∀ (a c : ModeCode) (s : State), (s.applyMode a).applyMode c = s.applyMode c) ∧
  (∀ (c : ModeCode) (s t : State), s.sr = t.sr → s.bs = t.bs → s.pmode = t.pmode → s.constructed = t.constructed →
    s.pendingValid = t.pendingValid → s.idx = t.idx → s.rsp = t.rsp → s.rspd = t.rspd → s.ctrlIn = t.ctrlIn →
    s.dataIn = t.dataIn → s.dataOut = t.dataOut → s.resetIn = t.resetIn → s.freeCount = t.freeCount →
    s.hostMem = t.hostMem → s.applyMode c = t.applyMode c)

/-- R126: no instruction but INIT changes the sample rate or the block size. -/
def Obligations.OnlyInitChangesTheRates : Prop :=
  ∀ (i : Instr) (s t : State), exec i s = .next t →
    (t.sr = s.sr ∧ t.bs = s.bs) ∨ ∃ rate size, i = .init rate size

/-- R116: MODE changes only by INIT, by a SETMODE at a block boundary, or by the last sample step of a block with a mode
pending, which puts the pending mode in force. -/
def Obligations.OnlyModeRequestsChangeTheMode : Prop :=
  ∀ (i : Instr) (s t : State), exec i s = .next t →
    t.mode = s.mode ∨ (∃ rate size, i = .init rate size) ∨
    (∃ c, i = .setmode c ∧ s.constructed = true ∧ s.idx = 0#32 ∧ t.mode = canonMode c) ∨
    (s.constructed = true ∧ s.pendingValid = true ∧ s.idx.toNat + 1 = s.bs.toNat ∧ t.mode = s.pmode ∧
      t.pendingValid = false ∧ t.idx = 0#32)

/-- R120, R121 on the default table of R41: at every legal sample rate the coefficients and limits are ordered as R24
says and keep to the bounds the wrap ends under. The default limit factors are the spec's own guess (D18): the statement
is about the functions and not about this block's `MODE_CFG`. -/
def Obligations.DefaultCoefficientsAreBounded : Prop :=
  ∀ (rate : BitVec 32) (m : ModeCode), 0 < rate.toInt →
    let row := defaultModeCfg m
    (fle posZero (loopAlpha row.bandwidthHz rate) = true ∧
      fle (loopAlpha row.bandwidthHz rate) 0x40D0000000000000#64 = true) ∧
    (fle posZero (loopBeta (loopAlpha row.bandwidthHz rate)) = true ∧
      fle (loopBeta (loopAlpha row.bandwidthHz rate)) 0x4190000000000000#64 = true) ∧
    (fle (fneg 0x40F0000000000000#64) (captureLimit row.loLimitFactor rate) = true ∧
      fle (captureLimit row.loLimitFactor rate) posZero = true) ∧
    (fle posZero (captureLimit row.hiLimitFactor rate) = true ∧
      fle (captureLimit row.hiLimitFactor rate) 0x40F0000000000000#64 = true)

/-! ## The sample steps -/

/-- R111: the end of a sample step. The statements about sample steps below apply it to the state with the mode's
registers written and the output beat emitted. -/
def Obligations.AdvanceFollowsItsRule : Prop :=
  ∀ s : State,
    (s.idx.toNat + 1 ≠ s.bs.toNat → advance s = { s with idx := s.idx + 1#32 }) ∧
    (s.idx.toNat + 1 = s.bs.toNat → s.pendingValid = false → advance s = { s with idx := 0#32 }) ∧
    (s.idx.toNat + 1 = s.bs.toNat → s.pendingValid = true →
      advance s = { s with idx := 0#32, pendingValid := false }.applyMode s.pmode)

/-- R103 to R110: the eight pass-through steps copy the input beat bit for bit and write no register but by the advance. -/
def Obligations.PassThroughCopiesTheBeat : Prop :=
  ∀ (b : Beat) (s : State), s.constructed = true →
    ∀ i ∈ [Instr.sampleDsb b, .sampleLsb b, .sampleUsb b, .sampleCwl b, .sampleCwu b, .sampleDigl b, .sampleDigu b,
      .sampleNone b],
      exec i s = .next (advance { s with dataOut := s.dataOut ++ [b] })

/-- R127: SAMPLE.AM. -/
def Obligations.AmStepFollowsItsRule : Prop :=
  ∀ (b : Beat) (s : State), s.constructed = true →
    let re : F64 := b.extractLsb' 0 64
    let im : F64 := b.extractLsb' 64 64
    let current := fsqrt (fadd (fmul re re) (fmul im im))
    let dc := fadd (fmul c0_9999 s.amDc) (fmul c0_0001 current)
    let smooth := fadd (fmul c0_5 s.amSmooth) (fmul c0_5 (fsub current dc))
    let y := fmul smooth c0_5
    exec (.sampleAm b) s =
      .next (advance { s with amDc := dc, amSmooth := smooth, dataOut := s.dataOut ++ [y ++ y] })

/-- R130 with R91, R92, R95, R96: SAMPLE.SAM, where the wrap ends on `p`; and the hang where it does not end. -/
def Obligations.SamStepFollowsItsRule : Prop :=
  ∀ (b : Beat) (s : State), s.constructed = true →
    let x : ComplexSample := ⟨b.extractLsb' 0 64, b.extractLsb' 64 64⟩
    let rotated := cmul ⟨numCos s.phase, numSin s.phase⟩ x
    let difference := fmul (mag x) (numAtan2 rotated.im rotated.re)
    let f1 := fadd s.frequency (fmul s.beta difference)
    let f2 := if flt f1 s.loLimit then s.loLimit else f1
    let f3 := if flt s.hiLimit f2 then s.hiLimit else f2
    let p1 := fadd s.phase (fadd f3 (fmul s.alpha difference))
    let lock := Config.lockUpdate s.lockCurrent s.lockPrevious (fabs rotated.im)
    let dc := fadd (fmul c0_9999 s.samDc) (fmul c0_0001 rotated.re)
    let y := fmul (fsub rotated.re dc) c0_5
    (∀ p, wrap p1 = some p →
      exec (.sampleSam b) s = .next (advance
        { s with
          frequency := f3, phase := p, lockCurrent := lock.1, lockPrevious := lock.2, samDc := dc
          dataOut := s.dataOut ++ [y ++ y] })) ∧
    (wrap p1 = none → exec (.sampleSam b) s = .fault .wrapHang)

/-- R133, R134 with R135, R137, R138: SAMPLE.FMN and SAMPLE.FMW, under either setting of the strap; the loop is run, and
can hang, only under `FM_LOOP = true`. -/
def Obligations.FmStepsFollowTheirRule : Prop :=
  ∀ (b : Beat) (s : State), s.constructed = true →
    let x : ComplexSample := ⟨b.extractLsb' 0 64, b.extractLsb' 64 64⟩
    let rotated := cmul ⟨numCos s.phase, numSin s.phase⟩ x
    let difference := numAtan2 rotated.im rotated.re
    let f1 := fadd s.frequency (fmul s.beta difference)
    let f2 := if flt f1 s.loLimit then s.loLimit else f1
    let f3 := if flt s.hiLimit f2 then s.hiLimit else f2
    let p1 := fadd s.phase (fadd f3 (fmul s.alpha difference))
    let product := cmul x ⟨s.prevRe, fneg s.prevIm⟩
    let y := if s.prevValid then fdiv (numAtan2 product.im product.re) c100 else posZero
    let finish := fun t : State =>
      advance { t with prevRe := x.re, prevIm := x.im, prevValid := true, dataOut := s.dataOut ++ [y ++ y] }
    ∀ i ∈ [Instr.sampleFmn b, .sampleFmw b],
      (∀ p, wrap p1 = some p →
        exec i s = .next (finish (if Config.fmLoop then
          { s with frequency := f3, phase := p, afc := Config.afcUpdate s.afc f3 } else s))) ∧
      (wrap p1 = none → exec i s = if Config.fmLoop then .fault .wrapHang else .next (finish s))

/-- R134: SAMPLE.FMW does exactly what SAMPLE.FMN does. -/
def Obligations.FmwIsFmn : Prop := ∀ (b : Beat) (s : State), exec (.sampleFmw b) s = exec (.sampleFmn b) s

/-- R10, R135: under either setting of the strap an FM step gives the same output beat, where it completes. -/
def Obligations.FmAudioDoesNotDependOnTheLoop : Prop :=
  ∀ (b o : Beat) (s t : State), demodFmWith true b s = some (o, t) →
    ∃ u, demodFmWith false b s = some (o, u) ∧ u.prevRe = t.prevRe ∧ u.prevIm = t.prevIm ∧ u.prevValid = t.prevValid ∧
      u = { s with prevRe := t.prevRe, prevIm := t.prevIm, prevValid := true }

/-- R138, R171: an FM output without a predecessor is `+0.0` in both lanes, whatever the input; and in every
state there is no predecessor right after an ApplyMode. -/
def Obligations.FirstFmOutputIsSilence : Prop :=
  (∀ (b : Beat) (s t : State), s.constructed = true → s.prevValid = false →
    ∀ i ∈ [Instr.sampleFmn b, .sampleFmw b], exec i s = .next t → t.dataOut = s.dataOut ++ [0#128]) ∧
  (∀ (m : ModeCode) (s : State), (s.applyMode m).prevValid = false)

/-- R133, corner cases "Repeated sample" and "All-zero input": inside the default contract the discriminator of a sample
and itself is `+0.0`. -/
def Obligations.RepeatedFmSampleIsSilence : Prop :=
  ∀ x : ComplexSample, laneInContract defaultInMax x.re = true → laneInContract defaultInMax x.im = true →
    disc x x = posZero

/-- R137: the discriminator lies in `[-PI/100, PI/100]` wherever its product is no NaN. -/
def Obligations.FmOutputIsBounded : Prop :=
  ∀ x p : ComplexSample, fisNaN (cmul x (conj p)).re = false → fisNaN (cmul x (conj p)).im = false →
    fle (fabs (disc x p)) (fdiv piConst c100) = true

/-- R165 for mode AM: inside the default contract a bounded AM state stays bounded, with no NaN and no infinity, and so
does the output. -/
def Obligations.AmStaysBounded : Prop :=
  ∀ (b : Beat) (s : State), s.constructed = true → inContract defaultInMax b = true →
    fle posZero s.amDc = true → fle s.amDc c4 = true → fle (fabs s.amSmooth) c4 = true →
    ∃ t o, exec (.sampleAm b) s = .next t ∧ t.dataOut = s.dataOut ++ [o] ∧
      fle posZero t.amDc = true ∧ fle t.amDc c4 = true ∧ fle (fabs t.amSmooth) c4 = true ∧
      laneInContract c2 (unpackBeat o).re = true ∧ laneInContract c2 (unpackBeat o).im = true

/-- R127, corner case: `current` is never negative, so `amDc` never becomes negative, for any input without a NaN. -/
def Obligations.AmDcNeverNegative : Prop :=
  ∀ (b : Beat) (s t : State), fisNaN (unpackBeat b).re = false → fisNaN (unpackBeat b).im = false →
    fle posZero s.amDc = true → exec (.sampleAm b) s = .next t → fle posZero t.amDc = true

/-- R113: every accepted beat gives exactly one output beat: the input in the eight pass-through modes, one value in both
lanes in the other four. -/
def Obligations.OneOutputBeatForEachInputBeat : Prop :=
  ∀ (m : ModeCode) (b : Beat) (s t : State), s.constructed = true → exec (decodeBeat m b) s = .next t →
    ∃ o : Beat, t.dataOut = s.dataOut ++ [o] ∧
      (4 ≤ m.toNat → o = b) ∧ (m.toNat < 4 → o.extractLsb' 0 64 = o.extractLsb' 64 64)

/-- R115: which registers a sample step writes is fixed by its mode, apart from the advance. -/
def Obligations.ModeFixesTheRegistersWritten : Prop :=
  ∀ (m : ModeCode) (b : Beat) (s t : State), s.constructed = true → exec (decodeBeat m b) s = .next t →
    ∃ (o : Beat) (u v w x y : F64) (l : F64 × F64), t = advance (State.emit
      (if m.toNat = 0 then s.setAm u v
       else if m.toNat = 1 then ((s.setLoop u v).setLock l).setSamDc w
       else if m.toNat ≤ 3 then
         (if Config.fmLoop then ((s.setLoop u v).setAfc w).setPrev ⟨x, y⟩ else s.setPrev ⟨x, y⟩)
       else s) o)

/-- R101: while the block is not constructed a beat waits, by itself and in a step, whatever the mode. -/
def Obligations.BeatsWaitUntilConstructed : Prop :=
  ∀ (b : Beat) (beats : List Beat) (s : State), s.constructed = false →
    (∀ m : ModeCode, exec (decodeBeat m b) s = .next s) ∧
    (s.resetIn = false → s.ctrlIn = [] → s.dataIn = b :: beats → step s = .next s)

/-! ## Track -/

/-- R93 with R91, R92, R95, R96: TRACK.SAM. That it runs alone, in every state, with `demix` as what it returns, is the
model's choice (assumption 21), and the hang's fault is the model's name for R155's stuck state (assumption 15). -/
def Obligations.TrackSamFollowsItsRule : Prop :=
  ∀ (b : Beat) (s : State),
    let x : ComplexSample := ⟨b.extractLsb' 0 64, b.extractLsb' 64 64⟩
    let z : ComplexSample := ⟨numCos s.phase, numSin s.phase⟩
    let rotated : ComplexSample :=
      ⟨fsub (fmul z.re x.re) (fmul z.im x.im), fadd (fmul z.re x.im) (fmul z.im x.re)⟩
    let difference := fmul (fsqrt (fadd (fmul x.re x.re) (fmul x.im x.im))) (numAtan2 rotated.im rotated.re)
    let f1 := fadd s.frequency (fmul s.beta difference)
    let f2 := if flt f1 s.loLimit then s.loLimit else f1
    let f3 := if flt s.hiLimit f2 then s.hiLimit else f2
    let p1 := fadd s.phase (fadd f3 (fmul s.alpha difference))
    demix s x = rotated ∧
    (∀ p, wrap p1 = some p → exec (.trackSam b) s = .next { s with frequency := f3, phase := p }) ∧
    (wrap p1 = none → exec (.trackSam b) s = .fault .wrapHang)

/-- R94: TRACK.FM, without the weight of the magnitude. Run alone, in every state, it is the model's choice (assumption
21), and the hang's fault is the model's name for R155's stuck state (assumption 15). -/
def Obligations.TrackFmFollowsItsRule : Prop :=
  ∀ (b : Beat) (s : State),
    let x : ComplexSample := ⟨b.extractLsb' 0 64, b.extractLsb' 64 64⟩
    let z : ComplexSample := ⟨numCos s.phase, numSin s.phase⟩
    let rotated : ComplexSample :=
      ⟨fsub (fmul z.re x.re) (fmul z.im x.im), fadd (fmul z.re x.im) (fmul z.im x.re)⟩
    let difference := numAtan2 rotated.im rotated.re
    let f1 := fadd s.frequency (fmul s.beta difference)
    let f2 := if flt f1 s.loLimit then s.loLimit else f1
    let f3 := if flt s.hiLimit f2 then s.hiLimit else f2
    let p1 := fadd s.phase (fadd f3 (fmul s.alpha difference))
    demix s x = rotated ∧
    (∀ p, wrap p1 = some p → exec (.trackFm b) s = .next { s with frequency := f3, phase := p }) ∧
    (wrap p1 = none → exec (.trackFm b) s = .fault .wrapHang)

/-- R97: the wrap answers exactly what the nested loops of the rule return, and no result where they never end. -/
def Obligations.WrapIsTheLoopsOfItsRule : Prop :=
  ∀ p r : F64, wrap p = some r ↔ WrapEnds p r

/-- R97, R170: the wrap ends exactly on the finite values of magnitude at most 2^56, and hangs on NaN, on the infinities
and on every greater magnitude. -/
def Obligations.WrapEndsUpToTwoToThe56 : Prop :=
  ∀ p : F64, (wrap p).isSome = true ↔ (fisFinite p = true ∧ fle (fabs p) 0x4370000000000000#64 = true)

/-- R99: what Track preserves. No premise on the input is needed: where a NaN or an infinity would break the ranges the
wrap hangs and there is no next state. -/
def Obligations.TrackPreservesTheRanges : Prop :=
  ∀ (i : Instr) (b : Beat) (s t : State), i = .trackSam b ∨ i = .trackFm b → fle s.loLimit s.hiLimit = true →
    exec i s = .next t →
    frequencyInRange t = true ∧ phaseInRange t = true ∧ t.alpha = s.alpha ∧ t.beta = s.beta ∧
    t.loLimit = s.loLimit ∧ t.hiLimit = s.hiLimit

/-- R97, R165: inside the default contract, with the loop registers bounded as the default `MODE_CFG` bounds them, every
step that runs Track ends. -/
def Obligations.TrackEndsInsideTheContract : Prop :=
  ∀ (b : Beat) (s : State), s.constructed = true → LoopBounded s → inContract defaultInMax b = true →
    ∀ i ∈ [Instr.trackSam b, .trackFm b, .sampleSam b, .sampleFmn b, .sampleFmw b], ∃ t, exec i s = .next t

/-! ## Numerics -/

/-- R74: rounding is to the nearest binary64 magnitude, ties to even, infinity from half way beyond the largest on. -/
def Obligations.RoundingIsToNearestEven : Prop :=
  ∀ num den : Nat, 0 < den → CorrectlyRounded num den (roundUnits num den)

/-- R74: on finite operands `+`, `-`, `*` and `/` are the exact result rounded once, signs and zeros as IEEE 754 has
them. -/
def Obligations.ArithmeticIsOneRounding : Prop :=
  ∀ x y : F64, fisFinite x = true → fisFinite y = true →
    (fsignedUnits x + fsignedUnits y ≠ 0 → ∃ m, CorrectlyRounded (fsignedUnits x + fsignedUnits y).natAbs 1 m ∧
      fadd x y = fpack (decide (fsignedUnits x + fsignedUnits y < 0)) m) ∧
    (fsignedUnits x + fsignedUnits y = 0 → fadd x y = if fsign x && fsign y then negZero else posZero) ∧
    fsub x y = fadd x (fneg y) ∧
    (∃ m, CorrectlyRounded (funits x * funits y) (2 ^ 1074) m ∧ fmul x y = fpack (fsign x != fsign y) m) ∧
    (fisZero y = false → ∃ m, CorrectlyRounded (funits x * 2 ^ 1074) (funits y) m ∧
      fdiv x y = fpack (fsign x != fsign y) m)

/-- R74: the square root of a finite positive value is finite and no other finite magnitude is nearer to the root of its
units. -/
def Obligations.SquareRootIsNearest : Prop :=
  ∀ x : F64, fisFinite x = true → fsign x = false → fisZero x = false →
    ∃ m, m < infBits ∧ fsqrt x = fpack false m ∧ ∀ k, k < infBits →
      (k < m → (magnitudeUnits k + magnitudeUnits m) ^ 2 ≤ 4 * (funits x * 2 ^ 1074)) ∧
      (m < k → 4 * (funits x * 2 ^ 1074) ≤ (magnitudeUnits k + magnitudeUnits m) ^ 2)

/-- R79, R80: `cmul` commutes, and the product with a conjugate is the expression written out, bit for bit, on all
operands that are no NaN, infinities included, and also where a lane of the result is a NaN. -/
def Obligations.ComplexProductLaws : Prop :=
  ∀ s t : ComplexSample, fisNaN s.re = false → fisNaN s.im = false → fisNaN t.re = false → fisNaN t.im = false →
    cmul t s = cmul s t ∧
    cmul s (conj t) =
      ⟨fadd (fmul s.re t.re) (fmul s.im t.im), fsub (fmul s.im t.re) (fmul s.re t.im)⟩

/-- R81: `mag` of numbers is a number that is not negative, and `+0.0` on the four zeros. -/
def Obligations.MagnitudeIsNotNegative : Prop :=
  (∀ s : ComplexSample, fisNaN s.re = false → fisNaN s.im = false → fle posZero (mag s) = true) ∧
  (∀ s : ComplexSample, fisZero s.re = true → fisZero s.im = true → mag s = posZero)

/-- R87: the conversion of a signed 32-bit integer never rounds. -/
def Obligations.IntegerConversionIsExact : Prop :=
  ∀ n : BitVec 32, fisFinite (fofInt32 n) = true ∧ fsignedUnits (fofInt32 n) = n.toInt * 2 ^ 1074

/-! ## The machine -/

/-- R54, R67, R101: a step is `exec` of the instruction that the granted request decodes to, on the state with that request
taken off its port; a request that stands alone is the one granted, and of two either may be (the choice is free). -/
def Obligations.StepRunsTheDecodedInstruction : Prop :=
  (∀ (s : State) (i : Instr) (rest : List CmdWord), s.resetIn = false → decodeCommand s.ctrlIn = .command i rest →
    grantedAgent s = some .control → step s = exec i ((arbitrated s).withCtrlIn rest)) ∧
  (∀ (s : State) (b : Beat) (rest : List Beat), s.resetIn = false → s.dataIn = b :: rest →
    grantedAgent s = some .data → step s = exec (decodeBeat s.mode b) ((arbitrated s).withDataIn rest)) ∧
  (∀ s : State,
    (commandReady s = true → beatReady s = false → grantedAgent s = some .control ∧ arbitrated s = s) ∧
    (commandReady s = false → beatReady s = true → grantedAgent s = some .data ∧ arbitrated s = s) ∧
    (commandReady s = true → beatReady s = true → (grantedAgent s).isSome = true))

/-- R154: with no request the state does not change. -/
def Obligations.NoRequestNoChange : Prop :=
  ∀ s : State, s.resetIn = false → commandReady s = false → beatReady s = false → step s = .next s

/-- R158, R159: the reset input acts before any request and in every state, also one whose next step is the hang; the
request whose step it cuts is gone from its port without a response or an output beat, and so are the words of a command
that is not whole. What it leaves unspecified is not stated. That the request the next step would take is the one under
way, and that every other request still stands, is the model's choice (assumption 14). -/
def Obligations.ResetInputClearsTheFlags : Prop :=
  ∀ s : State, s.resetIn = true →
    ∃ t, step s = .next t ∧ t.constructed = false ∧ t.pendingValid = false ∧ t.prevValid = false ∧ t.idx = 0#32 ∧
      t.rsp = 0#32 ∧ t.rspd = 0#64 ∧ t.dataOut = s.dataOut ∧ t.hostMem = s.hostMem ∧
      (grantedAgent s = some .control → t.dataIn = s.dataIn ∧
        (∀ (i : Instr) (rest : List CmdWord), decodeCommand s.ctrlIn = .command i rest → t.ctrlIn = rest) ∧
        (∀ (e : DecodeError) (rest : List CmdWord), decodeCommand s.ctrlIn = .illegal e rest → t.ctrlIn = rest)) ∧
      (grantedAgent s = some .data → t.dataIn = s.dataIn.tail ∧ (commandReady s = true → t.ctrlIn = s.ctrlIn)) ∧
      (grantedAgent s = none → t.dataIn = s.dataIn) ∧
      (commandReady s = false → t.ctrlIn = [])

/-- R158: the values the spec gives for power-on reset, and that the state after it is legal. -/
def Obligations.ResetStateIsLegal : Prop :=
  State.reset.constructed = false ∧ State.reset.pendingValid = false ∧ State.reset.prevValid = false ∧
  State.reset.idx = 0#32 ∧ State.reset.rsp = 0#32 ∧ State.reset.rspd = 0#64 ∧ Legal State.reset

/-- R33, R34, R35, R38, R39, R40, R62: every step keeps the legal states legal: MODE a mode, IDX inside the block, the loop
coefficients derived and never set otherwise, phase and frequency in their ranges, RSP in its format, the memory in its
canonical form. No premise on the input is needed (a step that would break a range hangs). -/
def Obligations.EveryStepKeepsLegality : Prop :=
  ∀ s t : State, Legal s → step s = .next t → Legal t

/-- R40, R119: no accumulator holds anything but its ApplyMode value outside its own mode, after every step of a
constructed block. -/
def Obligations.NoStateLeaksAcrossAModeSwitch : Prop :=
  ∀ s t : State, Legal s → (s.constructed = true → NoStaleState s) → step s = .next t → t.constructed = true →
    NoStaleState t

/-- R158, U3: while the block is not constructed nothing shows the unspecified registers: two states that differ in them
alone step alike, and a successful INIT makes them equal. -/
def Obligations.UnspecifiedRegistersAreUnobservable : Prop :=
  ∀ s t s' : State, s.constructed = false → AgreeButUnspecified s t → step s = .next s' →
    ∃ t', step t = .next t' ∧ (s' = t' ∨ (s'.constructed = false ∧ AgreeButUnspecified s' t'))

/-- R114, R139, R155: a step has no outcome but a next state and the hang, and the hang needs a constructed block in a mode
that runs Track. -/
def Obligations.OnlyTheWrapHangStops : Prop :=
  ∀ s : State, (∃ t, step s = .next t) ∨
    (step s = .fault .wrapHang ∧ s.resetIn = false ∧ s.constructed = true ∧
      (s.mode = 1#4 ∨ (Config.fmLoop = true ∧ (s.mode = 2#4 ∨ s.mode = 3#4))))

/-- R45, R50: no instruction and no step reads or writes the host's memory or takes a request off a port it was not given:
`exec` leaves every byte and both input ports as they were, a step leaves every byte, and neither's outcome on the rest of
the state depends on what the memory holds. -/
def Obligations.TheBlockMakesNoAddressedAccess : Prop :=
  (∀ (i : Instr) (s t : State), exec i s = .next t →
    (∀ a, t.hostMem.read a = s.hostMem.read a) ∧ t.hostMem = s.hostMem ∧ t.ctrlIn = s.ctrlIn ∧ t.dataIn = s.dataIn ∧
      t.resetIn = s.resetIn) ∧
  (∀ (i : Instr) (s t : State) (m : Memory), exec i s = .next t → exec i (s.withHostMem m) = .next (t.withHostMem m)) ∧
  (∀ s t : State, step s = .next t → t.hostMem = s.hostMem) ∧
  (∀ (s t : State) (m : Memory), step s = .next t → step (s.withHostMem m) = .next (t.withHostMem m))

/-! ## The host's memory, PROCESSBLOCK, names -/

/-- R47: a beat written to the host's memory is read back, no byte outside its sixteen changes, the byte at the lowest
address holds bits 7 to 0, and the memory stays canonical. -/
def Obligations.SampleMemoryHoldsBeats : Prop :=
  ∀ (m : Memory) (a : Nat) (b : Beat), m.wf = true →
    memReadBeat (memWriteBeat m a b) a = b ∧ (memWriteBeat m a b).wf = true ∧
    (∀ c, c < a ∨ a + 16 ≤ c → (memWriteBeat m a b).read c = m.read c) ∧
    (∀ k, k < 16 → (memWriteBeat m a b).read (a + k) = b.extractLsb' (8 * k) 8)

/-- R49, R112, U13: PROCESSBLOCK is refused at a misaligned base, while not constructed and in mid-block. -/
def Obligations.ProcessBlockIsRefusedByName : Prop :=
  ∀ (a d : Nat) (s : State),
    (a % 16 ≠ 0 ∨ d % 16 ≠ 0 → processBlock a d s = .refused .processBlockMisaligned) ∧
    (a % 16 = 0 → d % 16 = 0 → s.constructed = false → processBlock a d s = .refused .processBlockNotConstructed) ∧
    (a % 16 = 0 → d % 16 = 0 → s.constructed = true → s.idx ≠ 0#32 →
      processBlock a d s = .refused .processBlockInsideBlock)

/-- R112, and the document's "Pass-through modes are identity": PROCESSBLOCK in place in a pass-through mode leaves the
whole state as it was, the memory included. That no other step stands between its samples and that its output beats are
taken off the port is the model's choice (assumption 19). -/
def Obligations.PassThroughBlockIsIdentity : Prop :=
  ∀ (a : Nat) (s : State), s.constructed = true → s.idx = 0#32 → s.pendingValid = false → 0 < s.bs.toNat →
    4 ≤ s.mode.toNat → a % 16 = 0 → s.hostMem.wf = true → processBlock a a s = .next s

/-- R50, R112: in place and into a separate output block, PROCESSBLOCK gives the same output beats and the same state of
the block. That PROCESSBLOCK is one run with no other step in it is the model's choice (assumption 19). -/
def Obligations.InPlaceBlockEqualsSeparateBlock : Prop :=
  ∀ (a d : Nat) (s t u : State), s.hostMem.wf = true → a + 16 * s.bs.toNat ≤ d ∨ d + 16 * s.bs.toNat ≤ a →
    processBlock a a s = .next t → processBlock a d s = .next u →
    t.withHostMem [] = u.withHostMem [] ∧
    ∀ k, k < s.bs.toNat → memReadBeat t.hostMem (a + 16 * k) = memReadBeat u.hostMem (d + 16 * k)

/-- R72: the name of each mode code, none for 12 to 15; a name gives its code back, and any other string is AM. -/
def Obligations.ModeNamesRoundTrip : Prop :=
  let names := ["AM", "SAM", "FMN", "FMW", "DSB", "LSB", "USB", "CWL", "CWU", "DIGL", "DIGU", "NONE"]
  (∀ c : ModeCode, modeToName c = names[c.toNat]?) ∧
  (∀ (c : ModeCode) (name : String), modeToName c = some name → nameToMode name = c) ∧
  (∀ name : String, name ∉ names → nameToMode name = 0#4)
end

