-- ==== Sys2Proof/Laws/Float.lean ====
section
/-! SUPPORT. The parts of a packed binary64 value, what unary minus and a NaN operand do, and the sign of a product. -/

namespace Sys2Proof.Machine

/-- Rounding answers a magnitude pattern. -/
theorem roundUnits_le (num den : Nat) : roundUnits num den ≤ infBits := by
  unfold roundUnits
  exact Nat.min_le_left _ _

theorem roundUnits_zero (den : Nat) : roundUnits 0 den = 0 := by
  unfold roundUnits
  simp [roundShift, divNearestEven]

theorem toNat_fpack {neg : Bool} {m : Nat} (h : m ≤ infBits) :
    (fpack neg m).toNat = if neg then 2 ^ 63 + m else m := by
  unfold fpack infBits at *
  rw [BitVec.toNat_ofNat]
  cases neg <;> simp <;> omega

theorem fmagBits_fpack {neg : Bool} {m : Nat} (h : m ≤ infBits) : fmagBits (fpack neg m) = m := by
  unfold fmagBits
  rw [toNat_fpack h]
  unfold infBits at h
  cases neg <;> simp <;> omega

theorem fsign_fpack {neg : Bool} {m : Nat} (h : m ≤ infBits) : fsign (fpack neg m) = neg := by
  unfold fsign
  rw [toNat_fpack h]
  unfold infBits at h
  cases neg <;> simp; omega

theorem fisNaN_fpack {neg : Bool} {m : Nat} (h : m ≤ infBits) : fisNaN (fpack neg m) = false := by
  unfold fisNaN
  rw [fmagBits_fpack h]
  simpa using h

/-- A finite value is neither a NaN nor an infinity. -/
theorem fisFinite_not {x : F64} (h : fisFinite x = true) : fisNaN x = false ∧ fisInf x = false := by
  simp only [fisFinite, fisNaN, fisInf, decide_eq_true_eq, decide_eq_false_iff_not] at *
  omega

/-! ## Unary minus -/

theorem toNat_fneg (x : F64) : (fneg x).toNat = (if fsign x then 0 else 2 ^ 63) + fmagBits x := by
  have hlt := x.isLt
  have hr : fmagBits x < 2 ^ 63 := Nat.mod_lt _ (by decide)
  have hx : x.toNat = (if fsign x then 2 ^ 63 else 0) + fmagBits x := by
    unfold fsign fmagBits
    split <;> simp_all <;> omega
  have key : ∀ m, m < 2 ^ 63 → (2 ^ 63 + m) ^^^ 2 ^ 63 = m := by
    intro m hm
    have h := Nat.two_pow_add_eq_or_of_lt hm 1
    rw [Nat.mul_one] at h
    rw [h]
    apply Nat.eq_of_testBit_eq
    intro j
    by_cases hj : j = 63
    · subst hj
      simp [Nat.testBit_lt_two_pow hm]
    · rw [Nat.testBit_xor, Nat.testBit_or, Nat.testBit_two_pow_of_ne (Ne.symm hj)]
      simp
  have h2 : (0x8000000000000000#64).toNat = 2 ^ 63 := rfl
  rw [fneg, BitVec.toNat_xor, h2, hx]
  cases fsign x
  · have := key _ hr
    simp only [Bool.false_eq_true, if_false, Nat.zero_add]
    conv_lhs => rw [← this]
    rw [Nat.xor_assoc, Nat.xor_self, Nat.xor_zero]
  · simpa using key _ hr

@[simp] theorem fmagBits_fneg (x : F64) : fmagBits (fneg x) = fmagBits x := by
  have hr : fmagBits x < 2 ^ 63 := Nat.mod_lt _ (by decide)
  rw [fmagBits, toNat_fneg]
  cases fsign x <;> simp <;> omega

@[simp] theorem fsign_fneg (x : F64) : fsign (fneg x) = !fsign x := by
  have hr : fmagBits x < 2 ^ 63 := Nat.mod_lt _ (by decide)
  rw [fsign, toNat_fneg]
  cases fsign x <;> simp; omega

@[simp] theorem fneg_fneg (x : F64) : fneg (fneg x) = x := by simp [fneg]

@[simp] theorem fisNaN_fneg (x : F64) : fisNaN (fneg x) = fisNaN x := by simp [fisNaN]

/-! ## NaN -/

@[simp] theorem fisNaN_fquiet (x : F64) : fisNaN (fquiet x) = true := by
  have h : 0x7FF8000000000000 ≤ fmagBits (fquiet x) := by
    rw [fmagBits, fquiet, BitVec.toNat_or, Nat.or_mod_two_pow]
    exact Nat.right_le_or
  exact decide_eq_true (lt_of_lt_of_le (by decide) h)

@[simp] theorem fisNaN_fnan (op : FOp) (x y : F64) : fisNaN (fnan op x y) = true := by
  unfold fnan defaultNaN
  split <;> simp

/-- Where no operand brings a NaN of its own, the NaN answered is the one of an invalid operation. -/
theorem fnan_of_ordinary (op : FOp) {x y : F64} (hx : fordinary x = true) (hy : fordinary y = true) :
    fnan op x y = defaultNaN := by
  simp [fnan, hx, hy]

/-- A NaN operand of `+`, `-` or `*` comes through. -/
theorem fadd_nan {x y : F64} (h : fisNaN x = true ∨ fisNaN y = true) : fisNaN (fadd x y) = true := by
  unfold fadd
  rw [if_pos (by simpa using h)]
  simp

theorem fsub_nan {x y : F64} (h : fisNaN x = true ∨ fisNaN y = true) : fisNaN (fsub x y) = true := by
  unfold fsub
  rw [if_pos (by simpa using h)]
  simp

theorem fmul_nan {x y : F64} (h : fisNaN x = true ∨ fisNaN y = true) : fisNaN (fmul x y) = true := by
  unfold fmul
  rw [if_pos (by simpa using h)]
  simp

/-- A NaN in either lane of the second factor is in both lanes of a product. -/
theorem cmul_nan (s : ComplexSample) {t : ComplexSample} (h : fisNaN t.re = true ∨ fisNaN t.im = true) :
    fisNaN (cmul s t).re = true ∧ fisNaN (cmul s t).im = true := by
  rcases h with h | h
  · exact ⟨fsub_nan (.inl (fmul_nan (.inr h))), fadd_nan (.inr (fmul_nan (.inr h)))⟩
  · exact ⟨fsub_nan (.inr (fmul_nan (.inr h))), fadd_nan (.inl (fmul_nan (.inr h)))⟩

/-- No comparison holds of a NaN. -/
theorem flt_nan {x y : F64} (h : fisNaN x = true ∨ fisNaN y = true) : flt x y = false := by
  rcases h with h | h <;> simp [flt, h]

theorem fle_nan {x y : F64} (h : fisNaN x = true ∨ fisNaN y = true) : fle x y = false := by
  rcases h with h | h <;> simp [fle, h]

/-! ## Finite values -/

/-- A product of finite values. -/
theorem fmul_of_finite {x y : F64} (hx : fisFinite x = true) (hy : fisFinite y = true) :
    fmul x y = fpack (fsign x != fsign y) (roundUnits (funits x * funits y) (2 ^ 1074)) := by
  unfold fmul
  simp [fisFinite_not hx, fisFinite_not hy]

/-- A sum of finite values that is not zero. -/
theorem fadd_of_finite {x y : F64} (hx : fisFinite x = true) (hy : fisFinite y = true)
    (h : fsignedUnits x + fsignedUnits y ≠ 0) :
    fadd x y = fpack (decide (fsignedUnits x + fsignedUnits y < 0))
      (roundUnits (fsignedUnits x + fsignedUnits y).natAbs 1) := by
  unfold fadd faddNumbers
  simp [fisFinite_not hx, fisFinite_not hy, h]

theorem forder_posZero : forder posZero = 0 := by decide +kernel

/-- A finite value that is not above zero, times one whose sign bit is clear, is not above zero. -/
theorem fmul_nonpos {x y : F64} (hx : fisFinite x = true) (hy : fisFinite y = true) (hs : fsign y = false)
    (h : fle x posZero = true) : fle (fmul x y) posZero = true := by
  have hz : fisNaN posZero = false := by decide +kernel
  have hle := roundUnits_le (funits x * funits y) (2 ^ 1074)
  rw [fmul_of_finite hx hy]
  simp only [fle, Bool.and_eq_true, decide_eq_true_eq, forder_posZero, fisNaN_fpack hle, hz] at h ⊢
  refine ⟨by simp, ?_⟩
  simp only [forder, fsign_fpack hle, fmagBits_fpack hle, hs] at h ⊢
  cases hn : fsign x
  · simp only [hn] at h
    have h0 : fmagBits x = 0 := by simpa using h.2
    have hu : funits x = 0 := by simp [funits, h0]
    simp [hu, roundUnits_zero]
  · simp

/-- A finite value that is not below zero, times one whose sign bit is clear, is not below zero. -/
theorem fmul_nonneg {x y : F64} (hx : fisFinite x = true) (hy : fisFinite y = true) (hs : fsign y = false)
    (h : fle posZero x = true) : fle posZero (fmul x y) = true := by
  have hz : fisNaN posZero = false := by decide +kernel
  have hle := roundUnits_le (funits x * funits y) (2 ^ 1074)
  rw [fmul_of_finite hx hy]
  simp only [fle, Bool.and_eq_true, decide_eq_true_eq, forder_posZero, fisNaN_fpack hle, hz] at h ⊢
  refine ⟨by simp, ?_⟩
  simp only [forder, fsign_fpack hle, fmagBits_fpack hle, hs] at h ⊢
  cases hn : fsign x
  · simp
  · simp only [hn] at h
    have h0 : fmagBits x = 0 := by
      have := h.2
      simp at this
      omega
    have hu : funits x = 0 := by simp [funits, h0]
    simp [hu, roundUnits_zero]

end Sys2Proof.Machine
end

