-- ==== Sys2Proof/Laws/Memory.lean ====
section
/-! SUPPORT. The host's sample memory: every operation keeps the canonical form, and the laws of reading after writing. -/

namespace Sys2Proof.Machine

theorem Memory.wfFrom_mono {lo lo' : Nat} {m : Memory} (h : lo ≤ lo') (hm : Memory.wfFrom lo' m = true) :
    Memory.wfFrom lo m = true := by
  cases m with
  | nil => rfl
  | cons cell rest =>
    simp only [Memory.wfFrom, Bool.and_eq_true, decide_eq_true_eq] at hm ⊢
    exact ⟨⟨by omega, hm.1.2⟩, hm.2⟩

/-- A write at or above the bound of a canonical memory keeps it canonical above that bound. -/
theorem Memory.write_wfFrom (m : Memory) (lo a : Nat) (v : Byte) (h : Memory.wfFrom lo m = true) (ha : lo ≤ a) :
    Memory.wfFrom lo (m.write a v) = true := by
  induction m generalizing lo with
  | nil =>
    unfold Memory.write
    split
    · rfl
    · next hv => simp [Memory.wfFrom, ha, hv]
  | cons cell rest ih =>
    simp only [Memory.wfFrom, Bool.and_eq_true, decide_eq_true_eq] at h
    obtain ⟨⟨hlo, hne⟩, hrest⟩ := h
    unfold Memory.write
    split
    · next hlt =>
      split
      · simp [Memory.wfFrom, hlo, hne, hrest]
      · next hv => simp [Memory.wfFrom, ha, hv, hne, hrest, Nat.succ_le_of_lt hlt]
    · next hlt =>
      split
      · next heq =>
        split
        · exact Memory.wfFrom_mono (by omega) hrest
        · next hv => simp [Memory.wfFrom, hlo, hv, heq, hrest]
      · next hneq =>
        simp only [Memory.wfFrom, Bool.and_eq_true, decide_eq_true_eq]
        exact ⟨⟨hlo, hne⟩, ih (cell.1 + 1) hrest (by omega)⟩

theorem Memory.write_wf {m : Memory} (h : m.wf = true) (a : Nat) (v : Byte) : (m.write a v).wf = true :=
  Memory.write_wfFrom m 0 a v h (Nat.zero_le a)

theorem Memory.writeLE_wf {m : Memory} (h : m.wf = true) (a n v : Nat) : (m.writeLE a n v).wf = true := by
  induction n generalizing m a v with
  | zero => exact h
  | succ n ih => exact ih (Memory.write_wf h _ _) _ _

theorem memWriteBeat_wf {m : Memory} (h : m.wf = true) (a : Nat) (b : Beat) : (memWriteBeat m a b).wf = true :=
  Memory.writeLE_wf h a 16 b.toNat

theorem reset_memory_wf : State.reset.hostMem.wf = true := rfl

/-- Below the first address of a canonical memory every byte is unlisted. -/
theorem Memory.read_below {m : Memory} {lo a : Nat} (h : Memory.wfFrom lo m = true) (ha : a < lo) :
    m.read a = unlistedByte := by
  induction m generalizing lo with
  | nil => rfl
  | cons cell rest ih =>
    simp only [Memory.wfFrom, Bool.and_eq_true, decide_eq_true_eq] at h
    obtain ⟨⟨hlo, -⟩, hrest⟩ := h
    have hne : cell.1 ≠ a := by omega
    simp only [Memory.read, hne, if_false]
    exact ih hrest (by omega)

/-- A write is read back, and leaves every other address as it was. -/
theorem Memory.read_write {m : Memory} {lo : Nat} (h : Memory.wfFrom lo m = true) (a a' : Nat) (v : Byte) :
    (m.write a v).read a' = if a' = a then v else m.read a' := by
  induction m generalizing lo with
  | nil =>
    by_cases hv : v = unlistedByte <;> by_cases ha : a = a' <;>
      simp [Memory.write, Memory.read, hv, ha, eq_comm]
  | cons cell rest ih =>
    simp only [Memory.wfFrom, Bool.and_eq_true, decide_eq_true_eq] at h
    obtain ⟨⟨hlo, hne⟩, hrest⟩ := h
    unfold Memory.write
    split
    · next hlt =>
      have hbelow : Memory.read (cell :: rest) a = unlistedByte :=
        Memory.read_below (lo := cell.1) (by simp [Memory.wfFrom, hne, hrest]) hlt
      by_cases ha : a' = a
      · subst ha
        split
        · next hv => rw [hbelow, if_pos rfl, hv]
        · simp [Memory.read]
      · have ha' : a ≠ a' := fun e => ha e.symm
        split
        · rfl
        · simp [Memory.read, ha']
    · next hlt =>
      split
      · next heq =>
        subst heq
        by_cases ha : a' = cell.1
        · subst ha
          split
          · next hv => rw [if_pos rfl, hv]; exact Memory.read_below hrest (by omega)
          · simp [Memory.read]
        · have ha' : cell.1 ≠ a' := fun e => ha e.symm
          split <;> simp [Memory.read, ha']
      · next hneq =>
        simp only [Memory.read, ih hrest]
        by_cases hc : cell.1 = a'
        · have : a' ≠ a := by omega
          simp [hc, this]
        · simp [hc]

end Sys2Proof.Machine
end

