-- ==== Sys2Proof/Laws/State.lean ====
section
/-! SUPPORT. One lemma for each field of State and each update of Machine/Ops.lean, true by rfl, so that no proof unfolds an
update. -/

namespace Sys2Proof.Machine

variable (s : State)

@[simp] theorem State.setRsp_phase (v : BitVec 32) : (s.setRsp v).phase = s.phase := rfl
@[simp] theorem State.setRsp_frequency (v : BitVec 32) : (s.setRsp v).frequency = s.frequency := rfl
@[simp] theorem State.setRsp_alpha (v : BitVec 32) : (s.setRsp v).alpha = s.alpha := rfl
@[simp] theorem State.setRsp_beta (v : BitVec 32) : (s.setRsp v).beta = s.beta := rfl
@[simp] theorem State.setRsp_loLimit (v : BitVec 32) : (s.setRsp v).loLimit = s.loLimit := rfl
@[simp] theorem State.setRsp_hiLimit (v : BitVec 32) : (s.setRsp v).hiLimit = s.hiLimit := rfl
@[simp] theorem State.setRsp_amDc (v : BitVec 32) : (s.setRsp v).amDc = s.amDc := rfl
@[simp] theorem State.setRsp_amSmooth (v : BitVec 32) : (s.setRsp v).amSmooth = s.amSmooth := rfl
@[simp] theorem State.setRsp_samDc (v : BitVec 32) : (s.setRsp v).samDc = s.samDc := rfl
@[simp] theorem State.setRsp_lockCurrent (v : BitVec 32) : (s.setRsp v).lockCurrent = s.lockCurrent := rfl
@[simp] theorem State.setRsp_lockPrevious (v : BitVec 32) : (s.setRsp v).lockPrevious = s.lockPrevious := rfl
@[simp] theorem State.setRsp_afc (v : BitVec 32) : (s.setRsp v).afc = s.afc := rfl
@[simp] theorem State.setRsp_prevRe (v : BitVec 32) : (s.setRsp v).prevRe = s.prevRe := rfl
@[simp] theorem State.setRsp_prevIm (v : BitVec 32) : (s.setRsp v).prevIm = s.prevIm := rfl
@[simp] theorem State.setRsp_sr (v : BitVec 32) : (s.setRsp v).sr = s.sr := rfl
@[simp] theorem State.setRsp_bs (v : BitVec 32) : (s.setRsp v).bs = s.bs := rfl
@[simp] theorem State.setRsp_mode (v : BitVec 32) : (s.setRsp v).mode = s.mode := rfl
@[simp] theorem State.setRsp_pmode (v : BitVec 32) : (s.setRsp v).pmode = s.pmode := rfl
@[simp] theorem State.setRsp_constructed (v : BitVec 32) : (s.setRsp v).constructed = s.constructed := rfl
@[simp] theorem State.setRsp_pendingValid (v : BitVec 32) : (s.setRsp v).pendingValid = s.pendingValid := rfl
@[simp] theorem State.setRsp_prevValid (v : BitVec 32) : (s.setRsp v).prevValid = s.prevValid := rfl
@[simp] theorem State.setRsp_idx (v : BitVec 32) : (s.setRsp v).idx = s.idx := rfl
@[simp] theorem State.setRsp_rsp (v : BitVec 32) : (s.setRsp v).rsp = v := rfl
@[simp] theorem State.setRsp_rspd (v : BitVec 32) : (s.setRsp v).rspd = s.rspd := rfl
@[simp] theorem State.setRsp_ctrlIn (v : BitVec 32) : (s.setRsp v).ctrlIn = s.ctrlIn := rfl
@[simp] theorem State.setRsp_dataIn (v : BitVec 32) : (s.setRsp v).dataIn = s.dataIn := rfl
@[simp] theorem State.setRsp_dataOut (v : BitVec 32) : (s.setRsp v).dataOut = s.dataOut := rfl
@[simp] theorem State.setRsp_resetIn (v : BitVec 32) : (s.setRsp v).resetIn = s.resetIn := rfl
@[simp] theorem State.setRsp_freeCount (v : BitVec 32) : (s.setRsp v).freeCount = s.freeCount := rfl
@[simp] theorem State.setRsp_hostMem (v : BitVec 32) : (s.setRsp v).hostMem = s.hostMem := rfl

@[simp] theorem State.setRspd_phase (v : BitVec 64) : (s.setRspd v).phase = s.phase := rfl
@[simp] theorem State.setRspd_frequency (v : BitVec 64) : (s.setRspd v).frequency = s.frequency := rfl
@[simp] theorem State.setRspd_alpha (v : BitVec 64) : (s.setRspd v).alpha = s.alpha := rfl
@[simp] theorem State.setRspd_beta (v : BitVec 64) : (s.setRspd v).beta = s.beta := rfl
@[simp] theorem State.setRspd_loLimit (v : BitVec 64) : (s.setRspd v).loLimit = s.loLimit := rfl
@[simp] theorem State.setRspd_hiLimit (v : BitVec 64) : (s.setRspd v).hiLimit = s.hiLimit := rfl
@[simp] theorem State.setRspd_amDc (v : BitVec 64) : (s.setRspd v).amDc = s.amDc := rfl
@[simp] theorem State.setRspd_amSmooth (v : BitVec 64) : (s.setRspd v).amSmooth = s.amSmooth := rfl
@[simp] theorem State.setRspd_samDc (v : BitVec 64) : (s.setRspd v).samDc = s.samDc := rfl
@[simp] theorem State.setRspd_lockCurrent (v : BitVec 64) : (s.setRspd v).lockCurrent = s.lockCurrent := rfl
@[simp] theorem State.setRspd_lockPrevious (v : BitVec 64) : (s.setRspd v).lockPrevious = s.lockPrevious := rfl
@[simp] theorem State.setRspd_afc (v : BitVec 64) : (s.setRspd v).afc = s.afc := rfl
@[simp] theorem State.setRspd_prevRe (v : BitVec 64) : (s.setRspd v).prevRe = s.prevRe := rfl
@[simp] theorem State.setRspd_prevIm (v : BitVec 64) : (s.setRspd v).prevIm = s.prevIm := rfl
@[simp] theorem State.setRspd_sr (v : BitVec 64) : (s.setRspd v).sr = s.sr := rfl
@[simp] theorem State.setRspd_bs (v : BitVec 64) : (s.setRspd v).bs = s.bs := rfl
@[simp] theorem State.setRspd_mode (v : BitVec 64) : (s.setRspd v).mode = s.mode := rfl
@[simp] theorem State.setRspd_pmode (v : BitVec 64) : (s.setRspd v).pmode = s.pmode := rfl
@[simp] theorem State.setRspd_constructed (v : BitVec 64) : (s.setRspd v).constructed = s.constructed := rfl
@[simp] theorem State.setRspd_pendingValid (v : BitVec 64) : (s.setRspd v).pendingValid = s.pendingValid := rfl
@[simp] theorem State.setRspd_prevValid (v : BitVec 64) : (s.setRspd v).prevValid = s.prevValid := rfl
@[simp] theorem State.setRspd_idx (v : BitVec 64) : (s.setRspd v).idx = s.idx := rfl
@[simp] theorem State.setRspd_rsp (v : BitVec 64) : (s.setRspd v).rsp = s.rsp := rfl
@[simp] theorem State.setRspd_rspd (v : BitVec 64) : (s.setRspd v).rspd = v := rfl
@[simp] theorem State.setRspd_ctrlIn (v : BitVec 64) : (s.setRspd v).ctrlIn = s.ctrlIn := rfl
@[simp] theorem State.setRspd_dataIn (v : BitVec 64) : (s.setRspd v).dataIn = s.dataIn := rfl
@[simp] theorem State.setRspd_dataOut (v : BitVec 64) : (s.setRspd v).dataOut = s.dataOut := rfl
@[simp] theorem State.setRspd_resetIn (v : BitVec 64) : (s.setRspd v).resetIn = s.resetIn := rfl
@[simp] theorem State.setRspd_freeCount (v : BitVec 64) : (s.setRspd v).freeCount = s.freeCount := rfl
@[simp] theorem State.setRspd_hostMem (v : BitVec 64) : (s.setRspd v).hostMem = s.hostMem := rfl

@[simp] theorem State.setLoop_phase (f p : F64) : (s.setLoop f p).phase = p := rfl
@[simp] theorem State.setLoop_frequency (f p : F64) : (s.setLoop f p).frequency = f := rfl
@[simp] theorem State.setLoop_alpha (f p : F64) : (s.setLoop f p).alpha = s.alpha := rfl
@[simp] theorem State.setLoop_beta (f p : F64) : (s.setLoop f p).beta = s.beta := rfl
@[simp] theorem State.setLoop_loLimit (f p : F64) : (s.setLoop f p).loLimit = s.loLimit := rfl
@[simp] theorem State.setLoop_hiLimit (f p : F64) : (s.setLoop f p).hiLimit = s.hiLimit := rfl
@[simp] theorem State.setLoop_amDc (f p : F64) : (s.setLoop f p).amDc = s.amDc := rfl
@[simp] theorem State.setLoop_amSmooth (f p : F64) : (s.setLoop f p).amSmooth = s.amSmooth := rfl
@[simp] theorem State.setLoop_samDc (f p : F64) : (s.setLoop f p).samDc = s.samDc := rfl
@[simp] theorem State.setLoop_lockCurrent (f p : F64) : (s.setLoop f p).lockCurrent = s.lockCurrent := rfl
@[simp] theorem State.setLoop_lockPrevious (f p : F64) : (s.setLoop f p).lockPrevious = s.lockPrevious := rfl
@[simp] theorem State.setLoop_afc (f p : F64) : (s.setLoop f p).afc = s.afc := rfl
@[simp] theorem State.setLoop_prevRe (f p : F64) : (s.setLoop f p).prevRe = s.prevRe := rfl
@[simp] theorem State.setLoop_prevIm (f p : F64) : (s.setLoop f p).prevIm = s.prevIm := rfl
@[simp] theorem State.setLoop_sr (f p : F64) : (s.setLoop f p).sr = s.sr := rfl
@[simp] theorem State.setLoop_bs (f p : F64) : (s.setLoop f p).bs = s.bs := rfl
@[simp] theorem State.setLoop_mode (f p : F64) : (s.setLoop f p).mode = s.mode := rfl
@[simp] theorem State.setLoop_pmode (f p : F64) : (s.setLoop f p).pmode = s.pmode := rfl
@[simp] theorem State.setLoop_constructed (f p : F64) : (s.setLoop f p).constructed = s.constructed := rfl
@[simp] theorem State.setLoop_pendingValid (f p : F64) : (s.setLoop f p).pendingValid = s.pendingValid := rfl
@[simp] theorem State.setLoop_prevValid (f p : F64) : (s.setLoop f p).prevValid = s.prevValid := rfl
@[simp] theorem State.setLoop_idx (f p : F64) : (s.setLoop f p).idx = s.idx := rfl
@[simp] theorem State.setLoop_rsp (f p : F64) : (s.setLoop f p).rsp = s.rsp := rfl
@[simp] theorem State.setLoop_rspd (f p : F64) : (s.setLoop f p).rspd = s.rspd := rfl
@[simp] theorem State.setLoop_ctrlIn (f p : F64) : (s.setLoop f p).ctrlIn = s.ctrlIn := rfl
@[simp] theorem State.setLoop_dataIn (f p : F64) : (s.setLoop f p).dataIn = s.dataIn := rfl
@[simp] theorem State.setLoop_dataOut (f p : F64) : (s.setLoop f p).dataOut = s.dataOut := rfl
@[simp] theorem State.setLoop_resetIn (f p : F64) : (s.setLoop f p).resetIn = s.resetIn := rfl
@[simp] theorem State.setLoop_freeCount (f p : F64) : (s.setLoop f p).freeCount = s.freeCount := rfl
@[simp] theorem State.setLoop_hostMem (f p : F64) : (s.setLoop f p).hostMem = s.hostMem := rfl

@[simp] theorem State.setAm_phase (dc smooth : F64) : (s.setAm dc smooth).phase = s.phase := rfl
@[simp] theorem State.setAm_frequency (dc smooth : F64) : (s.setAm dc smooth).frequency = s.frequency := rfl
@[simp] theorem State.setAm_alpha (dc smooth : F64) : (s.setAm dc smooth).alpha = s.alpha := rfl
@[simp] theorem State.setAm_beta (dc smooth : F64) : (s.setAm dc smooth).beta = s.beta := rfl
@[simp] theorem State.setAm_loLimit (dc smooth : F64) : (s.setAm dc smooth).loLimit = s.loLimit := rfl
@[simp] theorem State.setAm_hiLimit (dc smooth : F64) : (s.setAm dc smooth).hiLimit = s.hiLimit := rfl
@[simp] theorem State.setAm_amDc (dc smooth : F64) : (s.setAm dc smooth).amDc = dc := rfl
@[simp] theorem State.setAm_amSmooth (dc smooth : F64) : (s.setAm dc smooth).amSmooth = smooth := rfl
@[simp] theorem State.setAm_samDc (dc smooth : F64) : (s.setAm dc smooth).samDc = s.samDc := rfl
@[simp] theorem State.setAm_lockCurrent (dc smooth : F64) : (s.setAm dc smooth).lockCurrent = s.lockCurrent := rfl
@[simp] theorem State.setAm_lockPrevious (dc smooth : F64) : (s.setAm dc smooth).lockPrevious = s.lockPrevious := rfl
@[simp] theorem State.setAm_afc (dc smooth : F64) : (s.setAm dc smooth).afc = s.afc := rfl
@[simp] theorem State.setAm_prevRe (dc smooth : F64) : (s.setAm dc smooth).prevRe = s.prevRe := rfl
@[simp] theorem State.setAm_prevIm (dc smooth : F64) : (s.setAm dc smooth).prevIm = s.prevIm := rfl
@[simp] theorem State.setAm_sr (dc smooth : F64) : (s.setAm dc smooth).sr = s.sr := rfl
@[simp] theorem State.setAm_bs (dc smooth : F64) : (s.setAm dc smooth).bs = s.bs := rfl
@[simp] theorem State.setAm_mode (dc smooth : F64) : (s.setAm dc smooth).mode = s.mode := rfl
@[simp] theorem State.setAm_pmode (dc smooth : F64) : (s.setAm dc smooth).pmode = s.pmode := rfl
@[simp] theorem State.setAm_constructed (dc smooth : F64) : (s.setAm dc smooth).constructed = s.constructed := rfl
@[simp] theorem State.setAm_pendingValid (dc smooth : F64) : (s.setAm dc smooth).pendingValid = s.pendingValid := rfl
@[simp] theorem State.setAm_prevValid (dc smooth : F64) : (s.setAm dc smooth).prevValid = s.prevValid := rfl
@[simp] theorem State.setAm_idx (dc smooth : F64) : (s.setAm dc smooth).idx = s.idx := rfl
@[simp] theorem State.setAm_rsp (dc smooth : F64) : (s.setAm dc smooth).rsp = s.rsp := rfl
@[simp] theorem State.setAm_rspd (dc smooth : F64) : (s.setAm dc smooth).rspd = s.rspd := rfl
@[simp] theorem State.setAm_ctrlIn (dc smooth : F64) : (s.setAm dc smooth).ctrlIn = s.ctrlIn := rfl
@[simp] theorem State.setAm_dataIn (dc smooth : F64) : (s.setAm dc smooth).dataIn = s.dataIn := rfl
@[simp] theorem State.setAm_dataOut (dc smooth : F64) : (s.setAm dc smooth).dataOut = s.dataOut := rfl
@[simp] theorem State.setAm_resetIn (dc smooth : F64) : (s.setAm dc smooth).resetIn = s.resetIn := rfl
@[simp] theorem State.setAm_freeCount (dc smooth : F64) : (s.setAm dc smooth).freeCount = s.freeCount := rfl
@[simp] theorem State.setAm_hostMem (dc smooth : F64) : (s.setAm dc smooth).hostMem = s.hostMem := rfl

@[simp] theorem State.setLock_phase (lock : F64 × F64) : (s.setLock lock).phase = s.phase := rfl
@[simp] theorem State.setLock_frequency (lock : F64 × F64) : (s.setLock lock).frequency = s.frequency := rfl
@[simp] theorem State.setLock_alpha (lock : F64 × F64) : (s.setLock lock).alpha = s.alpha := rfl
@[simp] theorem State.setLock_beta (lock : F64 × F64) : (s.setLock lock).beta = s.beta := rfl
@[simp] theorem State.setLock_loLimit (lock : F64 × F64) : (s.setLock lock).loLimit = s.loLimit := rfl
@[simp] theorem State.setLock_hiLimit (lock : F64 × F64) : (s.setLock lock).hiLimit = s.hiLimit := rfl
@[simp] theorem State.setLock_amDc (lock : F64 × F64) : (s.setLock lock).amDc = s.amDc := rfl
@[simp] theorem State.setLock_amSmooth (lock : F64 × F64) : (s.setLock lock).amSmooth = s.amSmooth := rfl
@[simp] theorem State.setLock_samDc (lock : F64 × F64) : (s.setLock lock).samDc = s.samDc := rfl
@[simp] theorem State.setLock_lockCurrent (lock : F64 × F64) : (s.setLock lock).lockCurrent = lock.1 := rfl
@[simp] theorem State.setLock_lockPrevious (lock : F64 × F64) : (s.setLock lock).lockPrevious = lock.2 := rfl
@[simp] theorem State.setLock_afc (lock : F64 × F64) : (s.setLock lock).afc = s.afc := rfl
@[simp] theorem State.setLock_prevRe (lock : F64 × F64) : (s.setLock lock).prevRe = s.prevRe := rfl
@[simp] theorem State.setLock_prevIm (lock : F64 × F64) : (s.setLock lock).prevIm = s.prevIm := rfl
@[simp] theorem State.setLock_sr (lock : F64 × F64) : (s.setLock lock).sr = s.sr := rfl
@[simp] theorem State.setLock_bs (lock : F64 × F64) : (s.setLock lock).bs = s.bs := rfl
@[simp] theorem State.setLock_mode (lock : F64 × F64) : (s.setLock lock).mode = s.mode := rfl
@[simp] theorem State.setLock_pmode (lock : F64 × F64) : (s.setLock lock).pmode = s.pmode := rfl
@[simp] theorem State.setLock_constructed (lock : F64 × F64) : (s.setLock lock).constructed = s.constructed := rfl
@[simp] theorem State.setLock_pendingValid (lock : F64 × F64) : (s.setLock lock).pendingValid = s.pendingValid := rfl
@[simp] theorem State.setLock_prevValid (lock : F64 × F64) : (s.setLock lock).prevValid = s.prevValid := rfl
@[simp] theorem State.setLock_idx (lock : F64 × F64) : (s.setLock lock).idx = s.idx := rfl
@[simp] theorem State.setLock_rsp (lock : F64 × F64) : (s.setLock lock).rsp = s.rsp := rfl
@[simp] theorem State.setLock_rspd (lock : F64 × F64) : (s.setLock lock).rspd = s.rspd := rfl
@[simp] theorem State.setLock_ctrlIn (lock : F64 × F64) : (s.setLock lock).ctrlIn = s.ctrlIn := rfl
@[simp] theorem State.setLock_dataIn (lock : F64 × F64) : (s.setLock lock).dataIn = s.dataIn := rfl
@[simp] theorem State.setLock_dataOut (lock : F64 × F64) : (s.setLock lock).dataOut = s.dataOut := rfl
@[simp] theorem State.setLock_resetIn (lock : F64 × F64) : (s.setLock lock).resetIn = s.resetIn := rfl
@[simp] theorem State.setLock_freeCount (lock : F64 × F64) : (s.setLock lock).freeCount = s.freeCount := rfl
@[simp] theorem State.setLock_hostMem (lock : F64 × F64) : (s.setLock lock).hostMem = s.hostMem := rfl

@[simp] theorem State.setSamDc_phase (dc : F64) : (s.setSamDc dc).phase = s.phase := rfl
@[simp] theorem State.setSamDc_frequency (dc : F64) : (s.setSamDc dc).frequency = s.frequency := rfl
@[simp] theorem State.setSamDc_alpha (dc : F64) : (s.setSamDc dc).alpha = s.alpha := rfl
@[simp] theorem State.setSamDc_beta (dc : F64) : (s.setSamDc dc).beta = s.beta := rfl
@[simp] theorem State.setSamDc_loLimit (dc : F64) : (s.setSamDc dc).loLimit = s.loLimit := rfl
@[simp] theorem State.setSamDc_hiLimit (dc : F64) : (s.setSamDc dc).hiLimit = s.hiLimit := rfl
@[simp] theorem State.setSamDc_amDc (dc : F64) : (s.setSamDc dc).amDc = s.amDc := rfl
@[simp] theorem State.setSamDc_amSmooth (dc : F64) : (s.setSamDc dc).amSmooth = s.amSmooth := rfl
@[simp] theorem State.setSamDc_samDc (dc : F64) : (s.setSamDc dc).samDc = dc := rfl
@[simp] theorem State.setSamDc_lockCurrent (dc : F64) : (s.setSamDc dc).lockCurrent = s.lockCurrent := rfl
@[simp] theorem State.setSamDc_lockPrevious (dc : F64) : (s.setSamDc dc).lockPrevious = s.lockPrevious := rfl
@[simp] theorem State.setSamDc_afc (dc : F64) : (s.setSamDc dc).afc = s.afc := rfl
@[simp] theorem State.setSamDc_prevRe (dc : F64) : (s.setSamDc dc).prevRe = s.prevRe := rfl
@[simp] theorem State.setSamDc_prevIm (dc : F64) : (s.setSamDc dc).prevIm = s.prevIm := rfl
@[simp] theorem State.setSamDc_sr (dc : F64) : (s.setSamDc dc).sr = s.sr := rfl
@[simp] theorem State.setSamDc_bs (dc : F64) : (s.setSamDc dc).bs = s.bs := rfl
@[simp] theorem State.setSamDc_mode (dc : F64) : (s.setSamDc dc).mode = s.mode := rfl
@[simp] theorem State.setSamDc_pmode (dc : F64) : (s.setSamDc dc).pmode = s.pmode := rfl
@[simp] theorem State.setSamDc_constructed (dc : F64) : (s.setSamDc dc).constructed = s.constructed := rfl
@[simp] theorem State.setSamDc_pendingValid (dc : F64) : (s.setSamDc dc).pendingValid = s.pendingValid := rfl
@[simp] theorem State.setSamDc_prevValid (dc : F64) : (s.setSamDc dc).prevValid = s.prevValid := rfl
@[simp] theorem State.setSamDc_idx (dc : F64) : (s.setSamDc dc).idx = s.idx := rfl
@[simp] theorem State.setSamDc_rsp (dc : F64) : (s.setSamDc dc).rsp = s.rsp := rfl
@[simp] theorem State.setSamDc_rspd (dc : F64) : (s.setSamDc dc).rspd = s.rspd := rfl
@[simp] theorem State.setSamDc_ctrlIn (dc : F64) : (s.setSamDc dc).ctrlIn = s.ctrlIn := rfl
@[simp] theorem State.setSamDc_dataIn (dc : F64) : (s.setSamDc dc).dataIn = s.dataIn := rfl
@[simp] theorem State.setSamDc_dataOut (dc : F64) : (s.setSamDc dc).dataOut = s.dataOut := rfl
@[simp] theorem State.setSamDc_resetIn (dc : F64) : (s.setSamDc dc).resetIn = s.resetIn := rfl
@[simp] theorem State.setSamDc_freeCount (dc : F64) : (s.setSamDc dc).freeCount = s.freeCount := rfl
@[simp] theorem State.setSamDc_hostMem (dc : F64) : (s.setSamDc dc).hostMem = s.hostMem := rfl

@[simp] theorem State.setAfc_phase (v : F64) : (s.setAfc v).phase = s.phase := rfl
@[simp] theorem State.setAfc_frequency (v : F64) : (s.setAfc v).frequency = s.frequency := rfl
@[simp] theorem State.setAfc_alpha (v : F64) : (s.setAfc v).alpha = s.alpha := rfl
@[simp] theorem State.setAfc_beta (v : F64) : (s.setAfc v).beta = s.beta := rfl
@[simp] theorem State.setAfc_loLimit (v : F64) : (s.setAfc v).loLimit = s.loLimit := rfl
@[simp] theorem State.setAfc_hiLimit (v : F64) : (s.setAfc v).hiLimit = s.hiLimit := rfl
@[simp] theorem State.setAfc_amDc (v : F64) : (s.setAfc v).amDc = s.amDc := rfl
@[simp] theorem State.setAfc_amSmooth (v : F64) : (s.setAfc v).amSmooth = s.amSmooth := rfl
@[simp] theorem State.setAfc_samDc (v : F64) : (s.setAfc v).samDc = s.samDc := rfl
@[simp] theorem State.setAfc_lockCurrent (v : F64) : (s.setAfc v).lockCurrent = s.lockCurrent := rfl
@[simp] theorem State.setAfc_lockPrevious (v : F64) : (s.setAfc v).lockPrevious = s.lockPrevious := rfl
@[simp] theorem State.setAfc_afc (v : F64) : (s.setAfc v).afc = v := rfl
@[simp] theorem State.setAfc_prevRe (v : F64) : (s.setAfc v).prevRe = s.prevRe := rfl
@[simp] theorem State.setAfc_prevIm (v : F64) : (s.setAfc v).prevIm = s.prevIm := rfl
@[simp] theorem State.setAfc_sr (v : F64) : (s.setAfc v).sr = s.sr := rfl
@[simp] theorem State.setAfc_bs (v : F64) : (s.setAfc v).bs = s.bs := rfl
@[simp] theorem State.setAfc_mode (v : F64) : (s.setAfc v).mode = s.mode := rfl
@[simp] theorem State.setAfc_pmode (v : F64) : (s.setAfc v).pmode = s.pmode := rfl
@[simp] theorem State.setAfc_constructed (v : F64) : (s.setAfc v).constructed = s.constructed := rfl
@[simp] theorem State.setAfc_pendingValid (v : F64) : (s.setAfc v).pendingValid = s.pendingValid := rfl
@[simp] theorem State.setAfc_prevValid (v : F64) : (s.setAfc v).prevValid = s.prevValid := rfl
@[simp] theorem State.setAfc_idx (v : F64) : (s.setAfc v).idx = s.idx := rfl
@[simp] theorem State.setAfc_rsp (v : F64) : (s.setAfc v).rsp = s.rsp := rfl
@[simp] theorem State.setAfc_rspd (v : F64) : (s.setAfc v).rspd = s.rspd := rfl
@[simp] theorem State.setAfc_ctrlIn (v : F64) : (s.setAfc v).ctrlIn = s.ctrlIn := rfl
@[simp] theorem State.setAfc_dataIn (v : F64) : (s.setAfc v).dataIn = s.dataIn := rfl
@[simp] theorem State.setAfc_dataOut (v : F64) : (s.setAfc v).dataOut = s.dataOut := rfl
@[simp] theorem State.setAfc_resetIn (v : F64) : (s.setAfc v).resetIn = s.resetIn := rfl
@[simp] theorem State.setAfc_freeCount (v : F64) : (s.setAfc v).freeCount = s.freeCount := rfl
@[simp] theorem State.setAfc_hostMem (v : F64) : (s.setAfc v).hostMem = s.hostMem := rfl

@[simp] theorem State.setPrev_phase (x : ComplexSample) : (s.setPrev x).phase = s.phase := rfl
@[simp] theorem State.setPrev_frequency (x : ComplexSample) : (s.setPrev x).frequency = s.frequency := rfl
@[simp] theorem State.setPrev_alpha (x : ComplexSample) : (s.setPrev x).alpha = s.alpha := rfl
@[simp] theorem State.setPrev_beta (x : ComplexSample) : (s.setPrev x).beta = s.beta := rfl
@[simp] theorem State.setPrev_loLimit (x : ComplexSample) : (s.setPrev x).loLimit = s.loLimit := rfl
@[simp] theorem State.setPrev_hiLimit (x : ComplexSample) : (s.setPrev x).hiLimit = s.hiLimit := rfl
@[simp] theorem State.setPrev_amDc (x : ComplexSample) : (s.setPrev x).amDc = s.amDc := rfl
@[simp] theorem State.setPrev_amSmooth (x : ComplexSample) : (s.setPrev x).amSmooth = s.amSmooth := rfl
@[simp] theorem State.setPrev_samDc (x : ComplexSample) : (s.setPrev x).samDc = s.samDc := rfl
@[simp] theorem State.setPrev_lockCurrent (x : ComplexSample) : (s.setPrev x).lockCurrent = s.lockCurrent := rfl
@[simp] theorem State.setPrev_lockPrevious (x : ComplexSample) : (s.setPrev x).lockPrevious = s.lockPrevious := rfl
@[simp] theorem State.setPrev_afc (x : ComplexSample) : (s.setPrev x).afc = s.afc := rfl
@[simp] theorem State.setPrev_prevRe (x : ComplexSample) : (s.setPrev x).prevRe = x.re := rfl
@[simp] theorem State.setPrev_prevIm (x : ComplexSample) : (s.setPrev x).prevIm = x.im := rfl
@[simp] theorem State.setPrev_sr (x : ComplexSample) : (s.setPrev x).sr = s.sr := rfl
@[simp] theorem State.setPrev_bs (x : ComplexSample) : (s.setPrev x).bs = s.bs := rfl
@[simp] theorem State.setPrev_mode (x : ComplexSample) : (s.setPrev x).mode = s.mode := rfl
@[simp] theorem State.setPrev_pmode (x : ComplexSample) : (s.setPrev x).pmode = s.pmode := rfl
@[simp] theorem State.setPrev_constructed (x : ComplexSample) : (s.setPrev x).constructed = s.constructed := rfl
@[simp] theorem State.setPrev_pendingValid (x : ComplexSample) : (s.setPrev x).pendingValid = s.pendingValid := rfl
@[simp] theorem State.setPrev_prevValid (x : ComplexSample) : (s.setPrev x).prevValid = true := rfl
@[simp] theorem State.setPrev_idx (x : ComplexSample) : (s.setPrev x).idx = s.idx := rfl
@[simp] theorem State.setPrev_rsp (x : ComplexSample) : (s.setPrev x).rsp = s.rsp := rfl
@[simp] theorem State.setPrev_rspd (x : ComplexSample) : (s.setPrev x).rspd = s.rspd := rfl
@[simp] theorem State.setPrev_ctrlIn (x : ComplexSample) : (s.setPrev x).ctrlIn = s.ctrlIn := rfl
@[simp] theorem State.setPrev_dataIn (x : ComplexSample) : (s.setPrev x).dataIn = s.dataIn := rfl
@[simp] theorem State.setPrev_dataOut (x : ComplexSample) : (s.setPrev x).dataOut = s.dataOut := rfl
@[simp] theorem State.setPrev_resetIn (x : ComplexSample) : (s.setPrev x).resetIn = s.resetIn := rfl
@[simp] theorem State.setPrev_freeCount (x : ComplexSample) : (s.setPrev x).freeCount = s.freeCount := rfl
@[simp] theorem State.setPrev_hostMem (x : ComplexSample) : (s.setPrev x).hostMem = s.hostMem := rfl

@[simp] theorem State.setIdx_phase (i : BitVec 32) : (s.setIdx i).phase = s.phase := rfl
@[simp] theorem State.setIdx_frequency (i : BitVec 32) : (s.setIdx i).frequency = s.frequency := rfl
@[simp] theorem State.setIdx_alpha (i : BitVec 32) : (s.setIdx i).alpha = s.alpha := rfl
@[simp] theorem State.setIdx_beta (i : BitVec 32) : (s.setIdx i).beta = s.beta := rfl
@[simp] theorem State.setIdx_loLimit (i : BitVec 32) : (s.setIdx i).loLimit = s.loLimit := rfl
@[simp] theorem State.setIdx_hiLimit (i : BitVec 32) : (s.setIdx i).hiLimit = s.hiLimit := rfl
@[simp] theorem State.setIdx_amDc (i : BitVec 32) : (s.setIdx i).amDc = s.amDc := rfl
@[simp] theorem State.setIdx_amSmooth (i : BitVec 32) : (s.setIdx i).amSmooth = s.amSmooth := rfl
@[simp] theorem State.setIdx_samDc (i : BitVec 32) : (s.setIdx i).samDc = s.samDc := rfl
@[simp] theorem State.setIdx_lockCurrent (i : BitVec 32) : (s.setIdx i).lockCurrent = s.lockCurrent := rfl
@[simp] theorem State.setIdx_lockPrevious (i : BitVec 32) : (s.setIdx i).lockPrevious = s.lockPrevious := rfl
@[simp] theorem State.setIdx_afc (i : BitVec 32) : (s.setIdx i).afc = s.afc := rfl
@[simp] theorem State.setIdx_prevRe (i : BitVec 32) : (s.setIdx i).prevRe = s.prevRe := rfl
@[simp] theorem State.setIdx_prevIm (i : BitVec 32) : (s.setIdx i).prevIm = s.prevIm := rfl
@[simp] theorem State.setIdx_sr (i : BitVec 32) : (s.setIdx i).sr = s.sr := rfl
@[simp] theorem State.setIdx_bs (i : BitVec 32) : (s.setIdx i).bs = s.bs := rfl
@[simp] theorem State.setIdx_mode (i : BitVec 32) : (s.setIdx i).mode = s.mode := rfl
@[simp] theorem State.setIdx_pmode (i : BitVec 32) : (s.setIdx i).pmode = s.pmode := rfl
@[simp] theorem State.setIdx_constructed (i : BitVec 32) : (s.setIdx i).constructed = s.constructed := rfl
@[simp] theorem State.setIdx_pendingValid (i : BitVec 32) : (s.setIdx i).pendingValid = s.pendingValid := rfl
@[simp] theorem State.setIdx_prevValid (i : BitVec 32) : (s.setIdx i).prevValid = s.prevValid := rfl
@[simp] theorem State.setIdx_idx (i : BitVec 32) : (s.setIdx i).idx = i := rfl
@[simp] theorem State.setIdx_rsp (i : BitVec 32) : (s.setIdx i).rsp = s.rsp := rfl
@[simp] theorem State.setIdx_rspd (i : BitVec 32) : (s.setIdx i).rspd = s.rspd := rfl
@[simp] theorem State.setIdx_ctrlIn (i : BitVec 32) : (s.setIdx i).ctrlIn = s.ctrlIn := rfl
@[simp] theorem State.setIdx_dataIn (i : BitVec 32) : (s.setIdx i).dataIn = s.dataIn := rfl
@[simp] theorem State.setIdx_dataOut (i : BitVec 32) : (s.setIdx i).dataOut = s.dataOut := rfl
@[simp] theorem State.setIdx_resetIn (i : BitVec 32) : (s.setIdx i).resetIn = s.resetIn := rfl
@[simp] theorem State.setIdx_freeCount (i : BitVec 32) : (s.setIdx i).freeCount = s.freeCount := rfl
@[simp] theorem State.setIdx_hostMem (i : BitVec 32) : (s.setIdx i).hostMem = s.hostMem := rfl

@[simp] theorem State.latchMode_phase (m : ModeCode) : (s.latchMode m).phase = s.phase := rfl
@[simp] theorem State.latchMode_frequency (m : ModeCode) : (s.latchMode m).frequency = s.frequency := rfl
@[simp] theorem State.latchMode_alpha (m : ModeCode) : (s.latchMode m).alpha = s.alpha := rfl
@[simp] theorem State.latchMode_beta (m : ModeCode) : (s.latchMode m).beta = s.beta := rfl
@[simp] theorem State.latchMode_loLimit (m : ModeCode) : (s.latchMode m).loLimit = s.loLimit := rfl
@[simp] theorem State.latchMode_hiLimit (m : ModeCode) : (s.latchMode m).hiLimit = s.hiLimit := rfl
@[simp] theorem State.latchMode_amDc (m : ModeCode) : (s.latchMode m).amDc = s.amDc := rfl
@[simp] theorem State.latchMode_amSmooth (m : ModeCode) : (s.latchMode m).amSmooth = s.amSmooth := rfl
@[simp] theorem State.latchMode_samDc (m : ModeCode) : (s.latchMode m).samDc = s.samDc := rfl
@[simp] theorem State.latchMode_lockCurrent (m : ModeCode) : (s.latchMode m).lockCurrent = s.lockCurrent := rfl
@[simp] theorem State.latchMode_lockPrevious (m : ModeCode) : (s.latchMode m).lockPrevious = s.lockPrevious := rfl
@[simp] theorem State.latchMode_afc (m : ModeCode) : (s.latchMode m).afc = s.afc := rfl
@[simp] theorem State.latchMode_prevRe (m : ModeCode) : (s.latchMode m).prevRe = s.prevRe := rfl
@[simp] theorem State.latchMode_prevIm (m : ModeCode) : (s.latchMode m).prevIm = s.prevIm := rfl
@[simp] theorem State.latchMode_sr (m : ModeCode) : (s.latchMode m).sr = s.sr := rfl
@[simp] theorem State.latchMode_bs (m : ModeCode) : (s.latchMode m).bs = s.bs := rfl
@[simp] theorem State.latchMode_mode (m : ModeCode) : (s.latchMode m).mode = s.mode := rfl
@[simp] theorem State.latchMode_pmode (m : ModeCode) : (s.latchMode m).pmode = m := rfl
@[simp] theorem State.latchMode_constructed (m : ModeCode) : (s.latchMode m).constructed = s.constructed := rfl
@[simp] theorem State.latchMode_pendingValid (m : ModeCode) : (s.latchMode m).pendingValid = true := rfl
@[simp] theorem State.latchMode_prevValid (m : ModeCode) : (s.latchMode m).prevValid = s.prevValid := rfl
@[simp] theorem State.latchMode_idx (m : ModeCode) : (s.latchMode m).idx = s.idx := rfl
@[simp] theorem State.latchMode_rsp (m : ModeCode) : (s.latchMode m).rsp = s.rsp := rfl
@[simp] theorem State.latchMode_rspd (m : ModeCode) : (s.latchMode m).rspd = s.rspd := rfl
@[simp] theorem State.latchMode_ctrlIn (m : ModeCode) : (s.latchMode m).ctrlIn = s.ctrlIn := rfl
@[simp] theorem State.latchMode_dataIn (m : ModeCode) : (s.latchMode m).dataIn = s.dataIn := rfl
@[simp] theorem State.latchMode_dataOut (m : ModeCode) : (s.latchMode m).dataOut = s.dataOut := rfl
@[simp] theorem State.latchMode_resetIn (m : ModeCode) : (s.latchMode m).resetIn = s.resetIn := rfl
@[simp] theorem State.latchMode_freeCount (m : ModeCode) : (s.latchMode m).freeCount = s.freeCount := rfl
@[simp] theorem State.latchMode_hostMem (m : ModeCode) : (s.latchMode m).hostMem = s.hostMem := rfl

@[simp] theorem State.clearPending_phase : (s.clearPending).phase = s.phase := rfl
@[simp] theorem State.clearPending_frequency : (s.clearPending).frequency = s.frequency := rfl
@[simp] theorem State.clearPending_alpha : (s.clearPending).alpha = s.alpha := rfl
@[simp] theorem State.clearPending_beta : (s.clearPending).beta = s.beta := rfl
@[simp] theorem State.clearPending_loLimit : (s.clearPending).loLimit = s.loLimit := rfl
@[simp] theorem State.clearPending_hiLimit : (s.clearPending).hiLimit = s.hiLimit := rfl
@[simp] theorem State.clearPending_amDc : (s.clearPending).amDc = s.amDc := rfl
@[simp] theorem State.clearPending_amSmooth : (s.clearPending).amSmooth = s.amSmooth := rfl
@[simp] theorem State.clearPending_samDc : (s.clearPending).samDc = s.samDc := rfl
@[simp] theorem State.clearPending_lockCurrent : (s.clearPending).lockCurrent = s.lockCurrent := rfl
@[simp] theorem State.clearPending_lockPrevious : (s.clearPending).lockPrevious = s.lockPrevious := rfl
@[simp] theorem State.clearPending_afc : (s.clearPending).afc = s.afc := rfl
@[simp] theorem State.clearPending_prevRe : (s.clearPending).prevRe = s.prevRe := rfl
@[simp] theorem State.clearPending_prevIm : (s.clearPending).prevIm = s.prevIm := rfl
@[simp] theorem State.clearPending_sr : (s.clearPending).sr = s.sr := rfl
@[simp] theorem State.clearPending_bs : (s.clearPending).bs = s.bs := rfl
@[simp] theorem State.clearPending_mode : (s.clearPending).mode = s.mode := rfl
@[simp] theorem State.clearPending_pmode : (s.clearPending).pmode = s.pmode := rfl
@[simp] theorem State.clearPending_constructed : (s.clearPending).constructed = s.constructed := rfl
@[simp] theorem State.clearPending_pendingValid : (s.clearPending).pendingValid = false := rfl
@[simp] theorem State.clearPending_prevValid : (s.clearPending).prevValid = s.prevValid := rfl
@[simp] theorem State.clearPending_idx : (s.clearPending).idx = s.idx := rfl
@[simp] theorem State.clearPending_rsp : (s.clearPending).rsp = s.rsp := rfl
@[simp] theorem State.clearPending_rspd : (s.clearPending).rspd = s.rspd := rfl
@[simp] theorem State.clearPending_ctrlIn : (s.clearPending).ctrlIn = s.ctrlIn := rfl
@[simp] theorem State.clearPending_dataIn : (s.clearPending).dataIn = s.dataIn := rfl
@[simp] theorem State.clearPending_dataOut : (s.clearPending).dataOut = s.dataOut := rfl
@[simp] theorem State.clearPending_resetIn : (s.clearPending).resetIn = s.resetIn := rfl
@[simp] theorem State.clearPending_freeCount : (s.clearPending).freeCount = s.freeCount := rfl
@[simp] theorem State.clearPending_hostMem : (s.clearPending).hostMem = s.hostMem := rfl

@[simp] theorem State.setRates_phase (r b : BitVec 32) : (s.setRates r b).phase = s.phase := rfl
@[simp] theorem State.setRates_frequency (r b : BitVec 32) : (s.setRates r b).frequency = s.frequency := rfl
@[simp] theorem State.setRates_alpha (r b : BitVec 32) : (s.setRates r b).alpha = s.alpha := rfl
@[simp] theorem State.setRates_beta (r b : BitVec 32) : (s.setRates r b).beta = s.beta := rfl
@[simp] theorem State.setRates_loLimit (r b : BitVec 32) : (s.setRates r b).loLimit = s.loLimit := rfl
@[simp] theorem State.setRates_hiLimit (r b : BitVec 32) : (s.setRates r b).hiLimit = s.hiLimit := rfl
@[simp] theorem State.setRates_amDc (r b : BitVec 32) : (s.setRates r b).amDc = s.amDc := rfl
@[simp] theorem State.setRates_amSmooth (r b : BitVec 32) : (s.setRates r b).amSmooth = s.amSmooth := rfl
@[simp] theorem State.setRates_samDc (r b : BitVec 32) : (s.setRates r b).samDc = s.samDc := rfl
@[simp] theorem State.setRates_lockCurrent (r b : BitVec 32) : (s.setRates r b).lockCurrent = s.lockCurrent := rfl
@[simp] theorem State.setRates_lockPrevious (r b : BitVec 32) : (s.setRates r b).lockPrevious = s.lockPrevious := rfl
@[simp] theorem State.setRates_afc (r b : BitVec 32) : (s.setRates r b).afc = s.afc := rfl
@[simp] theorem State.setRates_prevRe (r b : BitVec 32) : (s.setRates r b).prevRe = s.prevRe := rfl
@[simp] theorem State.setRates_prevIm (r b : BitVec 32) : (s.setRates r b).prevIm = s.prevIm := rfl
@[simp] theorem State.setRates_sr (r b : BitVec 32) : (s.setRates r b).sr = r := rfl
@[simp] theorem State.setRates_bs (r b : BitVec 32) : (s.setRates r b).bs = b := rfl
@[simp] theorem State.setRates_mode (r b : BitVec 32) : (s.setRates r b).mode = s.mode := rfl
@[simp] theorem State.setRates_pmode (r b : BitVec 32) : (s.setRates r b).pmode = 0#4 := rfl
@[simp] theorem State.setRates_constructed (r b : BitVec 32) : (s.setRates r b).constructed = s.constructed := rfl
@[simp] theorem State.setRates_pendingValid (r b : BitVec 32) : (s.setRates r b).pendingValid = false := rfl
@[simp] theorem State.setRates_prevValid (r b : BitVec 32) : (s.setRates r b).prevValid = s.prevValid := rfl
@[simp] theorem State.setRates_idx (r b : BitVec 32) : (s.setRates r b).idx = 0#32 := rfl
@[simp] theorem State.setRates_rsp (r b : BitVec 32) : (s.setRates r b).rsp = s.rsp := rfl
@[simp] theorem State.setRates_rspd (r b : BitVec 32) : (s.setRates r b).rspd = s.rspd := rfl
@[simp] theorem State.setRates_ctrlIn (r b : BitVec 32) : (s.setRates r b).ctrlIn = s.ctrlIn := rfl
@[simp] theorem State.setRates_dataIn (r b : BitVec 32) : (s.setRates r b).dataIn = s.dataIn := rfl
@[simp] theorem State.setRates_dataOut (r b : BitVec 32) : (s.setRates r b).dataOut = s.dataOut := rfl
@[simp] theorem State.setRates_resetIn (r b : BitVec 32) : (s.setRates r b).resetIn = s.resetIn := rfl
@[simp] theorem State.setRates_freeCount (r b : BitVec 32) : (s.setRates r b).freeCount = s.freeCount := rfl
@[simp] theorem State.setRates_hostMem (r b : BitVec 32) : (s.setRates r b).hostMem = s.hostMem := rfl

@[simp] theorem State.setConstructed_phase : (s.setConstructed).phase = s.phase := rfl
@[simp] theorem State.setConstructed_frequency : (s.setConstructed).frequency = s.frequency := rfl
@[simp] theorem State.setConstructed_alpha : (s.setConstructed).alpha = s.alpha := rfl
@[simp] theorem State.setConstructed_beta : (s.setConstructed).beta = s.beta := rfl
@[simp] theorem State.setConstructed_loLimit : (s.setConstructed).loLimit = s.loLimit := rfl
@[simp] theorem State.setConstructed_hiLimit : (s.setConstructed).hiLimit = s.hiLimit := rfl
@[simp] theorem State.setConstructed_amDc : (s.setConstructed).amDc = s.amDc := rfl
@[simp] theorem State.setConstructed_amSmooth : (s.setConstructed).amSmooth = s.amSmooth := rfl
@[simp] theorem State.setConstructed_samDc : (s.setConstructed).samDc = s.samDc := rfl
@[simp] theorem State.setConstructed_lockCurrent : (s.setConstructed).lockCurrent = s.lockCurrent := rfl
@[simp] theorem State.setConstructed_lockPrevious : (s.setConstructed).lockPrevious = s.lockPrevious := rfl
@[simp] theorem State.setConstructed_afc : (s.setConstructed).afc = s.afc := rfl
@[simp] theorem State.setConstructed_prevRe : (s.setConstructed).prevRe = s.prevRe := rfl
@[simp] theorem State.setConstructed_prevIm : (s.setConstructed).prevIm = s.prevIm := rfl
@[simp] theorem State.setConstructed_sr : (s.setConstructed).sr = s.sr := rfl
@[simp] theorem State.setConstructed_bs : (s.setConstructed).bs = s.bs := rfl
@[simp] theorem State.setConstructed_mode : (s.setConstructed).mode = s.mode := rfl
@[simp] theorem State.setConstructed_pmode : (s.setConstructed).pmode = s.pmode := rfl
@[simp] theorem State.setConstructed_constructed : (s.setConstructed).constructed = true := rfl
@[simp] theorem State.setConstructed_pendingValid : (s.setConstructed).pendingValid = s.pendingValid := rfl
@[simp] theorem State.setConstructed_prevValid : (s.setConstructed).prevValid = s.prevValid := rfl
@[simp] theorem State.setConstructed_idx : (s.setConstructed).idx = s.idx := rfl
@[simp] theorem State.setConstructed_rsp : (s.setConstructed).rsp = s.rsp := rfl
@[simp] theorem State.setConstructed_rspd : (s.setConstructed).rspd = s.rspd := rfl
@[simp] theorem State.setConstructed_ctrlIn : (s.setConstructed).ctrlIn = s.ctrlIn := rfl
@[simp] theorem State.setConstructed_dataIn : (s.setConstructed).dataIn = s.dataIn := rfl
@[simp] theorem State.setConstructed_dataOut : (s.setConstructed).dataOut = s.dataOut := rfl
@[simp] theorem State.setConstructed_resetIn : (s.setConstructed).resetIn = s.resetIn := rfl
@[simp] theorem State.setConstructed_freeCount : (s.setConstructed).freeCount = s.freeCount := rfl
@[simp] theorem State.setConstructed_hostMem : (s.setConstructed).hostMem = s.hostMem := rfl

@[simp] theorem State.clearFlags_phase : (s.clearFlags).phase = s.phase := rfl
@[simp] theorem State.clearFlags_frequency : (s.clearFlags).frequency = s.frequency := rfl
@[simp] theorem State.clearFlags_alpha : (s.clearFlags).alpha = s.alpha := rfl
@[simp] theorem State.clearFlags_beta : (s.clearFlags).beta = s.beta := rfl
@[simp] theorem State.clearFlags_loLimit : (s.clearFlags).loLimit = s.loLimit := rfl
@[simp] theorem State.clearFlags_hiLimit : (s.clearFlags).hiLimit = s.hiLimit := rfl
@[simp] theorem State.clearFlags_amDc : (s.clearFlags).amDc = s.amDc := rfl
@[simp] theorem State.clearFlags_amSmooth : (s.clearFlags).amSmooth = s.amSmooth := rfl
@[simp] theorem State.clearFlags_samDc : (s.clearFlags).samDc = s.samDc := rfl
@[simp] theorem State.clearFlags_lockCurrent : (s.clearFlags).lockCurrent = s.lockCurrent := rfl
@[simp] theorem State.clearFlags_lockPrevious : (s.clearFlags).lockPrevious = s.lockPrevious := rfl
@[simp] theorem State.clearFlags_afc : (s.clearFlags).afc = s.afc := rfl
@[simp] theorem State.clearFlags_prevRe : (s.clearFlags).prevRe = s.prevRe := rfl
@[simp] theorem State.clearFlags_prevIm : (s.clearFlags).prevIm = s.prevIm := rfl
@[simp] theorem State.clearFlags_sr : (s.clearFlags).sr = s.sr := rfl
@[simp] theorem State.clearFlags_bs : (s.clearFlags).bs = s.bs := rfl
@[simp] theorem State.clearFlags_mode : (s.clearFlags).mode = s.mode := rfl
@[simp] theorem State.clearFlags_pmode : (s.clearFlags).pmode = s.pmode := rfl
@[simp] theorem State.clearFlags_constructed : (s.clearFlags).constructed = false := rfl
@[simp] theorem State.clearFlags_pendingValid : (s.clearFlags).pendingValid = false := rfl
@[simp] theorem State.clearFlags_prevValid : (s.clearFlags).prevValid = false := rfl
@[simp] theorem State.clearFlags_idx : (s.clearFlags).idx = 0#32 := rfl
@[simp] theorem State.clearFlags_rsp : (s.clearFlags).rsp = s.rsp := rfl
@[simp] theorem State.clearFlags_rspd : (s.clearFlags).rspd = s.rspd := rfl
@[simp] theorem State.clearFlags_ctrlIn : (s.clearFlags).ctrlIn = s.ctrlIn := rfl
@[simp] theorem State.clearFlags_dataIn : (s.clearFlags).dataIn = s.dataIn := rfl
@[simp] theorem State.clearFlags_dataOut : (s.clearFlags).dataOut = s.dataOut := rfl
@[simp] theorem State.clearFlags_resetIn : (s.clearFlags).resetIn = s.resetIn := rfl
@[simp] theorem State.clearFlags_freeCount : (s.clearFlags).freeCount = s.freeCount := rfl
@[simp] theorem State.clearFlags_hostMem : (s.clearFlags).hostMem = s.hostMem := rfl

@[simp] theorem State.emit_phase (b : Beat) : (s.emit b).phase = s.phase := rfl
@[simp] theorem State.emit_frequency (b : Beat) : (s.emit b).frequency = s.frequency := rfl
@[simp] theorem State.emit_alpha (b : Beat) : (s.emit b).alpha = s.alpha := rfl
@[simp] theorem State.emit_beta (b : Beat) : (s.emit b).beta = s.beta := rfl
@[simp] theorem State.emit_loLimit (b : Beat) : (s.emit b).loLimit = s.loLimit := rfl
@[simp] theorem State.emit_hiLimit (b : Beat) : (s.emit b).hiLimit = s.hiLimit := rfl
@[simp] theorem State.emit_amDc (b : Beat) : (s.emit b).amDc = s.amDc := rfl
@[simp] theorem State.emit_amSmooth (b : Beat) : (s.emit b).amSmooth = s.amSmooth := rfl
@[simp] theorem State.emit_samDc (b : Beat) : (s.emit b).samDc = s.samDc := rfl
@[simp] theorem State.emit_lockCurrent (b : Beat) : (s.emit b).lockCurrent = s.lockCurrent := rfl
@[simp] theorem State.emit_lockPrevious (b : Beat) : (s.emit b).lockPrevious = s.lockPrevious := rfl
@[simp] theorem State.emit_afc (b : Beat) : (s.emit b).afc = s.afc := rfl
@[simp] theorem State.emit_prevRe (b : Beat) : (s.emit b).prevRe = s.prevRe := rfl
@[simp] theorem State.emit_prevIm (b : Beat) : (s.emit b).prevIm = s.prevIm := rfl
@[simp] theorem State.emit_sr (b : Beat) : (s.emit b).sr = s.sr := rfl
@[simp] theorem State.emit_bs (b : Beat) : (s.emit b).bs = s.bs := rfl
@[simp] theorem State.emit_mode (b : Beat) : (s.emit b).mode = s.mode := rfl
@[simp] theorem State.emit_pmode (b : Beat) : (s.emit b).pmode = s.pmode := rfl
@[simp] theorem State.emit_constructed (b : Beat) : (s.emit b).constructed = s.constructed := rfl
@[simp] theorem State.emit_pendingValid (b : Beat) : (s.emit b).pendingValid = s.pendingValid := rfl
@[simp] theorem State.emit_prevValid (b : Beat) : (s.emit b).prevValid = s.prevValid := rfl
@[simp] theorem State.emit_idx (b : Beat) : (s.emit b).idx = s.idx := rfl
@[simp] theorem State.emit_rsp (b : Beat) : (s.emit b).rsp = s.rsp := rfl
@[simp] theorem State.emit_rspd (b : Beat) : (s.emit b).rspd = s.rspd := rfl
@[simp] theorem State.emit_ctrlIn (b : Beat) : (s.emit b).ctrlIn = s.ctrlIn := rfl
@[simp] theorem State.emit_dataIn (b : Beat) : (s.emit b).dataIn = s.dataIn := rfl
@[simp] theorem State.emit_dataOut (b : Beat) : (s.emit b).dataOut = s.dataOut ++ [b] := rfl
@[simp] theorem State.emit_resetIn (b : Beat) : (s.emit b).resetIn = s.resetIn := rfl
@[simp] theorem State.emit_freeCount (b : Beat) : (s.emit b).freeCount = s.freeCount := rfl
@[simp] theorem State.emit_hostMem (b : Beat) : (s.emit b).hostMem = s.hostMem := rfl

@[simp] theorem State.withCtrlIn_phase (ws : List CmdWord) : (s.withCtrlIn ws).phase = s.phase := rfl
@[simp] theorem State.withCtrlIn_frequency (ws : List CmdWord) : (s.withCtrlIn ws).frequency = s.frequency := rfl
@[simp] theorem State.withCtrlIn_alpha (ws : List CmdWord) : (s.withCtrlIn ws).alpha = s.alpha := rfl
@[simp] theorem State.withCtrlIn_beta (ws : List CmdWord) : (s.withCtrlIn ws).beta = s.beta := rfl
@[simp] theorem State.withCtrlIn_loLimit (ws : List CmdWord) : (s.withCtrlIn ws).loLimit = s.loLimit := rfl
@[simp] theorem State.withCtrlIn_hiLimit (ws : List CmdWord) : (s.withCtrlIn ws).hiLimit = s.hiLimit := rfl
@[simp] theorem State.withCtrlIn_amDc (ws : List CmdWord) : (s.withCtrlIn ws).amDc = s.amDc := rfl
@[simp] theorem State.withCtrlIn_amSmooth (ws : List CmdWord) : (s.withCtrlIn ws).amSmooth = s.amSmooth := rfl
@[simp] theorem State.withCtrlIn_samDc (ws : List CmdWord) : (s.withCtrlIn ws).samDc = s.samDc := rfl
@[simp] theorem State.withCtrlIn_lockCurrent (ws : List CmdWord) : (s.withCtrlIn ws).lockCurrent = s.lockCurrent := rfl
@[simp] theorem State.withCtrlIn_lockPrevious (ws : List CmdWord) : (s.withCtrlIn ws).lockPrevious = s.lockPrevious := rfl
@[simp] theorem State.withCtrlIn_afc (ws : List CmdWord) : (s.withCtrlIn ws).afc = s.afc := rfl
@[simp] theorem State.withCtrlIn_prevRe (ws : List CmdWord) : (s.withCtrlIn ws).prevRe = s.prevRe := rfl
@[simp] theorem State.withCtrlIn_prevIm (ws : List CmdWord) : (s.withCtrlIn ws).prevIm = s.prevIm := rfl
@[simp] theorem State.withCtrlIn_sr (ws : List CmdWord) : (s.withCtrlIn ws).sr = s.sr := rfl
@[simp] theorem State.withCtrlIn_bs (ws : List CmdWord) : (s.withCtrlIn ws).bs = s.bs := rfl
@[simp] theorem State.withCtrlIn_mode (ws : List CmdWord) : (s.withCtrlIn ws).mode = s.mode := rfl
@[simp] theorem State.withCtrlIn_pmode (ws : List CmdWord) : (s.withCtrlIn ws).pmode = s.pmode := rfl
@[simp] theorem State.withCtrlIn_constructed (ws : List CmdWord) : (s.withCtrlIn ws).constructed = s.constructed := rfl
@[simp] theorem State.withCtrlIn_pendingValid (ws : List CmdWord) : (s.withCtrlIn ws).pendingValid = s.pendingValid := rfl
@[simp] theorem State.withCtrlIn_prevValid (ws : List CmdWord) : (s.withCtrlIn ws).prevValid = s.prevValid := rfl
@[simp] theorem State.withCtrlIn_idx (ws : List CmdWord) : (s.withCtrlIn ws).idx = s.idx := rfl
@[simp] theorem State.withCtrlIn_rsp (ws : List CmdWord) : (s.withCtrlIn ws).rsp = s.rsp := rfl
@[simp] theorem State.withCtrlIn_rspd (ws : List CmdWord) : (s.withCtrlIn ws).rspd = s.rspd := rfl
@[simp] theorem State.withCtrlIn_ctrlIn (ws : List CmdWord) : (s.withCtrlIn ws).ctrlIn = ws := rfl
@[simp] theorem State.withCtrlIn_dataIn (ws : List CmdWord) : (s.withCtrlIn ws).dataIn = s.dataIn := rfl
@[simp] theorem State.withCtrlIn_dataOut (ws : List CmdWord) : (s.withCtrlIn ws).dataOut = s.dataOut := rfl
@[simp] theorem State.withCtrlIn_resetIn (ws : List CmdWord) : (s.withCtrlIn ws).resetIn = s.resetIn := rfl
@[simp] theorem State.withCtrlIn_freeCount (ws : List CmdWord) : (s.withCtrlIn ws).freeCount = s.freeCount := rfl
@[simp] theorem State.withCtrlIn_hostMem (ws : List CmdWord) : (s.withCtrlIn ws).hostMem = s.hostMem := rfl

@[simp] theorem State.withDataIn_phase (bs : List Beat) : (s.withDataIn bs).phase = s.phase := rfl
@[simp] theorem State.withDataIn_frequency (bs : List Beat) : (s.withDataIn bs).frequency = s.frequency := rfl
@[simp] theorem State.withDataIn_alpha (bs : List Beat) : (s.withDataIn bs).alpha = s.alpha := rfl
@[simp] theorem State.withDataIn_beta (bs : List Beat) : (s.withDataIn bs).beta = s.beta := rfl
@[simp] theorem State.withDataIn_loLimit (bs : List Beat) : (s.withDataIn bs).loLimit = s.loLimit := rfl
@[simp] theorem State.withDataIn_hiLimit (bs : List Beat) : (s.withDataIn bs).hiLimit = s.hiLimit := rfl
@[simp] theorem State.withDataIn_amDc (bs : List Beat) : (s.withDataIn bs).amDc = s.amDc := rfl
@[simp] theorem State.withDataIn_amSmooth (bs : List Beat) : (s.withDataIn bs).amSmooth = s.amSmooth := rfl
@[simp] theorem State.withDataIn_samDc (bs : List Beat) : (s.withDataIn bs).samDc = s.samDc := rfl
@[simp] theorem State.withDataIn_lockCurrent (bs : List Beat) : (s.withDataIn bs).lockCurrent = s.lockCurrent := rfl
@[simp] theorem State.withDataIn_lockPrevious (bs : List Beat) : (s.withDataIn bs).lockPrevious = s.lockPrevious := rfl
@[simp] theorem State.withDataIn_afc (bs : List Beat) : (s.withDataIn bs).afc = s.afc := rfl
@[simp] theorem State.withDataIn_prevRe (bs : List Beat) : (s.withDataIn bs).prevRe = s.prevRe := rfl
@[simp] theorem State.withDataIn_prevIm (bs : List Beat) : (s.withDataIn bs).prevIm = s.prevIm := rfl
@[simp] theorem State.withDataIn_sr (bs : List Beat) : (s.withDataIn bs).sr = s.sr := rfl
@[simp] theorem State.withDataIn_bs (bs : List Beat) : (s.withDataIn bs).bs = s.bs := rfl
@[simp] theorem State.withDataIn_mode (bs : List Beat) : (s.withDataIn bs).mode = s.mode := rfl
@[simp] theorem State.withDataIn_pmode (bs : List Beat) : (s.withDataIn bs).pmode = s.pmode := rfl
@[simp] theorem State.withDataIn_constructed (bs : List Beat) : (s.withDataIn bs).constructed = s.constructed := rfl
@[simp] theorem State.withDataIn_pendingValid (bs : List Beat) : (s.withDataIn bs).pendingValid = s.pendingValid := rfl
@[simp] theorem State.withDataIn_prevValid (bs : List Beat) : (s.withDataIn bs).prevValid = s.prevValid := rfl
@[simp] theorem State.withDataIn_idx (bs : List Beat) : (s.withDataIn bs).idx = s.idx := rfl
@[simp] theorem State.withDataIn_rsp (bs : List Beat) : (s.withDataIn bs).rsp = s.rsp := rfl
@[simp] theorem State.withDataIn_rspd (bs : List Beat) : (s.withDataIn bs).rspd = s.rspd := rfl
@[simp] theorem State.withDataIn_ctrlIn (bs : List Beat) : (s.withDataIn bs).ctrlIn = s.ctrlIn := rfl
@[simp] theorem State.withDataIn_dataIn (bs : List Beat) : (s.withDataIn bs).dataIn = bs := rfl
@[simp] theorem State.withDataIn_dataOut (bs : List Beat) : (s.withDataIn bs).dataOut = s.dataOut := rfl
@[simp] theorem State.withDataIn_resetIn (bs : List Beat) : (s.withDataIn bs).resetIn = s.resetIn := rfl
@[simp] theorem State.withDataIn_freeCount (bs : List Beat) : (s.withDataIn bs).freeCount = s.freeCount := rfl
@[simp] theorem State.withDataIn_hostMem (bs : List Beat) : (s.withDataIn bs).hostMem = s.hostMem := rfl

@[simp] theorem State.withDataOut_phase (bs : List Beat) : (s.withDataOut bs).phase = s.phase := rfl
@[simp] theorem State.withDataOut_frequency (bs : List Beat) : (s.withDataOut bs).frequency = s.frequency := rfl
@[simp] theorem State.withDataOut_alpha (bs : List Beat) : (s.withDataOut bs).alpha = s.alpha := rfl
@[simp] theorem State.withDataOut_beta (bs : List Beat) : (s.withDataOut bs).beta = s.beta := rfl
@[simp] theorem State.withDataOut_loLimit (bs : List Beat) : (s.withDataOut bs).loLimit = s.loLimit := rfl
@[simp] theorem State.withDataOut_hiLimit (bs : List Beat) : (s.withDataOut bs).hiLimit = s.hiLimit := rfl
@[simp] theorem State.withDataOut_amDc (bs : List Beat) : (s.withDataOut bs).amDc = s.amDc := rfl
@[simp] theorem State.withDataOut_amSmooth (bs : List Beat) : (s.withDataOut bs).amSmooth = s.amSmooth := rfl
@[simp] theorem State.withDataOut_samDc (bs : List Beat) : (s.withDataOut bs).samDc = s.samDc := rfl
@[simp] theorem State.withDataOut_lockCurrent (bs : List Beat) : (s.withDataOut bs).lockCurrent = s.lockCurrent := rfl
@[simp] theorem State.withDataOut_lockPrevious (bs : List Beat) : (s.withDataOut bs).lockPrevious = s.lockPrevious := rfl
@[simp] theorem State.withDataOut_afc (bs : List Beat) : (s.withDataOut bs).afc = s.afc := rfl
@[simp] theorem State.withDataOut_prevRe (bs : List Beat) : (s.withDataOut bs).prevRe = s.prevRe := rfl
@[simp] theorem State.withDataOut_prevIm (bs : List Beat) : (s.withDataOut bs).prevIm = s.prevIm := rfl
@[simp] theorem State.withDataOut_sr (bs : List Beat) : (s.withDataOut bs).sr = s.sr := rfl
@[simp] theorem State.withDataOut_bs (bs : List Beat) : (s.withDataOut bs).bs = s.bs := rfl
@[simp] theorem State.withDataOut_mode (bs : List Beat) : (s.withDataOut bs).mode = s.mode := rfl
@[simp] theorem State.withDataOut_pmode (bs : List Beat) : (s.withDataOut bs).pmode = s.pmode := rfl
@[simp] theorem State.withDataOut_constructed (bs : List Beat) : (s.withDataOut bs).constructed = s.constructed := rfl
@[simp] theorem State.withDataOut_pendingValid (bs : List Beat) : (s.withDataOut bs).pendingValid = s.pendingValid := rfl
@[simp] theorem State.withDataOut_prevValid (bs : List Beat) : (s.withDataOut bs).prevValid = s.prevValid := rfl
@[simp] theorem State.withDataOut_idx (bs : List Beat) : (s.withDataOut bs).idx = s.idx := rfl
@[simp] theorem State.withDataOut_rsp (bs : List Beat) : (s.withDataOut bs).rsp = s.rsp := rfl
@[simp] theorem State.withDataOut_rspd (bs : List Beat) : (s.withDataOut bs).rspd = s.rspd := rfl
@[simp] theorem State.withDataOut_ctrlIn (bs : List Beat) : (s.withDataOut bs).ctrlIn = s.ctrlIn := rfl
@[simp] theorem State.withDataOut_dataIn (bs : List Beat) : (s.withDataOut bs).dataIn = s.dataIn := rfl
@[simp] theorem State.withDataOut_dataOut (bs : List Beat) : (s.withDataOut bs).dataOut = bs := rfl
@[simp] theorem State.withDataOut_resetIn (bs : List Beat) : (s.withDataOut bs).resetIn = s.resetIn := rfl
@[simp] theorem State.withDataOut_freeCount (bs : List Beat) : (s.withDataOut bs).freeCount = s.freeCount := rfl
@[simp] theorem State.withDataOut_hostMem (bs : List Beat) : (s.withDataOut bs).hostMem = s.hostMem := rfl

@[simp] theorem State.withHostMem_phase (m : Memory) : (s.withHostMem m).phase = s.phase := rfl
@[simp] theorem State.withHostMem_frequency (m : Memory) : (s.withHostMem m).frequency = s.frequency := rfl
@[simp] theorem State.withHostMem_alpha (m : Memory) : (s.withHostMem m).alpha = s.alpha := rfl
@[simp] theorem State.withHostMem_beta (m : Memory) : (s.withHostMem m).beta = s.beta := rfl
@[simp] theorem State.withHostMem_loLimit (m : Memory) : (s.withHostMem m).loLimit = s.loLimit := rfl
@[simp] theorem State.withHostMem_hiLimit (m : Memory) : (s.withHostMem m).hiLimit = s.hiLimit := rfl
@[simp] theorem State.withHostMem_amDc (m : Memory) : (s.withHostMem m).amDc = s.amDc := rfl
@[simp] theorem State.withHostMem_amSmooth (m : Memory) : (s.withHostMem m).amSmooth = s.amSmooth := rfl
@[simp] theorem State.withHostMem_samDc (m : Memory) : (s.withHostMem m).samDc = s.samDc := rfl
@[simp] theorem State.withHostMem_lockCurrent (m : Memory) : (s.withHostMem m).lockCurrent = s.lockCurrent := rfl
@[simp] theorem State.withHostMem_lockPrevious (m : Memory) : (s.withHostMem m).lockPrevious = s.lockPrevious := rfl
@[simp] theorem State.withHostMem_afc (m : Memory) : (s.withHostMem m).afc = s.afc := rfl
@[simp] theorem State.withHostMem_prevRe (m : Memory) : (s.withHostMem m).prevRe = s.prevRe := rfl
@[simp] theorem State.withHostMem_prevIm (m : Memory) : (s.withHostMem m).prevIm = s.prevIm := rfl
@[simp] theorem State.withHostMem_sr (m : Memory) : (s.withHostMem m).sr = s.sr := rfl
@[simp] theorem State.withHostMem_bs (m : Memory) : (s.withHostMem m).bs = s.bs := rfl
@[simp] theorem State.withHostMem_mode (m : Memory) : (s.withHostMem m).mode = s.mode := rfl
@[simp] theorem State.withHostMem_pmode (m : Memory) : (s.withHostMem m).pmode = s.pmode := rfl
@[simp] theorem State.withHostMem_constructed (m : Memory) : (s.withHostMem m).constructed = s.constructed := rfl
@[simp] theorem State.withHostMem_pendingValid (m : Memory) : (s.withHostMem m).pendingValid = s.pendingValid := rfl
@[simp] theorem State.withHostMem_prevValid (m : Memory) : (s.withHostMem m).prevValid = s.prevValid := rfl
@[simp] theorem State.withHostMem_idx (m : Memory) : (s.withHostMem m).idx = s.idx := rfl
@[simp] theorem State.withHostMem_rsp (m : Memory) : (s.withHostMem m).rsp = s.rsp := rfl
@[simp] theorem State.withHostMem_rspd (m : Memory) : (s.withHostMem m).rspd = s.rspd := rfl
@[simp] theorem State.withHostMem_ctrlIn (m : Memory) : (s.withHostMem m).ctrlIn = s.ctrlIn := rfl
@[simp] theorem State.withHostMem_dataIn (m : Memory) : (s.withHostMem m).dataIn = s.dataIn := rfl
@[simp] theorem State.withHostMem_dataOut (m : Memory) : (s.withHostMem m).dataOut = s.dataOut := rfl
@[simp] theorem State.withHostMem_resetIn (m : Memory) : (s.withHostMem m).resetIn = s.resetIn := rfl
@[simp] theorem State.withHostMem_freeCount (m : Memory) : (s.withHostMem m).freeCount = s.freeCount := rfl
@[simp] theorem State.withHostMem_hostMem (m : Memory) : (s.withHostMem m).hostMem = m := rfl

@[simp] theorem State.releaseReset_phase : (s.releaseReset).phase = s.phase := rfl
@[simp] theorem State.releaseReset_frequency : (s.releaseReset).frequency = s.frequency := rfl
@[simp] theorem State.releaseReset_alpha : (s.releaseReset).alpha = s.alpha := rfl
@[simp] theorem State.releaseReset_beta : (s.releaseReset).beta = s.beta := rfl
@[simp] theorem State.releaseReset_loLimit : (s.releaseReset).loLimit = s.loLimit := rfl
@[simp] theorem State.releaseReset_hiLimit : (s.releaseReset).hiLimit = s.hiLimit := rfl
@[simp] theorem State.releaseReset_amDc : (s.releaseReset).amDc = s.amDc := rfl
@[simp] theorem State.releaseReset_amSmooth : (s.releaseReset).amSmooth = s.amSmooth := rfl
@[simp] theorem State.releaseReset_samDc : (s.releaseReset).samDc = s.samDc := rfl
@[simp] theorem State.releaseReset_lockCurrent : (s.releaseReset).lockCurrent = s.lockCurrent := rfl
@[simp] theorem State.releaseReset_lockPrevious : (s.releaseReset).lockPrevious = s.lockPrevious := rfl
@[simp] theorem State.releaseReset_afc : (s.releaseReset).afc = s.afc := rfl
@[simp] theorem State.releaseReset_prevRe : (s.releaseReset).prevRe = s.prevRe := rfl
@[simp] theorem State.releaseReset_prevIm : (s.releaseReset).prevIm = s.prevIm := rfl
@[simp] theorem State.releaseReset_sr : (s.releaseReset).sr = s.sr := rfl
@[simp] theorem State.releaseReset_bs : (s.releaseReset).bs = s.bs := rfl
@[simp] theorem State.releaseReset_mode : (s.releaseReset).mode = s.mode := rfl
@[simp] theorem State.releaseReset_pmode : (s.releaseReset).pmode = s.pmode := rfl
@[simp] theorem State.releaseReset_constructed : (s.releaseReset).constructed = s.constructed := rfl
@[simp] theorem State.releaseReset_pendingValid : (s.releaseReset).pendingValid = s.pendingValid := rfl
@[simp] theorem State.releaseReset_prevValid : (s.releaseReset).prevValid = s.prevValid := rfl
@[simp] theorem State.releaseReset_idx : (s.releaseReset).idx = s.idx := rfl
@[simp] theorem State.releaseReset_rsp : (s.releaseReset).rsp = s.rsp := rfl
@[simp] theorem State.releaseReset_rspd : (s.releaseReset).rspd = s.rspd := rfl
@[simp] theorem State.releaseReset_ctrlIn : (s.releaseReset).ctrlIn = s.ctrlIn := rfl
@[simp] theorem State.releaseReset_dataIn : (s.releaseReset).dataIn = s.dataIn := rfl
@[simp] theorem State.releaseReset_dataOut : (s.releaseReset).dataOut = s.dataOut := rfl
@[simp] theorem State.releaseReset_resetIn : (s.releaseReset).resetIn = false := rfl
@[simp] theorem State.releaseReset_freeCount : (s.releaseReset).freeCount = s.freeCount := rfl
@[simp] theorem State.releaseReset_hostMem : (s.releaseReset).hostMem = s.hostMem := rfl

@[simp] theorem State.drawFree_phase : (s.drawFree).phase = s.phase := rfl
@[simp] theorem State.drawFree_frequency : (s.drawFree).frequency = s.frequency := rfl
@[simp] theorem State.drawFree_alpha : (s.drawFree).alpha = s.alpha := rfl
@[simp] theorem State.drawFree_beta : (s.drawFree).beta = s.beta := rfl
@[simp] theorem State.drawFree_loLimit : (s.drawFree).loLimit = s.loLimit := rfl
@[simp] theorem State.drawFree_hiLimit : (s.drawFree).hiLimit = s.hiLimit := rfl
@[simp] theorem State.drawFree_amDc : (s.drawFree).amDc = s.amDc := rfl
@[simp] theorem State.drawFree_amSmooth : (s.drawFree).amSmooth = s.amSmooth := rfl
@[simp] theorem State.drawFree_samDc : (s.drawFree).samDc = s.samDc := rfl
@[simp] theorem State.drawFree_lockCurrent : (s.drawFree).lockCurrent = s.lockCurrent := rfl
@[simp] theorem State.drawFree_lockPrevious : (s.drawFree).lockPrevious = s.lockPrevious := rfl
@[simp] theorem State.drawFree_afc : (s.drawFree).afc = s.afc := rfl
@[simp] theorem State.drawFree_prevRe : (s.drawFree).prevRe = s.prevRe := rfl
@[simp] theorem State.drawFree_prevIm : (s.drawFree).prevIm = s.prevIm := rfl
@[simp] theorem State.drawFree_sr : (s.drawFree).sr = s.sr := rfl
@[simp] theorem State.drawFree_bs : (s.drawFree).bs = s.bs := rfl
@[simp] theorem State.drawFree_mode : (s.drawFree).mode = s.mode := rfl
@[simp] theorem State.drawFree_pmode : (s.drawFree).pmode = s.pmode := rfl
@[simp] theorem State.drawFree_constructed : (s.drawFree).constructed = s.constructed := rfl
@[simp] theorem State.drawFree_pendingValid : (s.drawFree).pendingValid = s.pendingValid := rfl
@[simp] theorem State.drawFree_prevValid : (s.drawFree).prevValid = s.prevValid := rfl
@[simp] theorem State.drawFree_idx : (s.drawFree).idx = s.idx := rfl
@[simp] theorem State.drawFree_rsp : (s.drawFree).rsp = s.rsp := rfl
@[simp] theorem State.drawFree_rspd : (s.drawFree).rspd = s.rspd := rfl
@[simp] theorem State.drawFree_ctrlIn : (s.drawFree).ctrlIn = s.ctrlIn := rfl
@[simp] theorem State.drawFree_dataIn : (s.drawFree).dataIn = s.dataIn := rfl
@[simp] theorem State.drawFree_dataOut : (s.drawFree).dataOut = s.dataOut := rfl
@[simp] theorem State.drawFree_resetIn : (s.drawFree).resetIn = s.resetIn := rfl
@[simp] theorem State.drawFree_freeCount : (s.drawFree).freeCount = s.freeCount + 1 := rfl
@[simp] theorem State.drawFree_hostMem : (s.drawFree).hostMem = s.hostMem := rfl

@[simp] theorem State.unspecify_phase : (s.unspecify).phase = Config.freeRegister s.freeCount 0 := rfl
@[simp] theorem State.unspecify_frequency : (s.unspecify).frequency = Config.freeRegister s.freeCount 1 := rfl
@[simp] theorem State.unspecify_alpha : (s.unspecify).alpha = Config.freeRegister s.freeCount 2 := rfl
@[simp] theorem State.unspecify_beta : (s.unspecify).beta = Config.freeRegister s.freeCount 3 := rfl
@[simp] theorem State.unspecify_loLimit : (s.unspecify).loLimit = Config.freeRegister s.freeCount 4 := rfl
@[simp] theorem State.unspecify_hiLimit : (s.unspecify).hiLimit = Config.freeRegister s.freeCount 5 := rfl
@[simp] theorem State.unspecify_amDc : (s.unspecify).amDc = Config.freeRegister s.freeCount 6 := rfl
@[simp] theorem State.unspecify_amSmooth : (s.unspecify).amSmooth = Config.freeRegister s.freeCount 7 := rfl
@[simp] theorem State.unspecify_samDc : (s.unspecify).samDc = Config.freeRegister s.freeCount 8 := rfl
@[simp] theorem State.unspecify_lockCurrent : (s.unspecify).lockCurrent = Config.freeRegister s.freeCount 9 := rfl
@[simp] theorem State.unspecify_lockPrevious : (s.unspecify).lockPrevious = Config.freeRegister s.freeCount 10 := rfl
@[simp] theorem State.unspecify_afc : (s.unspecify).afc = Config.freeRegister s.freeCount 11 := rfl
@[simp] theorem State.unspecify_prevRe : (s.unspecify).prevRe = Config.freeRegister s.freeCount 12 := rfl
@[simp] theorem State.unspecify_prevIm : (s.unspecify).prevIm = Config.freeRegister s.freeCount 13 := rfl
@[simp] theorem State.unspecify_sr : (s.unspecify).sr = (Config.freeRegister s.freeCount 16).setWidth 32 := rfl
@[simp] theorem State.unspecify_bs : (s.unspecify).bs = (Config.freeRegister s.freeCount 17).setWidth 32 := rfl
@[simp] theorem State.unspecify_mode : (s.unspecify).mode = (Config.freeRegister s.freeCount 18).setWidth 4 := rfl
@[simp] theorem State.unspecify_pmode : (s.unspecify).pmode = (Config.freeRegister s.freeCount 19).setWidth 4 := rfl
@[simp] theorem State.unspecify_constructed : (s.unspecify).constructed = s.constructed := rfl
@[simp] theorem State.unspecify_pendingValid : (s.unspecify).pendingValid = s.pendingValid := rfl
@[simp] theorem State.unspecify_prevValid : (s.unspecify).prevValid = s.prevValid := rfl
@[simp] theorem State.unspecify_idx : (s.unspecify).idx = s.idx := rfl
@[simp] theorem State.unspecify_rsp : (s.unspecify).rsp = s.rsp := rfl
@[simp] theorem State.unspecify_rspd : (s.unspecify).rspd = s.rspd := rfl
@[simp] theorem State.unspecify_ctrlIn : (s.unspecify).ctrlIn = s.ctrlIn := rfl
@[simp] theorem State.unspecify_dataIn : (s.unspecify).dataIn = s.dataIn := rfl
@[simp] theorem State.unspecify_dataOut : (s.unspecify).dataOut = s.dataOut := rfl
@[simp] theorem State.unspecify_resetIn : (s.unspecify).resetIn = s.resetIn := rfl
@[simp] theorem State.unspecify_freeCount : (s.unspecify).freeCount = s.freeCount + 1 := rfl
@[simp] theorem State.unspecify_hostMem : (s.unspecify).hostMem = s.hostMem := rfl

@[simp] theorem State.applyMode_phase (m : ModeCode) : (s.applyMode m).phase = posZero := rfl
@[simp] theorem State.applyMode_frequency (m : ModeCode) : (s.applyMode m).frequency = posZero := rfl
@[simp] theorem State.applyMode_alpha (m : ModeCode) : (s.applyMode m).alpha = loopAlpha (modeCfg m).bandwidthHz s.sr := rfl
@[simp] theorem State.applyMode_beta (m : ModeCode) : (s.applyMode m).beta = loopBeta (loopAlpha (modeCfg m).bandwidthHz s.sr) := rfl
@[simp] theorem State.applyMode_loLimit (m : ModeCode) : (s.applyMode m).loLimit = captureLimit (modeCfg m).loLimitFactor s.sr := rfl
@[simp] theorem State.applyMode_hiLimit (m : ModeCode) : (s.applyMode m).hiLimit = captureLimit (modeCfg m).hiLimitFactor s.sr := rfl
@[simp] theorem State.applyMode_amDc (m : ModeCode) : (s.applyMode m).amDc = posZero := rfl
@[simp] theorem State.applyMode_amSmooth (m : ModeCode) : (s.applyMode m).amSmooth = posZero := rfl
@[simp] theorem State.applyMode_samDc (m : ModeCode) : (s.applyMode m).samDc = posZero := rfl
@[simp] theorem State.applyMode_lockCurrent (m : ModeCode) : (s.applyMode m).lockCurrent = c0_5 := rfl
@[simp] theorem State.applyMode_lockPrevious (m : ModeCode) : (s.applyMode m).lockPrevious = c1 := rfl
@[simp] theorem State.applyMode_afc (m : ModeCode) : (s.applyMode m).afc = posZero := rfl
@[simp] theorem State.applyMode_prevRe (m : ModeCode) : (s.applyMode m).prevRe = posZero := rfl
@[simp] theorem State.applyMode_prevIm (m : ModeCode) : (s.applyMode m).prevIm = posZero := rfl
@[simp] theorem State.applyMode_sr (m : ModeCode) : (s.applyMode m).sr = s.sr := rfl
@[simp] theorem State.applyMode_bs (m : ModeCode) : (s.applyMode m).bs = s.bs := rfl
@[simp] theorem State.applyMode_mode (m : ModeCode) : (s.applyMode m).mode = m := rfl
@[simp] theorem State.applyMode_pmode (m : ModeCode) : (s.applyMode m).pmode = s.pmode := rfl
@[simp] theorem State.applyMode_constructed (m : ModeCode) : (s.applyMode m).constructed = s.constructed := rfl
@[simp] theorem State.applyMode_pendingValid (m : ModeCode) : (s.applyMode m).pendingValid = s.pendingValid := rfl
@[simp] theorem State.applyMode_prevValid (m : ModeCode) : (s.applyMode m).prevValid = false := rfl
@[simp] theorem State.applyMode_idx (m : ModeCode) : (s.applyMode m).idx = s.idx := rfl
@[simp] theorem State.applyMode_rsp (m : ModeCode) : (s.applyMode m).rsp = s.rsp := rfl
@[simp] theorem State.applyMode_rspd (m : ModeCode) : (s.applyMode m).rspd = s.rspd := rfl
@[simp] theorem State.applyMode_ctrlIn (m : ModeCode) : (s.applyMode m).ctrlIn = s.ctrlIn := rfl
@[simp] theorem State.applyMode_dataIn (m : ModeCode) : (s.applyMode m).dataIn = s.dataIn := rfl
@[simp] theorem State.applyMode_dataOut (m : ModeCode) : (s.applyMode m).dataOut = s.dataOut := rfl
@[simp] theorem State.applyMode_resetIn (m : ModeCode) : (s.applyMode m).resetIn = s.resetIn := rfl
@[simp] theorem State.applyMode_freeCount (m : ModeCode) : (s.applyMode m).freeCount = s.freeCount := rfl
@[simp] theorem State.applyMode_hostMem (m : ModeCode) : (s.applyMode m).hostMem = s.hostMem := rfl

end Sys2Proof.Machine
end

