-- ==== Sys2Proof/Laws/Ops.lean ====
section
/-! SUPPORT. What the shared operations over the state can do: one lemma each, to be cited in place of the definition. -/

namespace Sys2Proof.Machine

/-! ## Responses and errors -/

@[simp] theorem respond_eq (s : State) (st : Status) (p : BitVec 8) :
    respond s st p = s.setRsp (responseWord st p) := rfl

@[simp] theorem raiseError_eq (s : State) (st : Status) (p : BitVec 8) :
    raiseError s st p = s.setRsp (responseWord st p) := rfl

theorem raiseIllegal_eq (s : State) : raiseIllegal s = s.setRsp 0x20000000#32 := rfl

theorem raiseNotConstructed_eq (s : State) : raiseNotConstructed s = s.setRsp 0x30000000#32 := rfl

theorem raiseConfig_eq (s : State) (e : BitVec 8) :
    raiseConfig s e = s.unspecify.clearFlags.setRsp (responseWord .errConfig e) := rfl

theorem responseWord_ok_zero : responseWord .ok 0#8 = 0#32 := rfl

/-- A concatenation as a number. -/
theorem toNat_append_eq {n m : Nat} (x : BitVec n) (y : BitVec m) : (x ++ y).toNat = x.toNat * 2 ^ m + y.toNat := by
  rw [BitVec.toNat_append, ← Nat.shiftLeft_add_eq_or_of_lt y.isLt, Nat.shiftLeft_eq]

/-- The fields of a response word. -/
theorem responseWord_toNat (st : Status) (p : BitVec 8) :
    (responseWord st p).toNat = (statusCode st).toNat * 2 ^ 28 + p.toNat := by
  unfold responseWord
  rw [toNat_append_eq, toNat_append_eq]
  simp only [BitVec.toNat_ofNat]
  omega

/-- A command that needs a constructed block runs in one, and answers ERR_NOT_CONSTRUCTED in any other. -/
theorem whenConstructed_of_constructed {s body : State} (h : s.constructed = true) : whenConstructed s body = body := by
  simp [whenConstructed, h]

theorem whenConstructed_of_not {s body : State} (h : s.constructed = false) :
    whenConstructed s body = raiseNotConstructed s := by
  simp [whenConstructed, h]

/-! ## The end of a sample step -/

/-- In mid-block the position moves on and nothing else changes. -/
theorem advance_inside {s : State} (h : s.idx.toNat + 1 ≠ s.bs.toNat) : advance s = s.setIdx (s.idx + 1#32) := by
  simp [advance, h]

/-- At the end of a block without a pending mode the position returns to 0 and nothing else changes. -/
theorem advance_end {s : State} (h : s.idx.toNat + 1 = s.bs.toNat) (hp : s.pendingValid = false) :
    advance s = s.setIdx 0#32 := by
  simp [advance, h, hp]

/-- At the end of a block a pending mode is applied in the same step. -/
theorem advance_end_pending {s : State} (h : s.idx.toNat + 1 = s.bs.toNat) (hp : s.pendingValid = true) :
    advance s = ((s.setIdx 0#32).clearPending).applyMode s.pmode := by
  simp [advance, h, hp]

/-- All that the end of a sample step can do. -/
theorem advance_cases (s : State) :
    (s.idx.toNat + 1 ≠ s.bs.toNat ∧ advance s = s.setIdx (s.idx + 1#32)) ∨
    (s.idx.toNat + 1 = s.bs.toNat ∧ s.pendingValid = false ∧ advance s = s.setIdx 0#32) ∨
    (s.idx.toNat + 1 = s.bs.toNat ∧ s.pendingValid = true ∧
      advance s = ((s.setIdx 0#32).clearPending).applyMode s.pmode) := by
  by_cases h : s.idx.toNat + 1 = s.bs.toNat
  · cases hp : s.pendingValid
    · exact .inr (.inl ⟨h, rfl, advance_end h hp⟩)
    · exact .inr (.inr ⟨h, rfl, advance_end_pending h hp⟩)
  · exact .inl ⟨h, advance_inside h⟩

/-- What the end of a sample step leaves alone whichever way it goes. -/
theorem advance_frame (s : State) :
    (advance s).sr = s.sr ∧ (advance s).bs = s.bs ∧ (advance s).constructed = s.constructed ∧
    (advance s).pmode = s.pmode ∧ (advance s).rsp = s.rsp ∧ (advance s).rspd = s.rspd ∧
    (advance s).ctrlIn = s.ctrlIn ∧ (advance s).dataIn = s.dataIn ∧ (advance s).dataOut = s.dataOut ∧
    (advance s).resetIn = s.resetIn ∧ (advance s).freeCount = s.freeCount ∧ (advance s).hostMem = s.hostMem := by
  obtain ⟨_, h⟩ | ⟨_, _, h⟩ | ⟨_, _, h⟩ := advance_cases s <;> simp [h]

/-- All that a sample step can do: it waits while the block is not constructed, emits one beat and advances where its mode
gives a result, and stops in the hang where it gives none. -/
theorem sampleStep_cases (f : Beat → State → Option (Beat × State)) (b : Beat) (s : State) :
    (s.constructed = false ∧ sampleStep f b s = .next s) ∨
    (s.constructed = true ∧ f b s = none ∧ sampleStep f b s = .fault .wrapHang) ∨
    (s.constructed = true ∧ ∃ o t, f b s = some (o, t) ∧ sampleStep f b s = .next (advance (t.emit o))) := by
  cases hc : s.constructed
  · exact .inl ⟨rfl, by simp [sampleStep, hc]⟩
  · cases hf : f b s with
    | none => exact .inr (.inl ⟨rfl, rfl, by simp [sampleStep, hc, hf]⟩)
    | some r => exact .inr (.inr ⟨rfl, r.1, r.2, rfl, by simp [sampleStep, hc, hf]⟩)

/-! ## Power-on reset -/

theorem powerOn_eq (s : State) :
    powerOn s = (((s.unspecify.clearFlags).setRsp 0#32).setRspd 0#64).releaseReset := rfl

/-! ## The register read -/

/-- RDSTATE finds a register exactly at the legal indices. -/
theorem readRegister_isSome_iff (s : State) (n : Nat) : (readRegister s n).isSome = true ↔ n ≤ 21 := by
  constructor
  · intro h
    by_contra hn
    have hnone : readRegister s n = none := by
      unfold readRegister
      split <;> first | rfl | (exfalso; omega)
    simp [hnone] at h
  · intro h
    interval_cases n <;> rfl

end Sys2Proof.Machine
end

