-- ==== Sys2Proof/Laws/Params.lean ====
section
/-! SUPPORT. The parameters keep to the limits of the spec, and a raw constant that keeps to them stands as it is. -/

namespace Sys2Proof.Machine

/-- Property S1 of 40_numerics.md R84. -/
theorem numSin_posZero : numSin posZero = posZero := by simp [numSin]

/-- Property S1 of R84. -/
theorem numCos_posZero : numCos posZero = c1 := by simp [numCos]

/-- Property S2 of R84. -/
theorem numSin_range {x : F64} (h : fisFinite x = true) : inUnitRange (numSin x) = true := by
  have h0 : inUnitRange posZero = true := by decide +kernel
  unfold numSin
  split
  · exact h0
  · split
    · exact h0
    · next hc => simpa [h] using hc

/-- Property S2 of R84. -/
theorem numCos_range {x : F64} (h : fisFinite x = true) : inUnitRange (numCos x) = true := by
  have h1 : inUnitRange c1 = true := by decide +kernel
  unfold numCos
  split
  · exact h1
  · split
    · exact h1
    · next hc => simpa [h] using hc

/-- A sine with the properties of R84 stands as it is. -/
theorem numSin_of_legal (h0 : Config.rawSin posZero = posZero)
    (h : ∀ x, fisFinite x = true → inUnitRange (Config.rawSin x) = true) : numSin = Config.rawSin := by
  funext x
  unfold numSin
  split
  · next hx => rw [hx, h0]
  · split
    · next hc => simp only [Bool.and_eq_true, Bool.not_eq_true'] at hc; simp [h x hc.1] at hc
    · rfl

/-- A cosine with the properties of R84 stands as it is. -/
theorem numCos_of_legal (h0 : Config.rawCos posZero = c1)
    (h : ∀ x, fisFinite x = true → inUnitRange (Config.rawCos x) = true) : numCos = Config.rawCos := by
  funext x
  unfold numCos
  split
  · next hx => rw [hx, h0]
  · split
    · next hc => simp only [Bool.and_eq_true, Bool.not_eq_true'] at hc; simp [h x hc.1] at hc
    · rfl

/-- Properties A1 and A3 of R83 where the sign bit of `y` is clear. -/
theorem atan2Upper_legal (y x : F64) : atan2Legal y (atan2Upper y x) = true := by
  have h0 : atan2Legal y posZero = true := by
    have h1 : inUpperRange posZero = true := by decide +kernel
    have h2 : inPiRange posZero = true := by decide +kernel
    unfold atan2Legal
    split <;> assumption
  unfold atan2Upper
  split
  · exact h0
  · split
    · assumption
    · exact h0

/-- Property A3 of R83: a positive `y` has a result that is not negative. -/
theorem atan2Upper_nonneg {y : F64} (h : y ≠ posZero) (x : F64) : inUpperRange (atan2Upper y x) = true := by
  simpa [atan2Legal, h] using atan2Upper_legal y x

/-- The half of A1's range is part of it. -/
theorem inPiRange_of_upper {r : F64} (h : inUpperRange r = true) : inPiRange r = true := by
  have hn : forder (fneg piConst) ≤ forder posZero := by decide +kernel
  have hp : fisNaN (fneg piConst) = false := by decide +kernel
  simp only [inUpperRange, inPiRange, fle, Bool.and_eq_true, Bool.not_eq_true', decide_eq_true_eq] at h ⊢
  exact ⟨⟨⟨hp, h.1.1.2⟩, le_trans hn h.1.2⟩, h.2⟩

/-- Property A1 of R83 where the sign bit of `y` is clear. -/
theorem atan2Upper_range (y x : F64) : inPiRange (atan2Upper y x) = true := by
  by_cases h : y = posZero
  · simpa [atan2Legal, h] using atan2Upper_legal y x
  · exact inPiRange_of_upper (atan2Upper_nonneg h x)

/-- Property A2 of R83. -/
theorem numAtan2_posZero_posZero : numAtan2 posZero posZero = posZero := by decide +kernel

/-- Property A2 of R83. -/
theorem numAtan2_posZero_of_pos {x : F64} (h : flt posZero x = true) : numAtan2 posZero x = posZero := by
  have hx : fisNaN x = false := by
    simp only [flt, Bool.and_eq_true, Bool.not_eq_true'] at h
    exact h.1.2
  have h1 : fisNaN posZero = false := by decide +kernel
  have h2 : fsign posZero = false := by decide +kernel
  simp [numAtan2, hx, h1, h2, atan2Upper, atan2Fixed, h]

/-- Property A3 of R83: `atan2(-y, x) = -atan2(y, x)`. -/
theorem numAtan2_fneg {y x : F64} (hy : fisNaN y = false) (hx : fisNaN x = false) :
    numAtan2 (fneg y) x = fneg (numAtan2 y x) := by
  cases hs : fsign y <;> simp [numAtan2, hy, hx, hs]

/-- An arctangent with the properties of R83 stands as it is, on all operands that are no NaN. -/
theorem numAtan2_of_legal
    (hfix : ∀ y x, atan2Fixed y x = true → Config.rawAtan2 y x = posZero)
    (hlegal : ∀ y x, fisNaN y = false → fisNaN x = false → fsign y = false → atan2Legal y (Config.rawAtan2 y x) = true)
    (hodd : ∀ y x, fisNaN y = false → fisNaN x = false → Config.rawAtan2 (fneg y) x = fneg (Config.rawAtan2 y x))
    {y x : F64} (hy : fisNaN y = false) (hx : fisNaN x = false) : numAtan2 y x = Config.rawAtan2 y x := by
  have upper : ∀ y, fisNaN y = false → fsign y = false → atan2Upper y x = Config.rawAtan2 y x := by
    intro y hy hs
    unfold atan2Upper
    split
    · next hf => exact (hfix y x hf).symm
    · rw [if_pos (hlegal y x hy hx hs)]
  cases hs : fsign y
  · simp [numAtan2, hy, hx, hs, upper y hy hs]
  · have hu := upper (fneg y) (by simpa using hy) (by simp [hs])
    simp [numAtan2, hy, hx, hs, hu, hodd y x hy hx]

/-- A NaN in both operands comes through (41_pll_track.md R98). -/
theorem numAtan2_nan {y x : F64} (hy : fisNaN y = true) (hx : fisNaN x = true) : fisNaN (numAtan2 y x) = true := by
  simp [numAtan2, hy, hx]

/-- Every row of `MODE_CFG` keeps to the constraint of 00_scope.md R8. -/
theorem modeCfg_legal (m : ModeCode) : rowLegal (modeCfg m) = true := by
  unfold modeCfg
  split
  · assumption
  · decide +kernel

/-- A row that keeps to the constraint stands as it is. -/
theorem modeCfg_of_legal {m : ModeCode} (h : rowLegal (Config.rawModeCfg m) = true) : modeCfg m = Config.rawModeCfg m := by
  simp [modeCfg, h]

/-- The default table keeps to the constraint. -/
theorem defaultModeCfg_legal : ∀ m : ModeCode, rowLegal (defaultModeCfg m) = true := by decide +kernel

end Sys2Proof.Machine
end

