-- ==== Sys2Proof/Laws/PerInstr.lean ====
section
/-! SUPPORT. Per instruction: the selector of its encoding, the bits the opcode table numbers, agrees with the table's
row on the fixed bits of that row. -/

namespace Sys2Proof.Laws.MatchesTable

/-- The fixed bits of a row of spec/opcode_table.json: `match` and `mask`. -/
structure Row where
  pattern : Nat
  mask : Nat
deriving DecidableEq, Repr

/-- The row of an instruction. -/
def row : Instr → Row
  | .init _ _ => ⟨0x01000000, 0xFFFFFFFF⟩
  | .setmode _ => ⟨0x02000000, 0xFFFFFFF0⟩
  | .getmode => ⟨0x03000000, 0xFFFFFFFF⟩
  | .rdstate _ => ⟨0x04000000, 0xFFFFFFE0⟩
  | .sampleAm _ => ⟨0x0, 0xF⟩
  | .sampleSam _ => ⟨0x1, 0xF⟩
  | .sampleFmn _ => ⟨0x2, 0xF⟩
  | .sampleFmw _ => ⟨0x3, 0xF⟩
  | .sampleDsb _ => ⟨0x4, 0xF⟩
  | .sampleLsb _ => ⟨0x5, 0xF⟩
  | .sampleUsb _ => ⟨0x6, 0xF⟩
  | .sampleCwl _ => ⟨0x7, 0xF⟩
  | .sampleCwu _ => ⟨0x8, 0xF⟩
  | .sampleDigl _ => ⟨0x9, 0xF⟩
  | .sampleDigu _ => ⟨0xA, 0xF⟩
  | .sampleNone _ => ⟨0xB, 0xF⟩
  | .trackSam _ => ⟨0x1, 0x1⟩
  | .trackFm _ => ⟨0x0, 0x1⟩

/-- The bits a row is matched against: the first word of a command, MODE for a beat, `tv` for a micro-operation. -/
def selector : Encoding → Nat
  | .command (w :: _) => w.toNat
  | .command [] => 0
  | .beat mode _ => mode.toNat
  | .micro tv _ => if tv then 1 else 0

/-- The encoding of an instruction carries its row's fixed bits. -/
def Statement (i : Instr) : Prop := selector (encode i) &&& (row i).mask = (row i).pattern

theorem init (sampleRate blockSize : BitVec 32) : Statement (.init sampleRate blockSize) := by
  show (commandWord 1#8 0#5).toNat &&& 0xFFFFFFFF = 0x01000000
  decide

theorem setmode (code : ModeCode) : Statement (.setmode code) := by
  unfold Statement
  revert code
  decide

theorem getmode : Statement .getmode := by
  show (commandWord 3#8 0#5).toNat &&& 0xFFFFFFFF = 0x03000000
  decide

theorem rdstate (index : BitVec 5) : Statement (.rdstate index) := by
  unfold Statement
  revert index
  decide

theorem sampleAm (beat : Beat) : Statement (.sampleAm beat) := by
  show (0#4).toNat &&& 0xF = 0x0
  decide

theorem sampleSam (beat : Beat) : Statement (.sampleSam beat) := by
  show (1#4).toNat &&& 0xF = 0x1
  decide

theorem sampleFmn (beat : Beat) : Statement (.sampleFmn beat) := by
  show (2#4).toNat &&& 0xF = 0x2
  decide

theorem sampleFmw (beat : Beat) : Statement (.sampleFmw beat) := by
  show (3#4).toNat &&& 0xF = 0x3
  decide

theorem sampleDsb (beat : Beat) : Statement (.sampleDsb beat) := by
  show (4#4).toNat &&& 0xF = 0x4
  decide

theorem sampleLsb (beat : Beat) : Statement (.sampleLsb beat) := by
  show (5#4).toNat &&& 0xF = 0x5
  decide

theorem sampleUsb (beat : Beat) : Statement (.sampleUsb beat) := by
  show (6#4).toNat &&& 0xF = 0x6
  decide

theorem sampleCwl (beat : Beat) : Statement (.sampleCwl beat) := by
  show (7#4).toNat &&& 0xF = 0x7
  decide

theorem sampleCwu (beat : Beat) : Statement (.sampleCwu beat) := by
  show (8#4).toNat &&& 0xF = 0x8
  decide

theorem sampleDigl (beat : Beat) : Statement (.sampleDigl beat) := by
  show (9#4).toNat &&& 0xF = 0x9
  decide

theorem sampleDigu (beat : Beat) : Statement (.sampleDigu beat) := by
  show (10#4).toNat &&& 0xF = 0xA
  decide

theorem sampleNone (beat : Beat) : Statement (.sampleNone beat) := by
  show (11#4).toNat &&& 0xF = 0xB
  decide

theorem trackSam (beat : Beat) : Statement (.trackSam beat) := by
  show (if true then 1 else 0) &&& 0x1 = 0x1
  decide

theorem trackFm (beat : Beat) : Statement (.trackFm beat) := by
  show (if false then 1 else 0) &&& 0x1 = 0x0
  decide

end Sys2Proof.Laws.MatchesTable
end

