-- ==== Sys2Proof/Laws/Ports.lean ====
section
/-! SUPPORT. What the ports and the reset input can do: one lemma each, to be cited in place of the definition. -/

namespace Sys2Proof.Machine

/-- Which agent can be granted. -/
theorem grantedAgent_cases (s : State) :
    (commandReady s = true ∧ beatReady s = true ∧ grantedAgent s = some (Config.arbiter s.freeCount)) ∨
    (commandReady s = true ∧ beatReady s = false ∧ grantedAgent s = some .control) ∨
    (commandReady s = false ∧ beatReady s = true ∧ grantedAgent s = some .data) ∨
    (commandReady s = false ∧ beatReady s = false ∧ grantedAgent s = none) := by
  cases hc : commandReady s <;> cases hb : beatReady s <;> simp [grantedAgent, hc, hb]

/-- A command is ready wherever the control agent is granted. -/
theorem commandReady_of_control {s : State} (h : grantedAgent s = some .control) : commandReady s = true := by
  obtain ⟨hc, -⟩ | ⟨hc, -⟩ | ⟨-, -, hg⟩ | ⟨-, -, hg⟩ := grantedAgent_cases s
  · exact hc
  · exact hc
  · simp [h] at hg
  · simp [h] at hg

/-- Words that are no whole command are all the command's own. -/
theorem commandRest_of_not_ready {s : State} (h : commandReady s = false) : commandRest s.ctrlIn = [] := by
  simp only [commandReady, decide_eq_false_iff_not, not_not] at h
  simp [commandRest, h]

/-- A cut step touches the two input ports alone. -/
theorem abandonRequest_eq (s : State) :
    ∃ words beats, abandonRequest s = (s.withCtrlIn words).withDataIn beats := ⟨_, _, rfl⟩

/-- A command whose step is cut is gone. -/
theorem abandonRequest_control {s : State} (h : grantedAgent s = some .control) :
    abandonRequest s = (s.withCtrlIn (commandRest s.ctrlIn)).withDataIn s.dataIn := by
  simp [abandonRequest, h]

/-- A beat whose step is cut is gone, and a command that was not granted still stands. -/
theorem abandonRequest_data {s : State} (h : grantedAgent s = some .data) :
    abandonRequest s =
      (s.withCtrlIn (if commandReady s then s.ctrlIn else commandRest s.ctrlIn)).withDataIn s.dataIn.tail := by
  simp [abandonRequest, h]

/-- The reset input comes before any request. -/
theorem step_reset {s : State} (h : s.resetIn = true) : step s = .next (powerOn (abandonRequest s)) := by
  simp [step, h]

end Sys2Proof.Machine
end

