-- ==== Sys2Proof/Laws/Track.lean ====
section
/-! SUPPORT. What the loop filter and the steps that run it can do: one lemma each, to be cited in place of the
definition. -/

namespace Sys2Proof.Machine

/-! ## The wrap -/

/-- Wherever an iteration ends, it ends in range. -/
theorem wrapLoop_range {fuel : Nat} {p r : F64} (h : wrapLoop fuel p = some r) :
    fle posZero r = true ∧ flt r twoPi = true := by
  induction fuel generalizing p with
  | zero => simp [wrapLoop] at h
  | succ n ih =>
    unfold wrapLoop at h
    split at h
    · split at h
      · cases h
      · exact ih h
    · split at h
      · split at h
        · cases h
        · exact ih h
      · split at h
        · next hr =>
          cases h
          simpa using hr
        · cases h

/-- A wrap that ends, ends in range. -/
theorem wrap_range {p r : F64} (h : wrap p = some r) : fle posZero r = true ∧ flt r twoPi = true := by
  unfold wrap at h
  exact wrapLoop_range h

/-- A NaN never comes back into range. -/
theorem wrap_nan {p : F64} (h : fisNaN p = true) : wrap p = none := by
  unfold wrap
  cases wrapFuel with
  | zero => rfl
  | succ n => simp [wrapLoop, fle_nan (.inr h), flt_nan (.inl h)]

/-! ## The frequency and phase updates -/

/-- A NaN passes the clamp (R95, R98). -/
theorem clampFrequency_nan (lo hi : F64) {f : F64} (h : fisNaN f = true) : clampFrequency lo hi f = f := by
  simp [clampFrequency, flt_nan (.inl h), flt_nan (.inr h)]

/-- A NaN phase difference hangs the wrap (R98). -/
theorem loopUpdate_nan (s : State) {d : F64} (h : fisNaN d = true) : loopUpdate s d = none := by
  have hp : fisNaN (nextPhaseRaw s d) = true := fadd_nan (.inr (fadd_nan (.inr (fmul_nan (.inr h)))))
  simp [loopUpdate, wrap_nan hp]

theorem loopUpdate_some {s : State} {d p : F64} (h : wrap (nextPhaseRaw s d) = some p) :
    loopUpdate s d = some (s.setLoop (nextFrequency s d) p) := by
  simp [loopUpdate, h]

theorem loopUpdate_none {s : State} {d : F64} (h : wrap (nextPhaseRaw s d) = none) : loopUpdate s d = none := by
  simp [loopUpdate, h]

/-- All that the updates can do. -/
theorem loopUpdate_eq_some {s t : State} {d : F64} (h : loopUpdate s d = some t) :
    ∃ p, wrap (nextPhaseRaw s d) = some p ∧ t = s.setLoop (nextFrequency s d) p := by
  unfold loopUpdate at h
  split at h
  · next p hp => exact ⟨p, hp, (Option.some.inj h).symm⟩
  · cases h

/-- A NaN anywhere in the sample hangs both variants (R98). -/
theorem track_nan (s : State) {x : ComplexSample} (h : fisNaN x.re = true ∨ fisNaN x.im = true) :
    trackSamOp x s = none ∧ trackFmOp x s = none := by
  have hc : fisNaN (cphase (demix s x)) = true := by
    have := cmul_nan (localReference s) h
    exact numAtan2_nan this.2 this.1
  exact ⟨loopUpdate_nan s (fmul_nan (.inr hc)), loopUpdate_nan s hc⟩

/-- A micro-operation run by itself: its one next state, or the hang. -/
theorem microStep_cases (r : Option State) :
    (∃ t, r = some t ∧ microStep r = .next t) ∨ (r = none ∧ microStep r = .fault .wrapHang) := by
  cases r with
  | none => exact .inr ⟨rfl, rfl⟩
  | some t => exact .inl ⟨t, rfl, rfl⟩

/-! ## The steps that run Track -/

/-- All that a beat can do in mode SAM. -/
theorem demodSam_eq_some {b o : Beat} {s t : State} (h : demodSam b s = some (o, t)) :
    ∃ u, trackSamOp (unpackBeat b) s = some u ∧ samFinish (demix s (unpackBeat b)) u = (o, t) := by
  unfold demodSam at h
  split at h
  · next u hu => exact ⟨u, hu, Option.some.inj h⟩
  · cases h

/-- All that the loop feedback of FM can do. -/
theorem fmLoopStep_eq_some {strap : Bool} {x : ComplexSample} {s t : State} (h : fmLoopStep strap x s = some t) :
    (strap = false ∧ t = s) ∨
    (strap = true ∧ ∃ u, trackFmOp x s = some u ∧ t = u.setAfc (Config.afcUpdate u.afc u.frequency)) := by
  unfold fmLoopStep at h
  cases strap with
  | false => exact .inl ⟨rfl, (Option.some.inj h).symm⟩
  | true =>
    simp only [if_true] at h
    unfold fmFeedback at h
    split at h
    · next u hu => exact .inr ⟨rfl, u, hu, (Option.some.inj h).symm⟩
    · cases h

/-- All that a beat can do in the FM modes. -/
theorem demodFmWith_eq_some {strap : Bool} {b o : Beat} {s t : State} (h : demodFmWith strap b s = some (o, t)) :
    ∃ u, fmLoopStep strap (unpackBeat b) s = some u ∧ fmFinish (unpackBeat b) u = (o, t) := by
  unfold demodFmWith at h
  split at h
  · next u hu => exact ⟨u, hu, Option.some.inj h⟩
  · cases h

end Sys2Proof.Machine
end

