-- ==== Sys2Proof/Tests/Slice0.lean ====
section
/-! SUPPORT. Tests. Expected values are those of spec/95_test_vectors.md (the section is named at each group) or written
out by hand from the encodings of spec/30_encoding.md; the second half shows, for each statement of
Certificates/Slice0/Obligations.lean that has hypotheses, a state and operands that meet them. -/

namespace Sys2Proof.Tests

-- one theorem after another: each `decide +kernel` that waits for the ones before it would hold a thread of its own
set_option Elab.async false

open Sys2Proof Sys2Proof.Machine Sys2Proof.Safety

/-! ## Helpers -/

/-- A part of the next state, where there is one. -/
def after {α : Type} (o : Host.Outcome State Fault Refusal) (part : State → α) : Option α :=
  match o with
  | .next t => some (part t)
  | .fault _ => none
  | .refused _ => none

/-- A constructed block in a mode at the start of a block of four samples, SR 48000, the loop at rest and open. -/
def up (m : ModeCode) : State :=
  { State.reset with constructed := true, sr := 48000#32, bs := 4#32, mode := m, lockCurrent := c0_5, lockPrevious := c1 }

/-- The same with the SAM coefficients of section 4.2. -/
def upSam : State :=
  { up 1#4 with
    alpha := 0x3F88209F5B22BAA6#64, beta := 0x3F0231104A83F01B#64
    loLimit := 0xBFD0C152382D7365#64, hiLimit := 0x3FD0C152382D7365#64 }

/-- A loop whose phase the wrap cannot bring back: the frequency is 2^60, inside limits of 0 and 2^61. -/
def stuck (m : ModeCode) : State :=
  { up m with frequency := 0x43B0000000000000#64, hiLimit := 0x43C0000000000000#64 }

/-- `(1.0, 0.0)`. -/
def bOne : Beat := 0x00000000000000003FF0000000000000#128

/-- `(0.0, 1.0)`. -/
def bI : Beat := 0x3FF00000000000000000000000000000#128

/-- `(-0.6, 0.8)`. -/
def bMixed : Beat := 0x3FE999999999999ABFE3333333333333#128

/-! ## WellFormed smoke (30_encoding.md R65, R68) -/

theorem test_wf_rdstate_21 : (Instr.rdstate 21#5).wellFormed = true := by decide
theorem test_wf_rdstate_22 : (Instr.rdstate 22#5).wellFormed = false := by decide
theorem test_wf_rdstate_31 : (Instr.rdstate 31#5).wellFormed = false := by decide

/-! ## Each instruction's encoding, written out (sections 4.1 and 8; 30_encoding.md R66, R67, R73) -/

theorem test_decode_init :
    decode (.command [0x01000000#32, 0xFFFFFFFF#32, 0x80000000#32]) = some (.init 0xFFFFFFFF#32 0x80000000#32) := by decide
theorem test_decode_setmode : decode (.command [0x0200000B#32]) = some (.setmode 11#4) := by decide
theorem test_decode_getmode : decode (.command [0x03000000#32]) = some .getmode := by decide
theorem test_decode_rdstate : decode (.command [0x0400000D#32]) = some (.rdstate 13#5) := by decide
theorem test_decode_sampleAm : decode (.beat 0b0000#4 bOne) = some (.sampleAm bOne) := by decide
theorem test_decode_sampleSam : decode (.beat 0b0001#4 bOne) = some (.sampleSam bOne) := by decide
theorem test_decode_sampleFmn : decode (.beat 0b0010#4 bOne) = some (.sampleFmn bOne) := by decide
theorem test_decode_sampleFmw : decode (.beat 0b0011#4 bOne) = some (.sampleFmw bOne) := by decide
theorem test_decode_sampleDsb : decode (.beat 0b0100#4 bOne) = some (.sampleDsb bOne) := by decide
theorem test_decode_sampleLsb : decode (.beat 0b0101#4 bOne) = some (.sampleLsb bOne) := by decide
theorem test_decode_sampleUsb : decode (.beat 0b0110#4 bOne) = some (.sampleUsb bOne) := by decide
theorem test_decode_sampleCwl : decode (.beat 0b0111#4 bOne) = some (.sampleCwl bOne) := by decide
theorem test_decode_sampleCwu : decode (.beat 0b1000#4 bOne) = some (.sampleCwu bOne) := by decide
theorem test_decode_sampleDigl : decode (.beat 0b1001#4 bOne) = some (.sampleDigl bOne) := by decide
theorem test_decode_sampleDigu : decode (.beat 0b1010#4 bOne) = some (.sampleDigu bOne) := by decide
theorem test_decode_sampleNone : decode (.beat 0b1011#4 bOne) = some (.sampleNone bOne) := by decide
theorem test_decode_trackSam : decode (.micro true bOne) = some (.trackSam bOne) := by decide
theorem test_decode_trackFm : decode (.micro false bOne) = some (.trackFm bOne) := by decide

/-- The illegal first words of section 4.1. -/
theorem test_decode_illegal :
    decodeCommand [0x00000000#32] = .illegal .unknownOpcode [] ∧
    decodeCommand [0xFFFFFFFF#32] = .illegal .unknownOpcode [] ∧
    decodeCommand [0x05000000#32] = .illegal .unknownOpcode [] ∧
    decodeCommand [0x02000010#32] = .illegal .argumentNotZero [] ∧
    decodeCommand [0x02000100#32] = .illegal .reservedBitsSet [] ∧
    decodeCommand [0x02000021#32] = .illegal .reservedBitsSet [] ∧
    decodeCommand [0x03000001#32] = .illegal .argumentNotZero [] ∧
    decodeCommand [0x01000001#32, 0x03000000#32] = .illegal .argumentNotZero [0x03000000#32] ∧
    decodeCommand [0x04000016#32] = .illegal .registerIndexReserved [] := by decide

/-- INIT is whole only with both operand words, and the bytes of `init 8000, 1` are little-endian (20_memory.md R48). -/
theorem test_decode_init_bytes :
    decodeCommand [0x01000000#32, 0x00001F40#32] = .incomplete ∧
    decodeBytes [0x00#8, 0x00#8, 0x00#8, 0x01#8, 0x40#8, 0x1F#8, 0x00#8, 0x00#8, 0x01#8, 0x00#8, 0x00#8, 0x00#8] =
      .command (.init 8000#32 1#32) [] := by decide

/-- The opcode table's numbering (assumption 9). -/
theorem test_decode_table_word :
    decodeTableWord 32 0x03000000 = some .getmode ∧ decodeTableWord 96 (0x01000000 + 0x0000BB80 * 2 ^ 32 + 2048 * 2 ^ 64) =
      some (.init 48000#32 2048#32) ∧ decodeTableWord 8 0x7 = some (.sampleCwl 0#128) := by decide

theorem test_fetch_word :
    grantedAgent (State.reset.withFetchWord 32 0x02000001) = some .control ∧
    decodeCommand (State.reset.withFetchWord 32 0x02000001).ctrlIn = .command (.setmode 1#4) [0#32, 0#32] ∧
    grantedAgent (State.reset.withFetchWord 8 0x6) = some .data := by decide +kernel

/-! ## Numerics (section 2) -/

theorem test_cmul :
    cmul ⟨0x3FF0000000000000#64, 0x4000000000000000#64⟩ ⟨0x4008000000000000#64, 0x4010000000000000#64⟩ =
      ⟨0xC014000000000000#64, 0x4024000000000000#64⟩ := by decide +kernel
theorem test_conj_zero : conj ⟨0#64, 0#64⟩ = ⟨0#64, 0x8000000000000000#64⟩ := by decide +kernel
theorem test_mag :
    mag ⟨0x4008000000000000#64, 0x4010000000000000#64⟩ = 0x4014000000000000#64 ∧
    mag ⟨0xBFE3333333333333#64, 0x3FE999999999999A#64⟩ = c1 ∧
    mag ⟨0x4000000000000000#64, 0x4000000000000000#64⟩ = 0x4006A09E667F3BCD#64 ∧
    mag ⟨0x8000000000000000#64, 0#64⟩ = posZero := by decide +kernel
theorem test_f64_and_constants :
    fofInt32 48000#32 = 0x40E7700000000000#64 ∧ radiansPerHertz 48000#32 = 0x3F212843CF07A12C#64 ∧
    fadd c0_9999 c0_0001 = c1 ∧ fofInt32 0x80000000#32 = 0xC1E0000000000000#64 := by decide +kernel

/-! ## Track and the wrap (sections 3.1 and 3.3) -/

theorem test_wrap_table :
    wrap 0x401921FB54442D18#64 = some posZero ∧
    wrap 0x401921FB54442D17#64 = some 0x401921FB54442D17#64 ∧
    wrap 0x402A21FB54442D18#64 = some c0_5 ∧
    wrap 0xBFE0000000000000#64 = some 0x401721FB54442D18#64 ∧
    wrap 0xC01921FB54442D18#64 = some posZero ∧
    wrap 0xBC30000000000000#64 = some posZero ∧
    wrap negZero = some negZero := by decide +kernel

theorem test_wrap_hang :
    wrap 0x7FF0000000000000#64 = none ∧ wrap 0xFFF0000000000000#64 = none ∧ wrap 0x7FF8000000000000#64 = none ∧
    wrap 0x43B0000000000000#64 = none := by decide +kernel

theorem test_trackSam : after (exec (.trackSam bOne) upSam) (fun t => (t.frequency, t.phase)) = some (posZero, posZero) := by
  decide +kernel

/-- A frequency beyond a limit is clamped to it, at difference `+0.0`. -/
theorem test_trackFm_clamp :
    after (exec (.trackFm bOne) { upSam with frequency := c1 }) (fun t => (t.frequency, t.phase)) =
      some (0x3FD0C152382D7365#64, 0x3FD0C152382D7365#64) ∧
    after (exec (.trackFm bOne) { upSam with frequency := cNeg1 }) (fun t => t.frequency) =
      some 0xBFD0C152382D7365#64 := by decide +kernel

/-! ## The loop coefficients (section 4.2) -/

theorem test_coefficients_48000 :
    loopAlpha c300 48000#32 = 0x3F88209F5B22BAA6#64 ∧ loopBeta (loopAlpha c300 48000#32) = 0x3F0231104A83F01B#64 ∧
    captureLimit (fneg c2000) 48000#32 = 0xBFD0C152382D7365#64 ∧ captureLimit c2000 48000#32 = 0x3FD0C152382D7365#64 ∧
    loopAlpha c5000 48000#32 = 0x3FC921FB54442D17#64 ∧ loopBeta (loopAlpha c5000 48000#32) = 0x3F83BD3CC9BE45DC#64 ∧
    captureLimit c6000 48000#32 = 0x3FE921FB54442D17#64 := by decide +kernel

theorem test_coefficients_edges :
    loopAlpha c300 1#32 = 0x4081ABE4B73FEFB5#64 ∧ loopBeta (loopAlpha c300 1#32) = 0x40F3847CBAFA42D5#64 ∧
    loopAlpha c300 2147483647#32 = 0x3E91ABE4B763477F#64 ∧
    loopBeta (loopAlpha c300 2147483647#32) = 0x3D13847CBB4854CA#64 ∧
    captureLimit c2000 2147483647#32 = 0x3ED88B2F707BAA69#64 := by decide +kernel

/-! ## Commands (sections 4.1 and 8) -/

theorem test_init_rejected :
    after (exec (.init 0#32 2048#32) State.reset) (fun t => t.rsp) = some 0x10000001#32 ∧
    after (exec (.init 48000#32 0#32) State.reset) (fun t => t.rsp) = some 0x10000002#32 ∧
    after (exec (.init 0xFFFFFFFF#32 0x80000000#32) (up 0#4)) (fun t => (t.rsp, t.constructed)) =
      some (0x10000003#32, false) := by decide +kernel

theorem test_init :
    after (exec (.init 48000#32 2048#32) State.reset)
      (fun t => (t.rsp, t.constructed, t.sr, t.bs, t.lockCurrent)) =
      some (0#32, true, 48000#32, 2048#32, c0_5) := by decide +kernel

theorem test_setmode_boundary :
    after (exec (.setmode 13#4) (up 6#4)) (fun t => (t.rsp, t.mode, t.pendingValid)) = some (0#32, 0#4, false) := by
  decide +kernel

theorem test_setmode_latched :
    after (exec (.setmode 6#4) { up 2#4 with idx := 2#32 }) (fun t => (t.mode, t.pmode, t.pendingValid)) =
      some (2#4, 6#4, true) := by decide +kernel

theorem test_getmode :
    after (exec .getmode { up 2#4 with idx := 2#32, pmode := 6#4, pendingValid := true }) (fun t => t.rsp) =
      some 6#32 ∧
    after (exec .getmode State.reset) (fun t => t.rsp) = some 0x30000000#32 := by decide +kernel

theorem test_rdstate :
    after (exec (.rdstate 20#5) { up 2#4 with pendingValid := true, prevValid := true }) (fun t => t.rspd) = some 7#64 ∧
    after (exec (.rdstate 16#5) (up 0#4)) (fun t => t.rspd) = some 0xBB80#64 ∧
    after (exec (.rdstate 4#5) upSam) (fun t => t.rspd) = some 0xBFD0C152382D7365#64 ∧
    after (exec (.rdstate 14#5) upSam) (fun t => t.rspd) = some 0#64 ∧
    after (exec (.rdstate 22#5) State.reset) (fun t => t.rsp) = some 0x20000000#32 := by decide +kernel

/-! ## Sample steps (sections 4.3, 5, 6 and 7) -/

/-- Steps 0 and 2 of section 5. -/
theorem test_am_step_0 :
    after (exec (.sampleAm bOne) (up 0#4)) (fun t => (t.amDc, t.amSmooth, t.dataOut, t.idx)) =
      some (0x3F1A36E2EB1C432D#64, 0x3FDFFF2E48E8A71E#64, [0x3FCFFF2E48E8A71E3FCFFF2E48E8A71E#128], 1#32) := by
  decide +kernel

theorem test_am_step_2 :
    after (exec (.sampleAm bMixed) { up 0#4 with amDc := 0x3F2A368D04E0BA6B#64, amSmooth := 0x3FE7FEF9DDD202C2#64 })
      (fun t => (t.amDc, t.amSmooth, t.dataOut)) =
      some (0x3F33A8A958155ED7#64, 0x3FEBFE426453800B#64, [0x3FDBFE426453800B3FDBFE426453800B#128]) := by
  decide +kernel

/-- Step 0 of section 6; the lock trackers are those of the default LOCK_UPDATE (45_sam.md R131). -/
theorem test_sam_step_0 :
    after (exec (.sampleSam bOne) upSam) (fun t => (t.samDc, t.phase, t.frequency, t.dataOut)) =
      some (0x3F1A36E2EB1C432D#64, posZero, posZero, [0x3FDFFF2E48E8A71E3FDFFF2E48E8A71E#128]) := by decide +kernel

theorem test_sam_default_lock :
    defaultLockUpdate c0_5 c1 posZero = (0x3FDFF7CED916872B#64, c0_5) ∧
    (defaultLockUpdate c0_5 c1 c1).1 = 0x3FE004189374BC6A#64 := by decide +kernel

/-- The exact rows of section 7, without the loop: `(0.0, -1.0)` after itself, and `(0.0, 0.0)` after `(0.0, 1.0)`. -/
theorem test_fm_disc :
    disc ⟨0#64, 0xBFF0000000000000#64⟩ ⟨0#64, 0xBFF0000000000000#64⟩ = posZero ∧
    disc ⟨0#64, 0#64⟩ ⟨0#64, c1⟩ = posZero ∧ disc ⟨c0_5, c0_5⟩ ⟨0#64, 0#64⟩ = posZero := by decide +kernel

/-- The products of the first row of section 7 (the discriminator of the second is NUM). -/
theorem test_fm_product :
    cmul ⟨0#64, c1⟩ (conj ⟨c1, 0#64⟩) = ⟨posZero, c1⟩ ∧ cmul ⟨cNeg1, 0#64⟩ (conj ⟨0#64, c1⟩) = ⟨posZero, c1⟩ ∧
    cmul ⟨0#64, cNeg1⟩ (conj ⟨cNeg1, 0#64⟩) = ⟨negZero, c1⟩ := by decide +kernel

/-- The first FM sample of a run (section 4.4), in both FM modes, under either setting of the strap. -/
theorem test_fm_first :
    after (exec (.sampleFmn bOne) (up 2#4)) (fun t => (t.dataOut, t.prevRe, t.prevIm, t.prevValid)) =
      some ([0#128], c1, posZero, true) ∧
    after (exec (.sampleFmw bOne) (up 3#4)) (fun t => t.dataOut) = some [0#128] := by
  simp only [exec, execSampleFmn, execSampleFmw, sampleStep, demodFm]
  generalize Config.fmLoop = strap
  revert strap
  decide +kernel

/-- The pass-through steps on the beats of section 4.3: signed zeros, NaN payloads, infinities and subnormals. -/
theorem test_pass_through :
    after (exec (.sampleDsb 0x3FF0000000000000BFE0000000000000#128) (up 4#4)) State.dataOut =
      some [0x3FF0000000000000BFE0000000000000#128] ∧
    after (exec (.sampleLsb 0x80000000000000000000000000000000#128) (up 5#4)) State.dataOut =
      some [0x80000000000000000000000000000000#128] ∧
    after (exec (.sampleUsb 0x00000000000000007FF8000000000001#128) (up 6#4)) State.dataOut =
      some [0x00000000000000007FF8000000000001#128] ∧
    after (exec (.sampleCwl 0xFFF00000000000007FF0000000000000#128) (up 7#4)) State.dataOut =
      some [0xFFF00000000000007FF0000000000000#128] ∧
    after (exec (.sampleCwu 0x0000000000000001800FFFFFFFFFFFFF#128) (up 8#4)) State.dataOut =
      some [0x0000000000000001800FFFFFFFFFFFFF#128] ∧
    after (exec (.sampleDigl 0#128) (up 9#4)) State.dataOut = some [0#128] ∧
    after (exec (.sampleDigu bOne) (up 10#4)) State.dataOut = some [bOne] ∧
    after (exec (.sampleNone bI) (up 11#4)) State.dataOut = some [bI] := by decide +kernel

/-- The end of a block applies the pending mode (42_dispatch.md R111; program P3 of section 8). -/
theorem test_block_end :
    after (exec (.sampleUsb bOne) { up 6#4 with idx := 3#32, pmode := 11#4, pendingValid := true, prevValid := true })
      (fun t => (t.idx, t.mode, t.pendingValid, t.prevValid)) = some (0#32, 11#4, false, false) := by decide +kernel

/-! ## The host tool (sections 1.1, 1.2, 4.1 and 8 P1) -/

theorem test_assembler :
    parseLine "init -1, -2147483648 ; both operands" = .ok (some (.init 0xFFFFFFFF#32 0x80000000#32)) ∧
    parseLine "SETMODE #15" = .ok (some (.setmodeCode 15#4)) ∧
    parseLine "rdstate amDc" = .ok (some (.rdstate 6#5)) ∧
    parseLine "   ; nothing" = .ok none ∧ parseLine "frob 1" = .error .unknownMnemonic := by decide +kernel

theorem test_assembler_sample :
    parseLine "sample -0.6, 0.8" = .ok (some (.sample ⟨0xBFE3333333333333#64, 0x3FE999999999999A#64⟩)) ∧
    parseLine "sample 0x1.82p-7, 1e-1" = .ok (some (.sample ⟨0x3F88200000000000#64, 0x3FB999999999999A#64⟩)) := by
  decide +kernel

theorem test_names : nameToMode "bogus" = 0#4 ∧ nameToMode "am" = 0#4 ∧ modeToName 10#4 = some "DIGU" := by decide +kernel

/-- The first element of program P1, in place, as the host's memory holds it. -/
theorem test_process_block :
    after (processBlock 0x1000 0x1000
      { up 0#4 with bs := 1#32, hostMem := [(0x1006, 0xF0#8), (0x1007, 0x3F#8)] })
      (fun t => (memReadBeat t.hostMem 0x1000, t.hostMem.take 3, t.dataOut)) =
      some (0x3FCFFF2E48E8A71E3FCFFF2E48E8A71E#128, [(0x1000, 0x1E#8), (0x1001, 0xA7#8), (0x1002, 0xE8#8)], []) := by
  decide +kernel

/-! ## Witnesses: what each statement with hypotheses assumes, met by a state and operands (the statement's name ends the
theorem's) -/

theorem test_witness_DecodeOfEncodeIsTheInstruction :
    (Instr.rdstate 21#5).wellFormed = true ∧ (Instr.setmode 15#4).wellFormed = true ∧
    (Instr.trackFm bOne).wellFormed = true := by decide

theorem test_witness_CommandWordsRoundTrip :
    ((Instr.init 0x80000000#32 1#32).wellFormed = true ∧
      encode (.init 0x80000000#32 1#32) = .command [0x01000000#32, 0x80000000#32, 1#32]) ∧
    decodeCommand [0x04000015#32, 0x03000000#32] = .command (.rdstate 21#5) [0x03000000#32] := by decide

/-- A block that is not constructed with one illegal word on the control port, and every clause that makes a word
illegal. -/
theorem test_witness_IllegalCommandAnswersAndChangesNothing :
    (let s : State := { State.reset with ctrlIn := [0x04000016#32] }
     decodeCommand s.ctrlIn = .illegal .registerIndexReserved [] ∧ s.resetIn = false ∧
       grantedAgent s = some .control) ∧
    (let s : State := { up 0#4 with ctrlIn := [0x05000000#32, 0x03000000#32] }
     decodeCommand s.ctrlIn = .illegal .unknownOpcode [0x03000000#32] ∧ s.resetIn = false ∧
       grantedAgent s = some .control) ∧
    decodeCommand [0x00FFFFFF#32] = .illegal .unknownOpcode [] ∧ decodeCommand [0x02000020#32] = .illegal .reservedBitsSet [] ∧
    decodeCommand [0x0280001F#32] = .illegal .reservedBitsSet [] ∧
    decodeCommand [0x0300001F#32] = .illegal .argumentNotZero [] ∧
    decodeCommand [0x0200001F#32] = .illegal .argumentNotZero [] ∧ 21 < (22#5).toNat := by decide +kernel

theorem test_witness_InitFollowsItsRule :
    (0 < (1#32).toInt ∧ 0 < (0x7FFFFFFF#32).toInt) ∧ ((0#32).toInt ≤ 0 ∧ (0x80000000#32).toInt ≤ 0) := by decide

theorem test_witness_RejectedInitClosesTheBlock :
    ((0#32).toInt ≤ 0 ∨ (1#32).toInt ≤ 0) ∧ (∃ t, exec (.init 0#32 1#32) (up 1#4) = .next t) ∧ (21#5).toNat ≤ 21 :=
  ⟨by decide, ⟨_, rfl⟩, by decide⟩

theorem test_witness_InitOverwritesEverything :
    let s := up 1#4
    let t := State.reset.setAm c1 c1
    0 < (1#32).toInt ∧ s.rspd = t.rspd ∧ s.ctrlIn = t.ctrlIn ∧ s.dataIn = t.dataIn ∧ s.dataOut = t.dataOut ∧
      s.resetIn = t.resetIn ∧ s.freeCount = t.freeCount ∧ s.hostMem = t.hostMem ∧ s ≠ t := by decide +kernel

theorem test_witness_SetmodeFollowsItsRule :
    ((up 2#4).constructed = true ∧ (up 2#4).idx = 0#32) ∧
    (({ up 2#4 with idx := 3#32 } : State).constructed = true ∧ ({ up 2#4 with idx := 3#32 } : State).idx ≠ 0#32) ∧
    State.reset.constructed = false := by decide

theorem test_witness_LastSetmodeWins :
    (up 2#4).constructed = true ∧
    (∃ t u, exec (.setmode 6#4) (up 2#4) = .next t ∧ exec (.setmode 15#4) t = .next u) ∧
    (∃ t u, exec (.setmode 6#4) { up 2#4 with idx := 3#32 } = .next t ∧ exec (.setmode 15#4) t = .next u) ∧
    0 < (1#32).toInt :=
  ⟨rfl, ⟨_, _, rfl, rfl⟩, ⟨_, _, rfl, rfl⟩, by decide⟩

theorem test_witness_GetmodeFollowsItsRule : (up 11#4).constructed = true ∧ State.reset.constructed = false := by decide

theorem test_witness_GetmodeAnswersTheModeRequested : (up 0#4).constructed = true := by decide

theorem test_witness_RdstateFollowsItsRule :
    (up 1#4).constructed = true ∧ (State.reset.constructed = false ∧ (21#5).toNat ≤ 21) := by decide

theorem test_witness_NotConstructedAnswersAndChangesNothing :
    State.reset.constructed = false ∧ (Instr.rdstate 21#5).wellFormed = true := by decide

/-- Two states that differ in registers of every kind ApplyMode writes. -/
theorem test_witness_ApplyModeForgetsWhatItWrites :
    let s := up 6#4
    let t : State := { upSam with phase := c1, prevValid := true, amDc := c1, afc := c1 }
    s.sr = t.sr ∧ s.bs = t.bs ∧ s.pmode = t.pmode ∧ s.constructed = t.constructed ∧ s.pendingValid = t.pendingValid ∧
      s.idx = t.idx ∧ s.rsp = t.rsp ∧ s.rspd = t.rspd ∧ s.ctrlIn = t.ctrlIn ∧ s.dataIn = t.dataIn ∧
      s.dataOut = t.dataOut ∧ s.resetIn = t.resetIn ∧ s.freeCount = t.freeCount ∧ s.hostMem = t.hostMem ∧
      s.mode ≠ t.mode ∧ s.alpha ≠ t.alpha ∧ s.loLimit ≠ t.loLimit := by decide +kernel

/-- A next state of an INIT and of an instruction that is none. -/
theorem test_witness_OnlyInitChangesTheRates :
    (∃ t, exec (.init 8000#32 1#32) (up 0#4) = .next t ∧ t.sr ≠ (up 0#4).sr) ∧
    ∃ t, exec (.sampleNone bOne) (up 11#4) = .next t :=
  ⟨⟨_, rfl, by decide⟩, ⟨_, rfl⟩⟩

/-- A next state in which the mode has changed, for each of the three ways. -/
theorem test_witness_OnlyModeRequestsChangeTheMode :
    (∃ t, exec (.init 8000#32 1#32) (up 6#4) = .next t ∧ t.mode ≠ (up 6#4).mode) ∧
    (∃ t, exec (.setmode 6#4) (up 1#4) = .next t ∧ t.mode ≠ (up 1#4).mode) ∧
    ∃ t, exec (.sampleNone bOne) { up 11#4 with bs := 1#32, pmode := 6#4, pendingValid := true } = .next t ∧
      t.mode ≠ 11#4 :=
  ⟨⟨_, rfl, by decide⟩, ⟨_, rfl, by decide⟩, ⟨_, rfl, by decide⟩⟩

theorem test_witness_DefaultCoefficientsAreBounded : 0 < (1#32).toInt ∧ 0 < (0x7FFFFFFF#32).toInt := by decide

theorem test_witness_AdvanceFollowsItsRule :
    (up 0#4).idx.toNat + 1 ≠ (up 0#4).bs.toNat ∧
    (({ up 0#4 with idx := 3#32 } : State).idx.toNat + 1 = (up 0#4).bs.toNat ∧ (up 0#4).pendingValid = false) ∧
    ({ up 0#4 with idx := 3#32, pendingValid := true } : State).pendingValid = true := by decide

theorem test_witness_PassThroughCopiesTheBeat : (up 4#4).constructed = true := by decide

theorem test_witness_AmStepFollowsItsRule : (up 0#4).constructed = true := by decide

/-- The raw phase of the statement is `nextPhaseRaw` of the SAM detector: one that wraps and one that hangs. -/
theorem test_witness_SamStepFollowsItsRule :
    (upSam.constructed = true ∧ wrap (nextPhaseRaw upSam (samDifference upSam (unpackBeat bOne))) = some posZero) ∧
    ((stuck 1#4).constructed = true ∧
      wrap (nextPhaseRaw (stuck 1#4) (samDifference (stuck 1#4) (unpackBeat bOne))) = none) := by decide +kernel

/-- The raw phase of the statement is `nextPhaseRaw` of the FM detector. -/
theorem test_witness_FmStepsFollowTheirRule :
    ((up 2#4).constructed = true ∧ wrap (nextPhaseRaw (up 2#4) (fmDifference (up 2#4) (unpackBeat bOne))) = some posZero) ∧
    ((stuck 2#4).constructed = true ∧
      wrap (nextPhaseRaw (stuck 2#4) (fmDifference (stuck 2#4) (unpackBeat bOne))) = none) := by decide +kernel

theorem test_witness_FmAudioDoesNotDependOnTheLoop : ∃ o t, demodFmWith true bOne (up 2#4) = some (o, t) := by
  have h : (demodFmWith true bOne (up 2#4)).isSome = true := by decide +kernel
  obtain ⟨r, hr⟩ := Option.isSome_iff_exists.1 h
  exact ⟨r.1, r.2, hr⟩

/-- A first FM sample has a next state under either setting of the strap. -/
theorem test_witness_FirstFmOutputIsSilence :
    (up 2#4).constructed = true ∧ (up 2#4).prevValid = false ∧ ∃ t, exec (.sampleFmn bOne) (up 2#4) = .next t := by
  refine ⟨rfl, rfl, ?_⟩
  have h : ∀ strap : Bool, (demodFmWith strap bOne (up 2#4)).isSome = true := by decide +kernel
  obtain ⟨r, hr⟩ := Option.isSome_iff_exists.1 (h Config.fmLoop)
  exact ⟨_, by simp only [exec, execSampleFmn, sampleStep, demodFm, hr]; rfl⟩

theorem test_witness_RepeatedFmSampleIsSilence :
    laneInContract defaultInMax c2 = true ∧ laneInContract defaultInMax negZero = true := by decide +kernel

theorem test_witness_FmOutputIsBounded :
    fisNaN (cmul ⟨cNeg1, 0#64⟩ (conj ⟨c1, 0#64⟩)).re = false ∧
    fisNaN (cmul ⟨cNeg1, 0#64⟩ (conj ⟨c1, 0#64⟩)).im = false := by decide +kernel

theorem test_witness_AmStaysBounded :
    let s := (up 0#4).setAm c4 (fneg c4)
    s.constructed = true ∧ inContract defaultInMax (packBeat ⟨c2, fneg c2⟩) = true ∧ fle posZero s.amDc = true ∧
      fle s.amDc c4 = true ∧ fle (fabs s.amSmooth) c4 = true := by decide +kernel

theorem test_witness_AmDcNeverNegative :
    fisNaN (unpackBeat bOne).re = false ∧ fisNaN (unpackBeat bOne).im = false ∧ fle posZero (up 0#4).amDc = true ∧
    (after (exec (.sampleAm bOne) (up 0#4)) State.idx).isSome = true := by decide +kernel

theorem test_witness_OneOutputBeatForEachInputBeat :
    (up 11#4).constructed = true ∧ (∃ t, exec (decodeBeat 11#4 bOne) (up 11#4) = .next t) ∧
    ∃ t, exec (decodeBeat 0#4 bOne) (up 0#4) = .next t :=
  ⟨rfl, ⟨_, rfl⟩, ⟨_, rfl⟩⟩

theorem test_witness_ModeFixesTheRegistersWritten :
    (up 4#4).constructed = true ∧ (∃ t, exec (decodeBeat 4#4 bOne) (up 4#4) = .next t) ∧
    ∃ t, exec (decodeBeat 0#4 bOne) (up 0#4) = .next t :=
  ⟨rfl, ⟨_, rfl⟩, ⟨_, rfl⟩⟩

theorem test_witness_BeatsWaitUntilConstructed :
    let s : State := { State.reset with dataIn := [bOne] }
    s.constructed = false ∧ s.resetIn = false ∧ s.ctrlIn = [] ∧ s.dataIn = bOne :: [] := by decide

theorem test_witness_TrackSamFollowsItsRule :
    wrap (nextPhaseRaw upSam (samDifference upSam (unpackBeat bOne))) = some posZero ∧
    wrap (nextPhaseRaw (stuck 1#4) (samDifference (stuck 1#4) (unpackBeat bOne))) = none := by decide +kernel

theorem test_witness_TrackFmFollowsItsRule :
    wrap (nextPhaseRaw upSam (fmDifference upSam (unpackBeat bOne))) = some posZero ∧
    wrap (nextPhaseRaw (stuck 2#4) (fmDifference (stuck 2#4) (unpackBeat bOne))) = none := by decide +kernel

theorem test_witness_TrackPreservesTheRanges :
    fle upSam.loLimit upSam.hiLimit = true ∧ ∃ t, exec (.trackSam bOne) upSam = .next t := by
  refine ⟨by decide +kernel, ?_⟩
  have h : (trackSamOp (unpackBeat bOne) upSam).isSome = true := by decide +kernel
  obtain ⟨t, ht⟩ := Option.isSome_iff_exists.1 h
  exact ⟨t, by simp only [exec, execTrackSam, ht, microStep]⟩

theorem test_witness_TrackEndsInsideTheContract :
    upSam.constructed = true ∧ LoopBounded upSam ∧ inContract defaultInMax (packBeat ⟨c2, fneg c2⟩) = true := by
  refine ⟨rfl, ⟨?_, ?_, ?_, ?_, ?_, ?_⟩, ?_⟩ <;> decide +kernel

theorem test_witness_RoundingIsToNearestEven : 0 < 3 := by decide

theorem test_witness_ArithmeticIsOneRounding :
    (fisFinite c1 = true ∧ fisFinite cNeg1 = true ∧ fsignedUnits c1 + fsignedUnits cNeg1 = 0 ∧ fisZero cNeg1 = false) ∧
    (fisFinite c2 = true ∧ fisFinite 0x7FEFFFFFFFFFFFFF#64 = true ∧
      fsignedUnits c2 + fsignedUnits 0x7FEFFFFFFFFFFFFF#64 ≠ 0) := by decide +kernel

theorem test_witness_SquareRootIsNearest :
    fisFinite 1#64 = true ∧ fsign 1#64 = false ∧ fisZero 1#64 = false := by decide +kernel

theorem test_witness_ComplexProductLaws :
    let s : ComplexSample := ⟨c1, 0x7FF0000000000000#64⟩
    let t : ComplexSample := ⟨negZero, cNeg1⟩
    fisNaN s.re = false ∧ fisNaN s.im = false ∧ fisNaN t.re = false ∧ fisNaN t.im = false := by decide +kernel

theorem test_witness_MagnitudeIsNotNegative :
    (fisNaN 0x7FF0000000000000#64 = false ∧ fisNaN cNeg1 = false) ∧ (fisZero negZero = true ∧ fisZero posZero = true) := by
  decide +kernel

/-- A command alone, a beat alone, and both at once. -/
theorem test_witness_StepRunsTheDecodedInstruction :
    (let s : State := { State.reset with ctrlIn := [0x03000000#32] }
     s.resetIn = false ∧ decodeCommand s.ctrlIn = .command .getmode [] ∧ grantedAgent s = some .control ∧
       commandReady s = true ∧ beatReady s = false) ∧
    (let s : State := { up 11#4 with dataIn := [bOne] }
     s.resetIn = false ∧ s.dataIn = bOne :: [] ∧ grantedAgent s = some .data ∧ commandReady s = false ∧
       beatReady s = true) ∧
    (let s : State := { up 11#4 with dataIn := [bOne], ctrlIn := [0x03000000#32] }
     commandReady s = true ∧ beatReady s = true) := by decide +kernel

/-- INIT with one of its operand words still to come is no request. -/
theorem test_witness_NoRequestNoChange :
    let s : State := { State.reset with ctrlIn := [0x01000000#32, 1#32], dataIn := [bOne] }
    s.resetIn = false ∧ commandReady s = false ∧ beatReady s = false := by decide +kernel

/-- The reset input over a beat whose step hangs, over a command, over an illegal word, and over an INIT half sent. -/
theorem test_witness_ResetInputClearsTheFlags :
    (let s : State := { stuck 1#4 with resetIn := true, dataIn := [bOne, bI] }
     s.resetIn = true ∧ grantedAgent s = some .data ∧ commandReady s = false) ∧
    (let s : State := { up 0#4 with resetIn := true, ctrlIn := [0x03000000#32, 0x03000000#32] }
     grantedAgent s = some .control ∧ decodeCommand s.ctrlIn = .command .getmode [0x03000000#32]) ∧
    (let s : State := { up 0#4 with resetIn := true, ctrlIn := [0x05000000#32] }
     grantedAgent s = some .control ∧ decodeCommand s.ctrlIn = .illegal .unknownOpcode []) ∧
    (let s : State := { up 0#4 with resetIn := true, ctrlIn := [0x01000000#32, 1#32] }
     grantedAgent s = none ∧ commandReady s = false) := by decide +kernel

/-- A reset in the middle of a hanging sample step takes the step's beat with it (70_reset_and_hazards.md R159). -/
theorem test_reset_abandons :
    after (step { stuck 1#4 with resetIn := true, dataIn := [bOne, bI], ctrlIn := [0x01000000#32, 1#32] })
      (fun t => (t.constructed, t.ctrlIn, t.dataIn, t.dataOut)) = some (false, [], [bI], []) := by decide +kernel

/-- The state after `init 48000, 4` is legal, whatever `MODE_CFG` is. -/
theorem initialise_legal : Legal (initialise 48000#32 4#32 State.reset) := by
  have hrow : rowLegal (modeCfg 0#4) = true := modeCfg_legal 0#4
  have hk : fisFinite (radiansPerHertz 48000#32) = true := by decide +kernel
  have hs : fsign (radiansPerHertz 48000#32) = false := by decide +kernel
  simp only [rowLegal, Bool.and_eq_true] at hrow
  refine ⟨fun _ => ⟨?_, ?_, ?_, ?_, ?_, ?_, ⟨rfl, rfl, rfl, rfl⟩, ?_, ?_⟩, fun h => ?_, ⟨?_, ?_⟩, rfl⟩
  · decide
  · decide
  · decide
  · decide
  · decide
  · intro h; exact absurd h (by decide)
  · show (fle posZero posZero && flt posZero twoPi) = true
    decide +kernel
  · show (fle (captureLimit (modeCfg 0#4).loLimitFactor 48000#32) posZero &&
      fle posZero (captureLimit (modeCfg 0#4).hiLimitFactor 48000#32)) = true
    rw [captureLimit, captureLimit, fmul_nonpos hrow.1.1.1.1.2 hk hs hrow.1.2, fmul_nonneg hrow.1.1.1.2 hk hs hrow.2]
    rfl
  · exact absurd h (by decide)
  · decide
  · decide

/-- A constructed block that stands still, and a block that an INIT on the control port constructs. -/
theorem test_witness_EveryStepKeepsLegality :
    (Legal (initialise 48000#32 4#32 State.reset) ∧
      ∃ t, step (initialise 48000#32 4#32 State.reset) = .next t) ∧
    ∃ t, step { initialise 48000#32 4#32 State.reset with ctrlIn := [0x02000001#32] } = .next t ∧ t.mode = 1#4 :=
  ⟨⟨initialise_legal, _, rfl⟩, ⟨_, rfl, rfl⟩⟩

theorem test_witness_NoStateLeaksAcrossAModeSwitch :
    Legal (initialise 48000#32 4#32 State.reset) ∧ NoStaleState (initialise 48000#32 4#32 State.reset) ∧
    ∃ t, step (initialise 48000#32 4#32 State.reset) = .next t ∧ t.constructed = true :=
  ⟨initialise_legal,
    ⟨fun h => absurd rfl h, fun _ => ⟨rfl, rfl, rfl⟩, fun _ _ => ⟨rfl, rfl, rfl, rfl⟩, fun _ _ _ => ⟨rfl, rfl⟩⟩,
    _, rfl, rfl⟩

theorem test_witness_UnspecifiedRegistersAreUnobservable :
    let s : State := { State.reset with ctrlIn := [0x03000000#32] }
    let t : State := { State.reset.setAm c1 c1 with ctrlIn := [0x03000000#32] }
    s.constructed = false ∧ AgreeButUnspecified s t ∧ s ≠ t ∧ ∃ u, step s = .next u :=
  ⟨rfl, ⟨rfl, rfl, rfl, rfl, rfl, rfl, rfl, rfl, rfl, rfl, rfl, rfl⟩, by decide, _, rfl⟩

theorem test_witness_TheBlockMakesNoAddressedAccess :
    (∃ t, exec (.sampleNone bOne) (up 11#4) = .next t) ∧ ∃ t, step { up 11#4 with dataIn := [bOne] } = .next t :=
  ⟨⟨_, rfl⟩, ⟨_, rfl⟩⟩

theorem test_witness_SampleMemoryHoldsBeats :
    Memory.wf [(15, 1#8), (16, 2#8), (31, 3#8), (32, 4#8)] = true ∧ (15 < 16 ∨ 16 + 16 ≤ 15) ∧ (32 < 16 ∨ 16 + 16 ≤ 32) ∧
    15 < 16 := by decide +kernel

theorem test_witness_ProcessBlockIsRefusedByName :
    (8 % 16 ≠ 0 ∨ 16 % 16 ≠ 0) ∧ (16 % 16 = 0 ∧ 32 % 16 = 0 ∧ State.reset.constructed = false) ∧
    (({ up 0#4 with idx := 1#32 } : State).constructed = true ∧ ({ up 0#4 with idx := 1#32 } : State).idx ≠ 0#32) := by
  decide

theorem test_witness_PassThroughBlockIsIdentity :
    let s : State := { up 4#4 with hostMem := [(0x1001, 7#8)] }
    s.constructed = true ∧ s.idx = 0#32 ∧ s.pendingValid = false ∧ 0 < s.bs.toNat ∧ 4 ≤ s.mode.toNat ∧
      0x1000 % 16 = 0 ∧ s.hostMem.wf = true := by decide +kernel

/-- One AM sample, in place and into the buffer right behind the input. -/
theorem test_witness_InPlaceBlockEqualsSeparateBlock :
    let s : State := { up 0#4 with bs := 1#32, hostMem := [(6, 0xF0#8), (7, 0x3F#8)] }
    s.hostMem.wf = true ∧ (0 + 16 * s.bs.toNat ≤ 16 ∨ 16 + 16 * s.bs.toNat ≤ 0) ∧
      (after (processBlock 0 0 s) State.idx).isSome = true ∧ (after (processBlock 0 16 s) State.idx).isSome = true := by
  decide +kernel

theorem test_witness_ModeNamesRoundTrip :
    modeToName 11#4 = some "NONE" ∧ "am" ∉ modeNames.map Prod.fst := by decide

end Sys2Proof.Tests
end

section
/-! The FM loop feedback and the discriminator touch disjoint registers (46_fm.md R133, R135): what TRACK.FM and
AFC_UPDATE write, the output value does not read. -/

namespace Sys2Proof.Machine

/-- TRACK.FM writes the frequency and the phase only (R94 to R96). -/
theorem trackFmOp_eq_some {x : ComplexSample} {s t : State} (h : trackFmOp x s = some t) :
    ∃ f p, t = s.setLoop f p := by
  obtain ⟨p, -, ht⟩ := loopUpdate_eq_some h
  exact ⟨_, p, ht⟩

/-- The loop feedback keeps the predecessor of the sample and its flag, under either setting of the strap. -/
theorem fmLoopStep_keeps_previous {strap : Bool} {x : ComplexSample} {s t : State}
    (h : fmLoopStep strap x s = some t) : previousSample t = previousSample s ∧ t.prevValid = s.prevValid := by
  obtain ⟨-, rfl⟩ | ⟨-, u, hu, rfl⟩ := fmLoopStep_eq_some h
  · exact ⟨rfl, rfl⟩
  · obtain ⟨f, p, rfl⟩ := trackFmOp_eq_some hu
    simp [previousSample]

/-- The output value reads the predecessor and its flag, and no other register. -/
theorem fmOutput_congr (x : ComplexSample) {s t : State} (hp : previousSample t = previousSample s)
    (hv : t.prevValid = s.prevValid) : fmOutput x t = fmOutput x s := by
  simp only [fmOutput, hp, hv]

/-- An FM step that ends emits the beat of the state before it and leaves its own sample as the next predecessor, under
either setting of the strap. -/
theorem demodFmWith_output {strap : Bool} {b o : Beat} {s t : State} (h : demodFmWith strap b s = some (o, t)) :
    o = packBeat (mono (fmOutput (unpackBeat b) s)) ∧ previousSample t = unpackBeat b ∧ t.prevValid = true := by
  obtain ⟨u, hu, hfin⟩ := demodFmWith_eq_some h
  obtain ⟨hp, hv⟩ := fmLoopStep_keeps_previous hu
  obtain ⟨rfl, rfl⟩ := Prod.mk.inj hfin
  exact ⟨by rw [fmOutput_congr _ hp hv], rfl, rfl⟩

/-- Without the loop the FM step never hangs, and writes the previous sample only (R10, R135). -/
theorem demodFmWith_false (b : Beat) (s : State) :
    demodFmWith false b s = some (packBeat (mono (fmOutput (unpackBeat b) s)), s.setPrev (unpackBeat b)) := rfl

/-- Settles O26: both settings of the strap emit the output value of the state before the step, since the loop feedback
keeps the predecessor that value is computed from. -/
theorem fmAudioDoesNotDependOnTheLoop : Obligations.FmAudioDoesNotDependOnTheLoop := by
  intro b o s t h
  obtain ⟨rfl, hprev, hvalid⟩ := demodFmWith_output h
  have hre : t.prevRe = (unpackBeat b).re := congrArg ComplexSample.re hprev
  have him : t.prevIm = (unpackBeat b).im := congrArg ComplexSample.im hprev
  refine ⟨s.setPrev (unpackBeat b), demodFmWith_false b s, hre.symm, him.symm, hvalid.symm, ?_⟩
  rw [hre, him, State.setPrev]

end Sys2Proof.Machine
end

section
/-! Bounds of a rounded magnitude and of the loop coefficients (40_numerics.md R74; 43_mode_control.md R120, R121). A
magnitude pattern is a significand and a shift; rounding is monotone against every pattern, and from that the magnitude of
a product, of a quotient and of a converted integer is bounded. -/

namespace Sys2Proof.Machine

open Sys2Proof.Safety

/-! ## Magnitude patterns -/

/-- The units of a magnitude pattern, read off the pattern itself. -/
theorem magnitudeUnits_eq {m : Nat} (hm : m ≤ infBits) :
    magnitudeUnits m = if m < 2 ^ 52 then m else (2 ^ 52 + m % 2 ^ 52) * 2 ^ (m / 2 ^ 52 - 1) := by
  have hbits : fmagBits (BitVec.ofNat 64 m) = m := by
    unfold infBits at hm
    rw [fmagBits, BitVec.toNat_ofNat]
    omega
  rw [magnitudeUnits, funits, hbits]

theorem funits_eq_magnitudeUnits (x : F64) : funits x = magnitudeUnits (fmagBits x) := by
  have hbits : fmagBits (BitVec.ofNat 64 (fmagBits x)) = fmagBits x := by
    simp only [fmagBits, BitVec.toNat_ofNat]
    omega
  rw [magnitudeUnits, funits, funits, hbits]

/-- A pattern is its significand behind its shift, and stands for the significand shifted: a shift is taken only by a
significand of 53 bits. -/
theorem exists_significand_shift {m : Nat} (hm : m ≤ infBits) :
    ∃ c e, m = e * 2 ^ 52 + c ∧ magnitudeUnits m = c * 2 ^ e ∧ c < 2 ^ 53 ∧ (e ≠ 0 → 2 ^ 52 ≤ c) := by
  rw [magnitudeUnits_eq hm]
  by_cases h : m < 2 ^ 52
  · exact ⟨m, 0, by omega, by rw [if_pos h, pow_zero, mul_one], by omega, by simp⟩
  · exact ⟨2 ^ 52 + m % 2 ^ 52, m / 2 ^ 52 - 1, by omega, by rw [if_neg h], by omega, by omega⟩

/-! ## Rounding is monotone -/

theorem divNearestEven_le {num den k : Nat} (hd : 0 < den) (h : num ≤ k * den) : divNearestEven num den ≤ k := by
  have hdiv : den * (num / den) + num % den = num := Nat.div_add_mod num den
  have hq : num / den ≤ k := Nat.div_le_of_le_mul (by rwa [Nat.mul_comm])
  rcases hq.lt_or_eq with hlt | heq
  · unfold divNearestEven
    split_ifs <;> omega
  · have hmod : num % den = 0 := by
      rw [heq, Nat.mul_comm] at hdiv
      omega
    simp [divNearestEven, hmod, hd, heq]

theorem le_divNearestEven {num den k : Nat} (hd : 0 < den) (h : k * den ≤ num) : k ≤ divNearestEven num den := by
  have hq : k ≤ num / den := (Nat.le_div_iff_mul_le hd).mpr h
  unfold divNearestEven
  split_ifs <;> omega

/-- A magnitude that leaves bits out lies in the binade its shift names. -/
theorem roundShift_binade {q : Nat} (h : roundShift q ≠ 0) : 2 ^ (roundShift q + 52) ≤ q := by
  unfold roundShift at h ⊢
  split_ifs at h ⊢ with hq
  · exact absurd rfl h
  · have hlog : q.log2 - 52 + 52 = q.log2 := by omega
    rw [hlog]
    exact Nat.log2_self_le (by omega)

theorem lt_roundShift_binade (q : Nat) : q < 2 ^ (roundShift q + 53) := by
  unfold roundShift
  split_ifs with hq
  · simpa using hq
  · have hlog : 53 ≤ q.log2 := (Nat.le_log2 (by omega)).mpr (by omega)
    have hexp : q.log2 - 52 + 53 = q.log2 + 1 := by omega
    rw [hexp]
    exact Nat.lt_log2_self

/-- What does not exceed a pattern's magnitude does not round above the pattern. -/
theorem roundUnits_le_of_le {num den m : Nat} (hd : 0 < den) (hm : m ≤ infBits)
    (h : num ≤ magnitudeUnits m * den) : roundUnits num den ≤ m := by
  obtain ⟨c, e, hpat, hunits, hc, hnormal⟩ := exists_significand_shift hm
  rw [hunits] at h
  have hq : num / den ≤ c * 2 ^ e := Nat.div_le_of_le_mul (by rwa [Nat.mul_comm])
  have hshift : roundShift (num / den) ≤ e := by
    by_contra hlt
    have hlow := roundShift_binade (q := num / den) (by omega)
    have hpow : 2 ^ 53 * 2 ^ e ≤ 2 ^ (roundShift (num / den) + 52) := by
      rw [← pow_add]
      exact Nat.pow_le_pow_right (by decide) (by omega)
    have : c * 2 ^ e < 2 ^ 53 * 2 ^ e := by gcongr
    omega
  unfold roundUnits
  refine (Nat.min_le_right _ _).trans ?_
  generalize hs : roundShift (num / den) = s at hshift ⊢
  have hpos : 0 < den * 2 ^ s := by positivity
  rcases hshift.lt_or_eq with hlt | rfl
  · have hsig : divNearestEven num (den * 2 ^ s) ≤ 2 ^ 53 := by
      refine divNearestEven_le hpos (le_of_lt ?_)
      have hbin : num < 2 ^ (s + 53) * den := by
        rw [← hs]
        exact (Nat.div_lt_iff_lt_mul hd).mp (lt_roundShift_binade _)
      calc num < 2 ^ (s + 53) * den := hbin
        _ = 2 ^ 53 * (den * 2 ^ s) := by rw [pow_add]; ring
    have := hnormal (by omega)
    have : (s + 1) * 2 ^ 52 ≤ e * 2 ^ 52 := by gcongr; omega
    omega
  · have hsig : divNearestEven num (den * 2 ^ s) ≤ c :=
      divNearestEven_le hpos (by rwa [← Nat.mul_assoc, Nat.mul_right_comm])
    omega

/-- What reaches a pattern's magnitude does not round below the pattern. -/
theorem le_roundUnits_of_le {num den m : Nat} (hd : 0 < den) (hm : m ≤ infBits)
    (h : magnitudeUnits m * den ≤ num) : m ≤ roundUnits num den := by
  obtain ⟨c, e, hpat, hunits, hc, hnormal⟩ := exists_significand_shift hm
  rw [hunits] at h
  have hq : c * 2 ^ e ≤ num / den := (Nat.le_div_iff_mul_le hd).mpr h
  have hshift : e ≤ roundShift (num / den) := by
    by_contra hlt
    have hpow : 2 ^ (roundShift (num / den) + 53) ≤ 2 ^ 52 * 2 ^ e := by
      rw [← pow_add]
      exact Nat.pow_le_pow_right (by decide) (by omega)
    have : 2 ^ 52 * 2 ^ e ≤ c * 2 ^ e := Nat.mul_le_mul_right _ (hnormal (by omega))
    have := lt_roundShift_binade (num / den)
    omega
  unfold roundUnits
  refine Nat.le_min.mpr ⟨hm, ?_⟩
  generalize hs : roundShift (num / den) = s at hshift ⊢
  have hpos : 0 < den * 2 ^ s := by positivity
  rcases hshift.lt_or_eq with hlt | rfl
  · have hsig : 2 ^ 52 ≤ divNearestEven num (den * 2 ^ s) := by
      refine le_divNearestEven hpos ?_
      have hbin : 2 ^ (s + 52) * den ≤ num := by
        rw [← Nat.le_div_iff_mul_le hd, ← hs]
        exact roundShift_binade (by omega)
      calc 2 ^ 52 * (den * 2 ^ s) = 2 ^ (s + 52) * den := by rw [pow_add]; ring
        _ ≤ num := hbin
    have : (e + 1) * 2 ^ 52 ≤ s * 2 ^ 52 := by gcongr; omega
    omega
  · have hsig : c ≤ divNearestEven num (den * 2 ^ e) :=
      le_divNearestEven hpos (by rwa [← Nat.mul_assoc, Nat.mul_right_comm])
    omega

/-- A greater pattern stands for a greater magnitude. -/
theorem magnitudeUnits_mono {m n : Nat} (hn : n ≤ infBits) (h : m ≤ n) : magnitudeUnits m ≤ magnitudeUnits n := by
  by_contra hlt
  have hle : n ≤ roundUnits (magnitudeUnits m) 1 := le_roundUnits_of_le (by decide) hn (by omega)
  have hge : roundUnits (magnitudeUnits m) 1 ≤ m := roundUnits_le_of_le (by decide) (h.trans hn) (by omega)
  have heq : m = n := by omega
  exact hlt (by rw [heq])

/-! ## Magnitudes of the float operations -/

theorem fisFinite_of_fmagBits_le {x : F64} {m : Nat} (hm : m < infBits) (h : fmagBits x ≤ m) : fisFinite x = true :=
  decide_eq_true (h.trans_lt hm)

/-- The magnitude of a product is bounded where the product of the factors' bounds is. -/
theorem fmagBits_fmul_le {x y : F64} {a b c : Nat} (hx : fmagBits x ≤ a) (hy : fmagBits y ≤ b) (ha : a < infBits)
    (hb : b < infBits) (hc : c ≤ infBits) (h : magnitudeUnits a * magnitudeUnits b ≤ magnitudeUnits c * 2 ^ 1074) :
    fmagBits (fmul x y) ≤ c := by
  rw [fmul_of_finite (fisFinite_of_fmagBits_le ha hx) (fisFinite_of_fmagBits_le hb hy),
    fmagBits_fpack (roundUnits_le _ _)]
  refine roundUnits_le_of_le (Nat.two_pow_pos 1074) hc (le_trans ?_ h)
  rw [funits_eq_magnitudeUnits, funits_eq_magnitudeUnits]
  exact Nat.mul_le_mul (magnitudeUnits_mono ha.le hx) (magnitudeUnits_mono hb.le hy)

/-- A quotient of finite values, the divisor not zero. -/
theorem fdiv_of_finite {x y : F64} (hx : fisFinite x = true) (hy : fisFinite y = true) (h0 : fisZero y = false) :
    fdiv x y = fpack (fsign x != fsign y) (roundUnits (funits x * 2 ^ 1074) (funits y)) := by
  unfold fdiv
  simp [fisFinite_not hx, fisFinite_not hy, h0]

/-- The sign and the magnitude of a quotient of values that are not negative, from an upper bound of the dividend and a
lower bound of the divisor. -/
theorem fdiv_bounded {x y : F64} {a b c : Nat} (hx : fmagBits x ≤ a) (hy : b ≤ fmagBits y) (hfin : fisFinite y = true)
    (hsign : fsign x = fsign y) (ha : a < infBits) (hb : 0 < b) (hc : c ≤ infBits) (hpos : 0 < magnitudeUnits b)
    (h : magnitudeUnits a * 2 ^ 1074 ≤ magnitudeUnits c * magnitudeUnits b) :
    fsign (fdiv x y) = false ∧ fmagBits (fdiv x y) ≤ c := by
  have hymag : fmagBits y ≤ infBits := (of_decide_eq_true hfin).le
  have h0 : fisZero y = false := decide_eq_false (by omega)
  have hbelow : magnitudeUnits b ≤ funits y := by
    rw [funits_eq_magnitudeUnits]
    exact magnitudeUnits_mono hymag hy
  have habove : funits x ≤ magnitudeUnits a := by
    rw [funits_eq_magnitudeUnits]
    exact magnitudeUnits_mono ha.le hx
  rw [fdiv_of_finite (fisFinite_of_fmagBits_le ha hx) hfin h0, fsign_fpack (roundUnits_le _ _),
    fmagBits_fpack (roundUnits_le _ _)]
  refine ⟨by simp [hsign], roundUnits_le_of_le (hpos.trans_le hbelow) hc ?_⟩
  calc funits x * 2 ^ 1074 ≤ magnitudeUnits a * 2 ^ 1074 := Nat.mul_le_mul_right _ habove
    _ ≤ magnitudeUnits c * magnitudeUnits b := h
    _ ≤ magnitudeUnits c * funits y := Nat.mul_le_mul_left _ hbelow

/-- A value whose magnitude is bounded lies between the bound and its negative. -/
theorem fle_of_fmagBits_le {x M : F64} (hM : fsign M = false) (hfin : fisFinite M = true)
    (h : fmagBits x ≤ fmagBits M) : fle (fneg M) x = true ∧ fle x M = true := by
  obtain ⟨hnan, -⟩ := fisFinite_not hfin
  obtain ⟨hxnan, -⟩ := fisFinite_not (fisFinite_of_fmagBits_le (of_decide_eq_true hfin) h)
  simp only [fle, forder, fisNaN_fneg, fsign_fneg, fmagBits_fneg, hnan, hxnan, hM, Bool.not_false, Bool.true_and,
    if_true, Bool.false_eq_true, if_false, decide_eq_true_eq]
  split <;> omega

/-- A value that is no NaN and has a clear sign bit is not below zero. -/
theorem fle_posZero_of_fsign {x : F64} (hs : fsign x = false) (hfin : fisFinite x = true) : fle posZero x = true := by
  have hz : fisNaN posZero = false := by decide +kernel
  rw [fle, forder_posZero]
  simp [hz, fisFinite_not hfin, forder, hs]

/-! ## Radians per hertz -/

/-- A positive 32-bit integer converts to a finite value of at least 1.0 (R87). -/
theorem fofInt32_positive {n : BitVec 32} (h : 0 < n.toInt) :
    fsign (fofInt32 n) = false ∧ fmagBits c1 ≤ fmagBits (fofInt32 n) ∧ fisFinite (fofInt32 n) = true := by
  have hlt : n.toInt < 2 ^ 31 := BitVec.toInt_lt
  have habs : 1 ≤ n.toInt.natAbs ∧ n.toInt.natAbs ≤ 2 ^ 31 := by omega
  have hone : magnitudeUnits (fmagBits c1) = 2 ^ 1074 := by decide +kernel
  have htop : magnitudeUnits 0x41E0000000000000 = 2 ^ 31 * 2 ^ 1074 := by decide +kernel
  have hlow : fmagBits c1 ≤ roundUnits (n.toInt.natAbs * 2 ^ 1074) 1 := by
    refine le_roundUnits_of_le (by decide) (by decide) ?_
    rw [hone, Nat.mul_one]
    exact Nat.le_mul_of_pos_left _ habs.1
  have hhigh : roundUnits (n.toInt.natAbs * 2 ^ 1074) 1 ≤ 0x41E0000000000000 := by
    refine roundUnits_le_of_le (by decide) (by decide) ?_
    rw [htop, Nat.mul_one]
    exact Nat.mul_le_mul_right _ habs.2
  unfold fofInt32
  rw [fsign_fpack (roundUnits_le _ _), fisFinite, fmagBits_fpack (roundUnits_le _ _)]
  exact ⟨decide_eq_false (by omega), hlow, decide_eq_true (hhigh.trans_lt (by decide))⟩

/-- At every legal sample rate `k` is positive or zero, and at most `TWO_PI` (R121). -/
theorem radiansPerHertz_bounded {sr : BitVec 32} (h : 0 < sr.toInt) :
    fsign (radiansPerHertz sr) = false ∧ fmagBits (radiansPerHertz sr) ≤ fmagBits twoPi := by
  obtain ⟨hsign, hlow, hfin⟩ := fofInt32_positive h
  have htwo : fsign twoPi = false := by decide
  exact fdiv_bounded le_rfl hlow hfin (htwo.trans hsign.symm) (by decide) (by decide) (by decide)
    (by decide +kernel) (by decide +kernel)

theorem radiansPerHertz_finite {sr : BitVec 32} (h : 0 < sr.toInt) : fisFinite (radiansPerHertz sr) = true :=
  fisFinite_of_fmagBits_le (by decide) (radiansPerHertz_bounded h).2

/-! ## The default table -/

/-- The magnitudes the default rows bring into the coefficients: `0.3 * bandwidth` at most 1500.0, a limit factor at most
6000.0 (R41). -/
theorem defaultModeCfg_bounded : ∀ m : ModeCode,
    fle posZero (fmul c0_3 (defaultModeCfg m).bandwidthHz) = true ∧
    fmagBits (fmul c0_3 (defaultModeCfg m).bandwidthHz) ≤ 0x4097700000000000 ∧
    fmagBits (defaultModeCfg m).loLimitFactor ≤ fmagBits c6000 ∧
    fmagBits (defaultModeCfg m).hiLimitFactor ≤ fmagBits c6000 := by decide +kernel

/-- The capture limits of a legal row lie on either side of zero at every legal sample rate (R8, R121). -/
theorem captureLimit_signs {r : ModeRow} {sr : BitVec 32} (hr : rowLegal r = true) (h : 0 < sr.toInt) :
    fle (captureLimit r.loLimitFactor sr) posZero = true ∧ fle posZero (captureLimit r.hiLimitFactor sr) = true := by
  simp only [rowLegal, Bool.and_eq_true] at hr
  obtain ⟨⟨⟨⟨⟨-, hloFin⟩, hhiFin⟩, -⟩, hlo⟩, hhi⟩ := hr
  have hsign := (radiansPerHertz_bounded h).1
  have hfin := radiansPerHertz_finite h
  exact ⟨fmul_nonpos hloFin hfin hsign hlo, fmul_nonneg hhiFin hfin hsign hhi⟩

/-- A limit factor of at most 6000.0 gives a limit of at most 65536.0 on either side of zero. -/
theorem captureLimit_bounded {factor : F64} {sr : BitVec 32} (hf : fmagBits factor ≤ fmagBits c6000)
    (h : 0 < sr.toInt) :
    fle (fneg 0x40F0000000000000#64) (captureLimit factor sr) = true ∧
      fle (captureLimit factor sr) 0x40F0000000000000#64 = true :=
  fle_of_fmagBits_le (by decide) (by decide)
    (fmagBits_fmul_le hf (radiansPerHertz_bounded h).2 (by decide) (by decide) (by decide) (by decide +kernel))

/-- On the default table `alpha` is not negative and at most 16384.0. -/
theorem loopAlpha_default {sr : BitVec 32} (m : ModeCode) (h : 0 < sr.toInt) :
    fle posZero (loopAlpha (defaultModeCfg m).bandwidthHz sr) = true ∧
      fmagBits (loopAlpha (defaultModeCfg m).bandwidthHz sr) ≤ 0x40D0000000000000 := by
  obtain ⟨hsign, hk⟩ := radiansPerHertz_bounded h
  obtain ⟨hpos, hmag, -, -⟩ := defaultModeCfg_bounded m
  exact ⟨fmul_nonneg (fisFinite_of_fmagBits_le (by decide) hmag) (radiansPerHertz_finite h) hsign hpos,
    fmagBits_fmul_le hmag hk (by decide) (by decide) (by decide) (by decide +kernel)⟩

/-- The square of an `alpha` of at most 16384.0, over 4.0, is not negative and at most 2^26. -/
theorem loopBeta_bounded {alpha : F64} (h : fmagBits alpha ≤ 0x40D0000000000000) :
    fle posZero (loopBeta alpha) = true ∧ fle (loopBeta alpha) 0x4190000000000000#64 = true := by
  have hfin : fisFinite alpha = true := fisFinite_of_fmagBits_le (by decide) h
  have hsq : fmagBits (fmul alpha alpha) ≤ 0x41B0000000000000 :=
    fmagBits_fmul_le h h (by decide) (by decide) (by decide) (by decide +kernel)
  have hsqSign : fsign (fmul alpha alpha) = false := by
    rw [fmul_of_finite hfin hfin, fsign_fpack (roundUnits_le _ _), bne_self_eq_false]
  have hc4 : fsign c4 = false := by decide
  obtain ⟨hsign, hmag⟩ := fdiv_bounded hsq (le_refl (fmagBits c4)) (by decide) (hsqSign.trans hc4.symm)
    (c := 0x4190000000000000) (by decide) (by decide) (by decide) (by decide +kernel) (by decide +kernel)
  exact ⟨fle_posZero_of_fsign hsign (fisFinite_of_fmagBits_le (by decide) hmag),
    (fle_of_fmagBits_le (by decide) (by decide) hmag).2⟩

/-- Settles O19: `k` is at most `TWO_PI` at every legal sample rate, so each product is at most the exact product of its
factors' bounds, which rounding keeps. -/
theorem defaultCoefficientsAreBounded : Obligations.DefaultCoefficientsAreBounded := by
  intro rate m h row
  obtain ⟨halpha, halphaMag⟩ := loopAlpha_default m h
  obtain ⟨-, -, hloMag, hhiMag⟩ := defaultModeCfg_bounded m
  obtain ⟨hlo, hhi⟩ := captureLimit_signs (defaultModeCfg_legal m) h
  exact ⟨⟨halpha, (fle_of_fmagBits_le (by decide) (by decide) halphaMag).2⟩, loopBeta_bounded halphaMag,
    ⟨(captureLimit_bounded hloMag h).1, hlo⟩, hhi, (captureLimit_bounded hhiMag h).2⟩

end Sys2Proof.Machine
end

section
/-! All that one step can do (20_memory.md R54; 42_dispatch.md R101, R111; 43_mode_control.md R117 to R124): one relation
between the state with the request taken off its port and the next state, and the inversion of `step` onto it. -/

namespace Sys2Proof.Machine

/-- What MODE has a beat undergo (30_encoding.md R67). -/
def demodOf (mode : ModeCode) : Beat → State → Option (Beat × State) :=
  if mode = 0#4 then demodAm
  else if mode = 1#4 then demodSam
  else if mode = 2#4 ∨ mode = 3#4 then demodFm
  else passThrough

/-- The dispatch of a beat is one sample step around what the mode does with it. -/
theorem exec_decodeBeat (mode : ModeCode) (b : Beat) (s : State) :
    exec (decodeBeat mode b) s = sampleStep (demodOf mode) b s := by
  by_cases h0 : mode = 0#4
  · subst h0; rfl
  by_cases h1 : mode = 1#4
  · subst h1; rfl
  by_cases h2 : mode = 2#4
  · subst h2; rfl
  by_cases h3 : mode = 3#4
  · subst h3; rfl
  have hpass : demodOf mode = passThrough := by simp [demodOf, h0, h1, h2, h3]
  rw [hpass, decodeBeat, if_neg h0, if_neg h1, if_neg h2, if_neg h3]
  split_ifs <;> rfl

theorem decodeInit_eq_command {words rest : List CmdWord} {i : Instr} (h : decodeInit words = .command i rest) :
    ∃ rate size, i = .init rate size := by
  unfold decodeInit at h
  split at h
  · cases h
    exact ⟨_, _, rfl⟩
  · cases h

/-- The control port carries the four commands and nothing else. -/
theorem decodeCommand_eq_command {words rest : List CmdWord} {i : Instr}
    (h : decodeCommand words = .command i rest) :
    (∃ rate size, i = .init rate size) ∨ (∃ c, i = .setmode c) ∨ i = .getmode ∨ ∃ r, i = .rdstate r := by
  unfold decodeCommand at h
  split at h
  · cases h
  · split_ifs at h
    · exact .inl (decodeInit_eq_command h)
    · cases h
      exact .inr (.inl ⟨_, rfl⟩)
    · cases h
      exact .inr (.inr (.inl rfl))
    · cases h
      exact .inr (.inr (.inr ⟨_, rfl⟩))

/-- All that a beat does to the state in the mode in force: each mode writes its own accumulators, and SAM and, under the
strap, FM run the loop. -/
theorem demodOf_cases {b o : Beat} {s u : State} (h : demodOf s.mode b s = some (o, u)) :
    (s.mode = 0#4 ∧ ∃ dc smooth, u = s.setAm dc smooth) ∨
    (s.mode = 1#4 ∧ ∃ d v lock dc, loopUpdate s d = some v ∧ u = (v.setLock lock).setSamDc dc) ∨
    ((s.mode = 2#4 ∨ s.mode = 3#4) ∧ ∃ x, u = s.setPrev x ∨
      ∃ d v a, loopUpdate s d = some v ∧ u = (v.setAfc a).setPrev x) ∨
    u = s := by
  unfold demodOf at h
  split_ifs at h with h0 h1 h23
  · cases h
    exact .inl ⟨h0, _, _, rfl⟩
  · obtain ⟨v, hv, hfin⟩ := demodSam_eq_some h
    cases hfin
    exact .inr (.inl ⟨h1, _, v, _, _, hv, rfl⟩)
  · obtain ⟨v, hv, hfin⟩ := demodFmWith_eq_some h
    cases hfin
    obtain ⟨-, rfl⟩ | ⟨-, w, hw, rfl⟩ := fmLoopStep_eq_some hv
    · exact .inr (.inr (.inl ⟨h23, _, .inl rfl⟩))
    · exact .inr (.inr (.inl ⟨h23, _, .inr ⟨_, w, _, hw, rfl⟩⟩))
  · cases h
    exact .inr (.inr (.inr rfl))

/-- No mode's work on a beat touches the flag of construction, the response or the host's memory. -/
theorem demodOf_frame {b o : Beat} {s u : State} (h : demodOf s.mode b s = some (o, u)) :
    u.constructed = s.constructed ∧ u.rsp = s.rsp ∧ u.hostMem = s.hostMem := by
  obtain ⟨-, dc, smooth, rfl⟩ | ⟨-, d, v, lock, dc, hv, rfl⟩ | ⟨-, x, rfl | ⟨d, v, a, hv, rfl⟩⟩ | rfl :=
    demodOf_cases h
  · exact ⟨rfl, rfl, rfl⟩
  · obtain ⟨p, -, rfl⟩ := loopUpdate_eq_some hv
    exact ⟨rfl, rfl, rfl⟩
  · exact ⟨rfl, rfl, rfl⟩
  · obtain ⟨p, -, rfl⟩ := loopUpdate_eq_some hv
    exact ⟨rfl, rfl, rfl⟩
  · exact ⟨rfl, rfl, rfl⟩

/-- The state with a request taken off its port: the ports hold what is left, and a free value may have been drawn. -/
def State.withRequestTaken (s : State) (words : List CmdWord) (beats : List Beat) (drawn : Nat) : State :=
  { s with ctrlIn := words, dataIn := beats, freeCount := drawn }

/-- All that a step does to the state with its request taken. -/
inductive StepTo (s : State) : State → Prop where
  /-- The reset input (R158). -/
  | reset : StepTo s (powerOn s)
  /-- No request stands (R154). -/
  | idle : StepTo s s
  /-- A command that answers and changes nothing else: GETMODE, and every command that is turned away. -/
  | answer (st : Status) (payload : BitVec 8) : StepTo s (s.setRsp (responseWord st payload))
  /-- RDSTATE of a register (R124). -/
  | read (v : BitVec 64) : StepTo s ((s.setRspd v).setRsp (responseWord .ok 0#8))
  /-- INIT with both operands positive (R117). -/
  | init (rate size : BitVec 32) (hrate : 0 < rate.toInt) (hsize : 0 < size.toInt) : StepTo s (initialise rate size s)
  /-- INIT that fails (R140). -/
  | initFailed (e : BitVec 8) : StepTo s (raiseConfig s e)
  /-- SETMODE in a constructed block (R118). -/
  | setmode (code : ModeCode) (hc : s.constructed = true) :
      StepTo s ((requestMode (canonMode code) s).setRsp (responseWord .ok 0#8))
  /-- A sample step that ends (R101). -/
  | sample (b o : Beat) (u : State) (hc : s.constructed = true) (hf : demodOf s.mode b s = some (o, u)) :
      StepTo s (advance (u.emit o))

/-- A command that needs a constructed block only answers in any other. -/
theorem StepTo.whenConstructed {s body : State} (h : s.constructed = true → StepTo s body) :
    StepTo s (whenConstructed s body) := by
  cases hc : s.constructed with
  | false => rw [whenConstructed_of_not hc]; exact .answer _ _
  | true => rw [whenConstructed_of_constructed hc]; exact h hc

/-- What the four commands of the control port do. -/
theorem stepTo_of_exec_command {words rest : List CmdWord} {i : Instr} {s t : State}
    (hi : decodeCommand words = .command i rest) (h : exec i s = .next t) : StepTo s t := by
  obtain ⟨rate, size, rfl⟩ | ⟨c, rfl⟩ | rfl | ⟨r, rfl⟩ := decodeCommand_eq_command hi
  · change execInit rate size s = .next t at h
    unfold execInit at h
    split at h <;> obtain rfl := Host.Outcome.next.inj h
    · exact .initFailed _
    · next hpos =>
      simp only [notPositive, Bool.or_eq_true, decide_eq_true_eq, not_or, not_le] at hpos
      exact .init rate size hpos.1 hpos.2
  · obtain rfl := Host.Outcome.next.inj h
    exact StepTo.whenConstructed (.setmode c)
  · obtain rfl := Host.Outcome.next.inj h
    exact StepTo.whenConstructed fun _ => .answer _ _
  · change execRdstate r s = .next t at h
    unfold execRdstate at h
    split at h <;> obtain rfl := Host.Outcome.next.inj h
    · exact StepTo.whenConstructed fun _ => .read _
    · exact .answer _ _

/-- What a beat does in the mode in force. -/
theorem stepTo_of_exec_beat {b : Beat} {s t : State} (h : exec (decodeBeat s.mode b) s = .next t) : StepTo s t := by
  rw [exec_decodeBeat] at h
  obtain ⟨-, hs⟩ | ⟨-, -, hs⟩ | ⟨hc, o, u, hf, hs⟩ := sampleStep_cases (demodOf s.mode) b s <;> rw [hs] at h
  · obtain rfl := Host.Outcome.next.inj h
    exact .idle
  · cases h
  · obtain rfl := Host.Outcome.next.inj h
    exact .sample b o u hc hf

theorem arbitrated_withRequestTaken (s : State) :
    ∃ drawn, arbitrated s = s.withRequestTaken s.ctrlIn s.dataIn drawn := by
  unfold arbitrated
  split
  · exact ⟨s.freeCount + 1, rfl⟩
  · exact ⟨s.freeCount, rfl⟩

theorem commandStep_stepTo {s t : State} (h : commandStep s = .next t) :
    ∃ words, StepTo (s.withCtrlIn words) t := by
  unfold commandStep at h
  split at h
  · next i rest hd => exact ⟨rest, stepTo_of_exec_command hd h⟩
  · next rest hd =>
    obtain rfl := Host.Outcome.next.inj h
    exact ⟨rest, .answer _ _⟩
  · obtain rfl := Host.Outcome.next.inj h
    exact ⟨s.ctrlIn, .idle⟩

theorem beatStep_stepTo {s t : State} (h : beatStep s = .next t) :
    ∃ beats, StepTo (s.withDataIn beats) t := by
  unfold beatStep at h
  split at h
  · next b rest hd => exact ⟨rest, stepTo_of_exec_beat h⟩
  · obtain rfl := Host.Outcome.next.inj h
    exact ⟨s.dataIn, .idle⟩

/-- All that a step can do: it takes a request, or none, and does one of the things of `StepTo`. -/
theorem step_stepTo {s t : State} (h : step s = .next t) :
    ∃ words beats drawn, StepTo (s.withRequestTaken words beats drawn) t := by
  cases hr : s.resetIn with
  | true =>
    rw [step_reset hr] at h
    obtain rfl := Host.Outcome.next.inj h
    obtain ⟨words, beats, habandon⟩ := abandonRequest_eq s
    rw [habandon]
    exact ⟨words, beats, s.freeCount, .reset⟩
  | false =>
    obtain ⟨drawn, harb⟩ := arbitrated_withRequestTaken s
    simp only [step, hr, Bool.false_eq_true, if_false, harb] at h
    unfold agentStep at h
    split at h
    · obtain ⟨words, hto⟩ := commandStep_stepTo h
      exact ⟨words, s.dataIn, drawn, hto⟩
    · obtain ⟨beats, hto⟩ := beatStep_stepTo h
      exact ⟨s.ctrlIn, beats, drawn, hto⟩
    · obtain rfl := Host.Outcome.next.inj h
      exact ⟨s.ctrlIn, s.dataIn, drawn, .idle⟩

end Sys2Proof.Machine
end

section
/-! The two invariants of the block (10_state.md R38 to R40; 43_mode_control.md R119): each kind of step keeps the legal
states legal and leaves no accumulator of another mode behind. -/

namespace Sys2Proof.Safety

open Sys2Proof.Machine

/-! ## The loop keeps its ranges -/

theorem fle_trans {x y z : F64} (hxy : fle x y = true) (hyz : fle y z = true) : fle x z = true := by
  simp only [fle, Bool.and_eq_true, decide_eq_true_eq] at hxy hyz ⊢
  exact ⟨⟨hxy.1.1, hyz.1.2⟩, hxy.2.trans hyz.2⟩

theorem fle_of_not_flt {x y : F64} (hx : fisNaN x = false) (hy : fisNaN y = false) (h : flt x y = false) :
    fle y x = true := by
  simpa [flt, fle, hx, hy] using h

theorem not_flt_of_fle {x y : F64} (h : fle x y = true) : flt y x = false := by
  simp only [fle, Bool.and_eq_true, decide_eq_true_eq] at h
  simp [flt, h.2]

/-- The clamp brings every number between limits that are in order (R95). -/
theorem clampFrequency_range {lo hi f : F64} (h : fle lo hi = true) (hf : fisNaN f = false) :
    fle lo (clampFrequency lo hi f) = true ∧ fle (clampFrequency lo hi f) hi = true := by
  have hnan : fisNaN lo = false ∧ fisNaN hi = false := by
    simp only [fle, Bool.and_eq_true, Bool.not_eq_true'] at h
    exact h.1
  obtain ⟨hlo, hhi⟩ := hnan
  have hself : ∀ {x : F64}, fisNaN x = false → fle x x = true := fun hx => by simp [fle, hx]
  cases hbelow : flt f lo with
  | true => simp [clampFrequency, hbelow, not_flt_of_fle h, hself hlo, h]
  | false =>
    cases habove : flt hi f with
    | true => simp [clampFrequency, hbelow, habove, hself hhi, h]
    | false =>
      simp [clampFrequency, hbelow, habove, fle_of_not_flt hf hlo hbelow, fle_of_not_flt hhi hf habove]

/-- A NaN frequency makes the phase before the wrap a NaN, so a wrap that ends has clamped a number (R98). -/
theorem nextFrequency_range {s : State} {d p : F64} (hs : frequencyInRange s = true)
    (hp : wrap (nextPhaseRaw s d) = some p) :
    fle s.loLimit (nextFrequency s d) = true ∧ fle (nextFrequency s d) s.hiLimit = true := by
  simp only [frequencyInRange, Bool.and_eq_true] at hs
  refine clampFrequency_range (fle_trans hs.1 hs.2) ?_
  by_contra hnan
  simp only [Bool.not_eq_false] at hnan
  have hfreq : fisNaN (nextFrequency s d) = true := by
    rw [nextFrequency, clampFrequency_nan _ _ hnan]
    exact hnan
  have hraw : fisNaN (nextPhaseRaw s d) = true := fadd_nan (.inr (fadd_nan (.inl hfreq)))
  simp [wrap_nan hraw] at hp

/-- What Track preserves (R99). -/
theorem ConstructedLegal.loopUpdate {s t : State} {d : F64} (hs : ConstructedLegal s)
    (h : loopUpdate s d = some t) : ConstructedLegal t := by
  obtain ⟨p, hp, rfl⟩ := loopUpdate_eq_some h
  obtain ⟨hzero, htwo⟩ := wrap_range hp
  obtain ⟨hlo, hhi⟩ := nextFrequency_range hs.frequency_range hp
  exact { hs with
    phase_range := by simp [phaseInRange, hzero, htwo]
    frequency_range := by simp [frequencyInRange, hlo, hhi] }

/-- The values ApplyMode writes are legal in any block whose other registers are (R119 to R121). -/
theorem constructedLegal_applyMode {s : State} {m : ModeCode} (hm : m.toNat ≤ 11) (hp : s.pmode.toNat ≤ 11)
    (hsr : 0 < s.sr.toInt) (hbs : 0 < s.bs.toInt) (hidx : s.idx.toNat < s.bs.toNat) (hpend : s.pendingValid = false) :
    ConstructedLegal (s.applyMode m) where
  mode_legal := hm
  pmode_legal := hp
  sr_positive := hsr
  bs_positive := hbs
  idx_in_block := hidx
  pending_inside_block := by simp [hpend]
  derived := ⟨rfl, rfl, rfl, rfl⟩
  phase_range := by
    change (fle posZero posZero && flt posZero twoPi) = true
    decide +kernel
  frequency_range := by
    obtain ⟨hlo, hhi⟩ := captureLimit_signs (modeCfg_legal m) hsr
    simp [frequencyInRange, hlo, hhi]

/-! ## Sample steps -/

theorem ConstructedLegal.demodOf {b o : Beat} {s u : State} (hs : ConstructedLegal s)
    (h : demodOf s.mode b s = some (o, u)) : ConstructedLegal u := by
  obtain ⟨-, dc, smooth, rfl⟩ | ⟨-, d, v, lock, dc, hv, rfl⟩ | ⟨-, x, rfl | ⟨d, v, a, hv, rfl⟩⟩ | rfl :=
    demodOf_cases h
  · exact { hs with }
  · exact { hs.loopUpdate hv with }
  · exact { hs with }
  · exact { hs.loopUpdate hv with }
  · exact hs

/-- The position stays inside the block, and no mode is left pending at a boundary (R35, R111). -/
theorem ConstructedLegal.advance {s : State} (hs : ConstructedLegal s) : ConstructedLegal (advance s) := by
  have hidx := hs.idx_in_block
  obtain ⟨hmid, h⟩ | ⟨-, hpend, h⟩ | ⟨-, -, h⟩ := advance_cases s <;> rw [h]
  · have hnext : (s.idx + 1#32).toNat = s.idx.toNat + 1 := by
      have := s.bs.isLt
      rw [BitVec.toNat_add]
      simp
      omega
    exact { hs with
      idx_in_block := by
        simp only [State.setIdx_idx, State.setIdx_bs, hnext]
        omega
      pending_inside_block := fun _ hzero => by
        have : (s.idx + 1#32).toNat = 0 := congrArg BitVec.toNat hzero
        omega }
  · exact { hs with
      idx_in_block := (Nat.zero_le _).trans_lt hidx
      pending_inside_block := by simp [hpend] }
  · exact constructedLegal_applyMode hs.pmode_legal hs.pmode_legal hs.sr_positive hs.bs_positive
      ((Nat.zero_le _).trans_lt hidx) rfl

/-! ## Commands -/

theorem canonMode_le (c : ModeCode) : (canonMode c).toNat ≤ 11 := by
  unfold canonMode
  split
  · assumption
  · decide

/-- A SETMODE applies its mode at a boundary, and leaves it pending only inside a block (R118). -/
theorem ConstructedLegal.requestMode {s : State} {m : ModeCode} (hs : ConstructedLegal s) (hm : m.toNat ≤ 11) :
    ConstructedLegal (requestMode m s) := by
  unfold Machine.requestMode
  split
  · exact constructedLegal_applyMode hm hs.pmode_legal hs.sr_positive hs.bs_positive hs.idx_in_block rfl
  · next hidx => exact { hs with pmode_legal := hm, pending_inside_block := fun _ => hidx }

theorem constructedLegal_initialise {rate size : BitVec 32} (s : State) (hrate : 0 < rate.toInt)
    (hsize : 0 < size.toInt) : ConstructedLegal (initialise rate size s) := by
  have hpos : 0 < size.toNat := by
    by_contra hzero
    have : size = 0#32 := BitVec.eq_of_toNat_eq (by simpa using hzero)
    simp [this] at hsize
  have happlied : ConstructedLegal ((s.setRates rate size).applyMode 0#4) :=
    constructedLegal_applyMode (by decide) (show (0#4).toNat ≤ 11 by decide) hrate hsize hpos rfl
  exact { happlied with }

/-- A mode change leaves the flag of construction and the host's memory alone. -/
theorem requestMode_frame (m : ModeCode) (s : State) :
    (requestMode m s).constructed = s.constructed ∧ (requestMode m s).hostMem = s.hostMem := by
  unfold requestMode
  split <;> exact ⟨rfl, rfl⟩

/-! ## Every step keeps the legal states legal -/

/-- Every response has the form of R62. -/
theorem responseLegal_setRsp (s : State) (st : Status) (payload : BitVec 8) :
    responseLegal (s.setRsp (responseWord st payload)) := by
  have hst : (statusCode st).toNat ≤ 3 := by cases st <;> decide
  have hp := payload.isLt
  simp only [responseLegal, State.setRsp_rsp, responseWord_toNat]
  omega

theorem Legal.of_constructed {s : State} (hc : s.constructed = true) (h : ConstructedLegal s) (hr : responseLegal s)
    (hm : s.hostMem.wf = true) : Legal s :=
  ⟨fun _ => h, fun hf => absurd (hf.symm.trans hc) Bool.false_ne_true, hr, hm⟩

theorem Legal.of_unconstructed {s : State} (hc : s.constructed = false) (h : UnconstructedLegal s)
    (hr : responseLegal s) (hm : s.hostMem.wf = true) : Legal s :=
  ⟨fun ht => absurd (hc.symm.trans ht) Bool.false_ne_true, fun _ => h, hr, hm⟩

/-- A response changes nothing else of a legal state. -/
theorem Legal.setRsp {s : State} (hs : Legal s) (st : Status) (payload : BitVec 8) :
    Legal (s.setRsp (responseWord st payload)) where
  constructed_legal hc := { hs.constructed_legal hc with }
  unconstructed_legal hc := { hs.unconstructed_legal hc with }
  response := responseLegal_setRsp s st payload
  memory := hs.memory

theorem Legal.setRspd {s : State} (hs : Legal s) (v : BitVec 64) : Legal (s.setRspd v) where
  constructed_legal hc := { hs.constructed_legal hc with }
  unconstructed_legal hc := { hs.unconstructed_legal hc with }
  response := hs.response
  memory := hs.memory

theorem Legal.withRequestTaken {s : State} (hs : Legal s) (words : List CmdWord) (beats : List Beat) (drawn : Nat) :
    Legal (s.withRequestTaken words beats drawn) where
  constructed_legal hc := { hs.constructed_legal hc with }
  unconstructed_legal hc := { hs.unconstructed_legal hc with }
  response := hs.response
  memory := hs.memory

/-- A sample step of a constructed block keeps it legal. -/
theorem Legal.sample {b o : Beat} {s u : State} (hs : Legal s) (hc : s.constructed = true)
    (hf : Machine.demodOf s.mode b s = some (o, u)) : Legal (Machine.advance (u.emit o)) := by
  obtain ⟨huc, hur, hum⟩ := demodOf_frame hf
  obtain ⟨-, -, hac, -, har, -, -, -, -, -, -, ham⟩ := advance_frame (u.emit o)
  have hemit : ConstructedLegal (u.emit o) := { (hs.constructed_legal hc).demodOf hf with }
  refine .of_constructed (hac.trans (huc.trans hc)) hemit.advance ?_ ?_
  · rw [responseLegal, har, State.emit_rsp, hur]
    exact hs.response
  · rw [ham, State.emit_hostMem, hum]
    exact hs.memory

/-- Each thing a step can do keeps the legal states legal. -/
theorem legal_of_stepTo {s t : State} (h : StepTo s t) (hs : Legal s) : Legal t := by
  cases h with
  | reset => exact .of_unconstructed rfl ⟨rfl, rfl, rfl⟩ (responseLegal_setRsp s .ok 0#8) hs.memory
  | idle => exact hs
  | answer st payload => exact hs.setRsp st payload
  | read v => exact (hs.setRspd v).setRsp .ok 0#8
  | init rate size hrate hsize =>
    exact .of_constructed rfl (constructedLegal_initialise s hrate hsize) (responseLegal_setRsp s .ok 0#8) hs.memory
  | initFailed e =>
    exact .of_unconstructed rfl ⟨rfl, rfl, rfl⟩ (responseLegal_setRsp s .errConfig e) hs.memory
  | setmode code hc =>
    obtain ⟨hrc, hrm⟩ := requestMode_frame (canonMode code) s
    have hreq := (hs.constructed_legal hc).requestMode (canonMode_le code)
    exact .of_constructed (hrc.trans hc) { hreq with } (responseLegal_setRsp _ .ok 0#8)
      ((congrArg Memory.wf hrm).trans hs.memory)
  | sample b o u hc hf => exact hs.sample hc hf

/-- Settles O51, by the inversion of the step: taking a request off its port keeps legality, and so does what follows. -/
theorem everyStepKeepsLegality : Obligations.EveryStepKeepsLegality := by
  intro s t hs h
  obtain ⟨words, beats, drawn, hto⟩ := step_stepTo h
  exact legal_of_stepTo hto (hs.withRequestTaken words beats drawn)

/-! ## No state leaks across a mode switch -/

/-- Right after ApplyMode every accumulator is at its ApplyMode value, in every mode. -/
theorem noStaleState_applyMode (s : State) (m : ModeCode) : NoStaleState (s.applyMode m) where
  am_only _ := ⟨rfl, rfl⟩
  sam_only _ := ⟨rfl, rfl, rfl⟩
  fm_only _ _ := ⟨rfl, rfl, rfl, rfl⟩
  loop_only _ _ _ := ⟨rfl, rfl⟩

theorem NoStaleState.requestMode {s : State} (hs : NoStaleState s) (m : ModeCode) :
    NoStaleState (requestMode m s) := by
  unfold Machine.requestMode
  split
  · exact noStaleState_applyMode _ m
  · exact { hs with }

/-- A beat moves the accumulators of its own mode alone. -/
theorem NoStaleState.demodOf {b o : Beat} {s u : State} (hs : NoStaleState s)
    (h : demodOf s.mode b s = some (o, u)) : NoStaleState u := by
  obtain ⟨hm, dc, smooth, rfl⟩ | ⟨hm, d, v, lock, dc, hv, rfl⟩ | ⟨hm, x, hu⟩ | rfl := demodOf_cases h
  · exact { hs with am_only := fun hne => absurd hm hne }
  · obtain ⟨p, -, rfl⟩ := loopUpdate_eq_some hv
    exact { hs with sam_only := fun hne => absurd hm hne, loop_only := fun hne _ _ => absurd hm hne }
  · obtain rfl | ⟨d, v, a, hv, rfl⟩ := hu
    · exact { hs with fm_only := fun h2 h3 => (hm.elim h2 h3).elim }
    · obtain ⟨p, -, rfl⟩ := loopUpdate_eq_some hv
      exact { hs with
        fm_only := fun h2 h3 => (hm.elim h2 h3).elim
        loop_only := fun _ h2 h3 => (hm.elim h2 h3).elim }
  · exact hs

theorem NoStaleState.advance {s : State} (hs : NoStaleState s) : NoStaleState (advance s) := by
  obtain ⟨-, h⟩ | ⟨-, -, h⟩ | ⟨-, -, h⟩ := advance_cases s <;> rw [h]
  · exact { hs with }
  · exact { hs with }
  · exact noStaleState_applyMode _ s.pmode

/-- Each thing a step can do leaves the accumulators of other modes at their ApplyMode values. -/
theorem noStaleState_of_stepTo {s t : State} (h : StepTo s t) (hs : s.constructed = true → NoStaleState s)
    (ht : t.constructed = true) : NoStaleState t := by
  cases h with
  | reset => exact absurd ht Bool.false_ne_true
  | idle => exact hs ht
  | answer st payload => exact { hs ht with }
  | read v => exact { hs ht with }
  | init rate size hrate hsize => exact { noStaleState_applyMode (s.setRates rate size) 0#4 with }
  | initFailed e => exact absurd ht Bool.false_ne_true
  | setmode code hc => exact { (hs hc).requestMode (canonMode code) with }
  | sample b o u hc hf =>
    have hemit : NoStaleState (u.emit o) := { (hs hc).demodOf hf with }
    exact hemit.advance

/-- Settles O52, by the inversion of the step; taking a request off its port touches no accumulator. -/
theorem noStateLeaksAcrossAModeSwitch : Obligations.NoStateLeaksAcrossAModeSwitch := by
  intro s t _ hs h ht
  obtain ⟨words, beats, drawn, hto⟩ := step_stepTo h
  exact noStaleState_of_stepTo hto (fun hc => { hs hc with }) ht

end Sys2Proof.Safety
end

section
/-! The byte order of command streams and of the host's sample memory (20_memory.md R47, R48): numbers and their
little-endian bytes. -/

namespace Sys2Proof.Machine

/-! ## Command streams -/

/-- R48: the value of a word from its four bytes, the first one the lowest. -/
theorem wordOfBytes_toNat (b0 b1 b2 b3 : Byte) :
    (wordOfBytes b0 b1 b2 b3).toNat = b0.toNat + 2 ^ 8 * b1.toNat + 2 ^ 16 * b2.toNat + 2 ^ 24 * b3.toNat := by
  unfold wordOfBytes
  rw [toNat_append_eq, toNat_append_eq, toNat_append_eq]
  omega

/-- The four bytes of a word make the word again. -/
theorem wordOfBytes_bytes (w : CmdWord) :
    wordOfBytes (w.extractLsb' 0 8) (w.extractLsb' 8 8) (w.extractLsb' 16 8) (w.extractLsb' 24 8) = w := by
  apply BitVec.eq_of_toNat_eq
  rw [wordOfBytes_toNat]
  simp only [BitVec.extractLsb'_toNat, Nat.shiftRight_eq_div_pow]
  omega

/-- A whole word at the head of a byte stream is the head of its words. -/
theorem wordsOfBytes_bytesOfWord_append (w : CmdWord) (bytes : List Byte) :
    wordsOfBytes (bytesOfWord w ++ bytes) = w :: wordsOfBytes bytes :=
  congrArg (· :: wordsOfBytes bytes) (wordOfBytes_bytes w)

theorem wordsOfBytes_bytesOfWords (words : List CmdWord) : wordsOfBytes (bytesOfWords words) = words := by
  induction words with
  | nil => rfl
  | cons w rest ih => rw [bytesOfWords, wordsOfBytes_bytesOfWord_append, ih]

/-- Settles O5: the value of a word is read off its concatenation, and streams go word by word. -/
theorem commandBytesAreLittleEndian : Obligations.CommandBytesAreLittleEndian :=
  ⟨wordOfBytes_toNat, wordsOfBytes_bytesOfWords⟩

/-! ## Sample memory -/

/-- A write of several bytes reaches no byte outside its own. -/
theorem Memory.read_writeLE_outside {m : Memory} (hm : m.wf = true) {a n : Nat} (v : Nat) {c : Nat}
    (hc : c < a ∨ a + n ≤ c) : (m.writeLE a n v).read c = m.read c := by
  induction n generalizing m a v with
  | zero => rfl
  | succ n ih =>
    have hne : c ≠ a := by omega
    rw [Memory.writeLE, ih (Memory.write_wf hm _ _) _ (by omega), Memory.read_write hm, if_neg hne]

/-- Each byte that a little-endian write reaches holds its own digit of the number. -/
theorem Memory.read_writeLE_inside {m : Memory} (hm : m.wf = true) (a : Nat) {n : Nat} (v : Nat) {k : Nat}
    (hk : k < n) : (m.writeLE a n v).read (a + k) = BitVec.ofNat 8 (v / 256 ^ k) := by
  induction n generalizing m a v k with
  | zero => omega
  | succ n ih =>
    have hw := Memory.write_wf hm a (BitVec.ofNat 8 v)
    rw [Memory.writeLE]
    cases k with
    | zero => simp [Memory.read_writeLE_outside hw (v / 256) (.inl (Nat.lt_succ_self a)), Memory.read_write hm]
    | succ k =>
      rw [show a + (k + 1) = a + 1 + k by omega, ih hw (a + 1) (v / 256) (by omega), Nat.div_div_eq_div_mul,
        Nat.pow_succ']

/-- Bytes that are the digits of a number read as that number, cut to their count. -/
theorem Memory.readLE_of_digits {m : Memory} {a n v : Nat}
    (h : ∀ k, k < n → m.read (a + k) = BitVec.ofNat 8 (v / 256 ^ k)) : m.readLE a n = v % 256 ^ n := by
  induction n generalizing a v with
  | zero => simp [Memory.readLE, Nat.mod_one]
  | succ n ih =>
    have hhead : (m.read a).toNat = v % 256 := by simpa using congrArg BitVec.toNat (h 0 (Nat.succ_pos n))
    have htail : m.readLE (a + 1) n = v / 256 % 256 ^ n := ih fun k hk => by
      rw [Nat.add_right_comm, Nat.add_assoc, h (k + 1) (by omega), Nat.pow_succ', Nat.div_div_eq_div_mul]
    rw [Memory.readLE, hhead, htail, Nat.pow_succ', Nat.mod_mul]

/-- What is read depends on the bytes read alone. -/
theorem Memory.readLE_congr {m m' : Memory} {a n : Nat} (h : ∀ c, a ≤ c → c < a + n → m.read c = m'.read c) :
    m.readLE a n = m'.readLE a n := by
  induction n generalizing a with
  | zero => rfl
  | succ n ih => rw [Memory.readLE, Memory.readLE, h a le_rfl (by omega), ih fun c h1 h2 => h c (by omega) (by omega)]

theorem memReadBeat_congr {m m' : Memory} {a : Nat} (h : ∀ c, a ≤ c → c < a + 16 → m.read c = m'.read c) :
    memReadBeat m a = memReadBeat m' a :=
  congrArg (BitVec.ofNat 128) (Memory.readLE_congr h)

/-- R47: no byte outside the sixteen of a beat is written. -/
theorem read_memWriteBeat_outside {m : Memory} (hm : m.wf = true) {a : Nat} (b : Beat) {c : Nat}
    (hc : c < a ∨ a + 16 ≤ c) : (memWriteBeat m a b).read c = m.read c :=
  Memory.read_writeLE_outside hm b.toNat hc

/-- R48: the byte at the lowest address holds the lowest bits of a beat. -/
theorem read_memWriteBeat_inside {m : Memory} (hm : m.wf = true) (a : Nat) (b : Beat) {k : Nat} (hk : k < 16) :
    (memWriteBeat m a b).read (a + k) = b.extractLsb' (8 * k) 8 := by
  rw [memWriteBeat, Memory.read_writeLE_inside hm a b.toNat hk, BitVec.extractLsb', Nat.shiftRight_eq_div_pow,
    Nat.pow_mul]

theorem memReadBeat_memWriteBeat_same {m : Memory} (hm : m.wf = true) (a : Nat) (b : Beat) :
    memReadBeat (memWriteBeat m a b) a = b := by
  have hvalue : (memWriteBeat m a b).readLE a 16 = b.toNat % 256 ^ 16 :=
    Memory.readLE_of_digits fun _ hk => Memory.read_writeLE_inside hm a b.toNat hk
  rw [memReadBeat, hvalue]
  apply BitVec.eq_of_toNat_eq
  have hb := b.isLt
  simp only [BitVec.toNat_ofNat]
  omega

/-- A beat that a write does not overlap is read as before. -/
theorem memReadBeat_memWriteBeat_disjoint {m : Memory} (hm : m.wf = true) {a c : Nat} (b : Beat)
    (h : c + 16 ≤ a ∨ a + 16 ≤ c) : memReadBeat (memWriteBeat m a b) c = memReadBeat m c :=
  memReadBeat_congr fun _ _ _ => read_memWriteBeat_outside hm b (by omega)

/-- Settles O56: a beat is written digit by digit, each byte its own, and the digits read back make the beat. -/
theorem sampleMemoryHoldsBeats : Obligations.SampleMemoryHoldsBeats := by
  intro m a b hm
  exact ⟨memReadBeat_memWriteBeat_same hm a b, memWriteBeat_wf hm a b,
    fun _ hc => read_memWriteBeat_outside hm b hc, fun _ hk => read_memWriteBeat_inside hm a b hk⟩

end Sys2Proof.Machine
end

section
/-! What the block is not given (20_memory.md R45, R49): `exec` reads and writes neither the input ports nor the reset
input nor the host's memory, and a step not the memory. That an operation commutes with putting anything in their place
says both at once: its outcome does not depend on them, and it leaves them as they were. -/

namespace Sys2Proof.Machine

/-! ## The block's surroundings -/

/-- What stands outside the block and what `exec` is not given. -/
structure Surroundings where
  ctrlIn : List CmdWord
  dataIn : List Beat
  resetIn : Bool
  hostMem : Memory

/-- The surroundings as they stand in a state. -/
def State.surroundings (s : State) : Surroundings := ⟨s.ctrlIn, s.dataIn, s.resetIn, s.hostMem⟩

/-- The same block in other surroundings. -/
def State.withSurroundings (s : State) (e : Surroundings) : State :=
  { s with ctrlIn := e.ctrlIn, dataIn := e.dataIn, resetIn := e.resetIn, hostMem := e.hostMem }

@[simp] theorem State.surroundings_withSurroundings (s : State) (e : Surroundings) :
    (s.withSurroundings e).surroundings = e := rfl

theorem State.withSurroundings_surroundings (s : State) : s.withSurroundings s.surroundings = s := rfl

theorem State.withHostMem_self (s : State) : s.withHostMem s.hostMem = s := rfl

@[simp] theorem State.withHostMem_withHostMem (s : State) (m m' : Memory) :
    (s.withHostMem m).withHostMem m' = s.withHostMem m' := rfl

@[simp] theorem State.withDataOut_withHostMem (s : State) (beats : List Beat) (m : Memory) :
    (s.withDataOut beats).withHostMem m = (s.withHostMem m).withDataOut beats := rfl

/-- The outcome with its next state, where it has one, changed. -/
def mapNext (f : State → State) : Host.Outcome State Fault Refusal → Host.Outcome State Fault Refusal
  | .next s => .next (f s)
  | .fault r => .fault r
  | .refused r => .refused r

/-! ## The commands -/

theorem requestMode_withSurroundings (m : ModeCode) (s : State) (e : Surroundings) :
    requestMode m (s.withSurroundings e) = (requestMode m s).withSurroundings e := by
  by_cases h : s.idx = 0#32
  · have h' : (s.withSurroundings e).idx = 0#32 := h
    rw [requestMode, requestMode, if_pos h, if_pos h']; rfl
  · have h' : (s.withSurroundings e).idx ≠ 0#32 := h
    rw [requestMode, requestMode, if_neg h, if_neg h']; rfl

/-- A command that needs a constructed block, around a body that commutes with its surroundings. -/
theorem whenConstructed_withSurroundings {s body body' : State} {e : Surroundings}
    (h : body' = body.withSurroundings e) :
    whenConstructed (s.withSurroundings e) body' = (whenConstructed s body).withSurroundings e := by
  cases hc : s.constructed with
  | false => rw [whenConstructed_of_not hc, whenConstructed_of_not (s := s.withSurroundings e) hc]; rfl
  | true => rw [whenConstructed_of_constructed hc, whenConstructed_of_constructed (s := s.withSurroundings e) hc, h]

theorem execInit_withSurroundings (rate size : BitVec 32) (s : State) (e : Surroundings) :
    execInit rate size (s.withSurroundings e) = mapNext (·.withSurroundings e) (execInit rate size s) := by
  unfold execInit
  rw [apply_ite (mapNext (·.withSurroundings e))]
  rfl

theorem execSetmode_withSurroundings (c : ModeCode) (s : State) (e : Surroundings) :
    execSetmode c (s.withSurroundings e) = mapNext (·.withSurroundings e) (execSetmode c s) := by
  refine congrArg Host.Outcome.next (whenConstructed_withSurroundings ?_)
  rw [requestMode_withSurroundings]
  rfl

theorem execGetmode_withSurroundings (s : State) (e : Surroundings) :
    execGetmode (s.withSurroundings e) = mapNext (·.withSurroundings e) (execGetmode s) :=
  congrArg Host.Outcome.next (whenConstructed_withSurroundings rfl)

/-- RDSTATE reads registers of the block only (R51). -/
theorem readRegister_withSurroundings (s : State) (e : Surroundings) (n : Nat) :
    readRegister (s.withSurroundings e) n = readRegister s n := rfl

theorem execRdstate_withSurroundings (r : BitVec 5) (s : State) (e : Surroundings) :
    execRdstate r (s.withSurroundings e) = mapNext (·.withSurroundings e) (execRdstate r s) := by
  unfold execRdstate
  rw [readRegister_withSurroundings]
  cases readRegister s r.toNat with
  | none => rfl
  | some v => exact congrArg Host.Outcome.next (whenConstructed_withSurroundings rfl)

/-! ## The sample steps -/

theorem advance_withSurroundings (s : State) (e : Surroundings) :
    advance (s.withSurroundings e) = (advance s).withSurroundings e := by
  obtain ⟨h, ha⟩ | ⟨h, hp, ha⟩ | ⟨h, hp, ha⟩ := advance_cases s <;> rw [ha]
  · exact advance_inside h
  · exact advance_end h hp
  · exact advance_end_pending h hp

/-- What a mode does with a beat does not see the surroundings and leaves them alone. -/
def KeepsSurroundings (f : Beat → State → Option (Beat × State)) : Prop :=
  ∀ (b : Beat) (s : State) (e : Surroundings),
    f b (s.withSurroundings e) = (f b s).map fun r => (r.1, r.2.withSurroundings e)

/-- R101: what stands around the mode's work in a sample step keeps the surroundings as well. -/
theorem KeepsSurroundings.sampleStep {f : Beat → State → Option (Beat × State)} (hf : KeepsSurroundings f) (b : Beat)
    (s : State) (e : Surroundings) :
    sampleStep f b (s.withSurroundings e) = mapNext (·.withSurroundings e) (sampleStep f b s) := by
  have hfb := hf b s e
  have hc : (s.withSurroundings e).constructed = s.constructed := rfl
  obtain ⟨hs, h⟩ | ⟨hs, hr, h⟩ | ⟨hs, o, t, hr, h⟩ := sampleStep_cases f b s <;> rw [h]
  · simp [Machine.sampleStep, hc, hs, mapNext]
  · simp [Machine.sampleStep, hc, hs, mapNext, hfb, hr]
  · simp only [Machine.sampleStep, hc, hs, hfb, hr, mapNext, if_true, Option.map_some]
    exact congrArg Host.Outcome.next (advance_withSurroundings (t.emit o) e)

theorem loopUpdate_withSurroundings (s : State) (d : F64) (e : Surroundings) :
    loopUpdate (s.withSurroundings e) d = (loopUpdate s d).map (·.withSurroundings e) := by
  cases h : wrap (nextPhaseRaw s d) with
  | none => rw [loopUpdate_none h, loopUpdate_none (s := s.withSurroundings e) h]; rfl
  | some p => rw [loopUpdate_some h, loopUpdate_some (s := s.withSurroundings e) h]; rfl

theorem trackSamOp_withSurroundings (x : ComplexSample) (s : State) (e : Surroundings) :
    trackSamOp x (s.withSurroundings e) = (trackSamOp x s).map (·.withSurroundings e) :=
  loopUpdate_withSurroundings s (samDifference s x) e

theorem trackFmOp_withSurroundings (x : ComplexSample) (s : State) (e : Surroundings) :
    trackFmOp x (s.withSurroundings e) = (trackFmOp x s).map (·.withSurroundings e) :=
  loopUpdate_withSurroundings s (fmDifference s x) e

theorem passThrough_keepsSurroundings : KeepsSurroundings passThrough := fun _ _ _ => rfl

theorem demodAm_keepsSurroundings : KeepsSurroundings demodAm := fun _ _ _ => rfl

theorem demodSam_keepsSurroundings : KeepsSurroundings demodSam := by
  intro b s e
  unfold demodSam
  rw [trackSamOp_withSurroundings]
  cases trackSamOp (unpackBeat b) s <;> rfl

theorem fmLoopStep_withSurroundings (strap : Bool) (x : ComplexSample) (s : State) (e : Surroundings) :
    fmLoopStep strap x (s.withSurroundings e) = (fmLoopStep strap x s).map (·.withSurroundings e) := by
  cases strap with
  | false => rfl
  | true =>
    change fmFeedback x (s.withSurroundings e) = (fmFeedback x s).map (·.withSurroundings e)
    unfold fmFeedback
    rw [trackFmOp_withSurroundings]
    cases trackFmOp x s <;> rfl

theorem demodFm_keepsSurroundings : KeepsSurroundings demodFm := by
  intro b s e
  unfold demodFm demodFmWith
  rw [fmLoopStep_withSurroundings]
  cases fmLoopStep Config.fmLoop (unpackBeat b) s <;> rfl

theorem microStep_map (r : Option State) (f : State → State) : microStep (r.map f) = mapNext f (microStep r) := by
  cases r <;> rfl

/-! ## Every instruction -/

/-- No instruction's outcome depends on the surroundings, and none changes them. -/
theorem exec_withSurroundings (i : Instr) (s : State) (e : Surroundings) :
    exec i (s.withSurroundings e) = mapNext (·.withSurroundings e) (exec i s) := by
  cases i with
  | init rate size => exact execInit_withSurroundings rate size s e
  | setmode c => exact execSetmode_withSurroundings c s e
  | getmode => exact execGetmode_withSurroundings s e
  | rdstate r => exact execRdstate_withSurroundings r s e
  | sampleAm b => exact demodAm_keepsSurroundings.sampleStep b s e
  | sampleSam b => exact demodSam_keepsSurroundings.sampleStep b s e
  | sampleFmn b | sampleFmw b => exact demodFm_keepsSurroundings.sampleStep b s e
  | sampleDsb b | sampleLsb b | sampleUsb b | sampleCwl b | sampleCwu b | sampleDigl b | sampleDigu b | sampleNone b =>
    exact passThrough_keepsSurroundings.sampleStep b s e
  | trackSam b =>
    change microStep (trackSamOp _ _) = mapNext _ (microStep (trackSamOp _ _))
    rw [trackSamOp_withSurroundings, microStep_map]
  | trackFm b =>
    change microStep (trackFmOp _ _) = mapNext _ (microStep (trackFmOp _ _))
    rw [trackFmOp_withSurroundings, microStep_map]

/-- R45: no instruction changes what stands outside the block. -/
theorem surroundings_of_exec {i : Instr} {s t : State} (h : exec i s = .next t) :
    t.surroundings = s.surroundings := by
  have hself := exec_withSurroundings i s s.surroundings
  rw [State.withSurroundings_surroundings, h] at hself
  rw [Host.Outcome.next.inj hself, State.surroundings_withSurroundings]

/-- R49: an instruction's outcome does not depend on the host's memory. -/
theorem exec_withHostMem (i : Instr) (s : State) (m : Memory) :
    exec i (s.withHostMem m) = mapNext (·.withHostMem m) (exec i s) := by
  have hswap := exec_withSurroundings i s { s.surroundings with hostMem := m }
  change exec i (s.withHostMem m) = _ at hswap
  rw [hswap]
  cases h : exec i s with
  | next t =>
    have ht : t.withHostMem m = (t.withSurroundings s.surroundings).withHostMem m := by
      rw [← surroundings_of_exec h]
      rfl
    exact congrArg Host.Outcome.next ht.symm
  | fault r => rfl
  | refused r => rfl

/-! ## Every step -/

theorem arbitrated_withHostMem (s : State) (m : Memory) :
    arbitrated (s.withHostMem m) = (arbitrated s).withHostMem m := by
  unfold arbitrated
  exact (apply_ite (State.withHostMem · m) _ s.drawFree s).symm

theorem commandStep_withHostMem (s : State) (m : Memory) :
    commandStep (s.withHostMem m) = mapNext (·.withHostMem m) (commandStep s) := by
  unfold commandStep
  rw [State.withHostMem_ctrlIn]
  cases decodeCommand s.ctrlIn with
  | command i rest => exact exec_withHostMem i (s.withCtrlIn rest) m
  | illegal e rest => rfl
  | incomplete => rfl

theorem beatStep_withHostMem (s : State) (m : Memory) :
    beatStep (s.withHostMem m) = mapNext (·.withHostMem m) (beatStep s) := by
  unfold beatStep
  rw [State.withHostMem_dataIn]
  cases s.dataIn with
  | nil => rfl
  | cons b rest => exact exec_withHostMem (decodeBeat s.mode b) (s.withDataIn rest) m

/-- R49, R54: no step's outcome depends on the host's memory. -/
theorem step_withHostMem (s : State) (m : Memory) :
    step (s.withHostMem m) = mapNext (·.withHostMem m) (step s) := by
  cases hr : s.resetIn with
  | true =>
    rw [step_reset hr, step_reset (s := s.withHostMem m) hr]
    rfl
  | false =>
    have hr' : (s.withHostMem m).resetIn = false := hr
    have hg : grantedAgent (s.withHostMem m) = grantedAgent s := rfl
    simp only [step, hr, hr', hg, Bool.false_eq_true, if_false, arbitrated_withHostMem]
    cases grantedAgent s with
    | none => rfl
    | some agent =>
      cases agent with
      | control => exact commandStep_withHostMem _ m
      | data => exact beatStep_withHostMem _ m

/-- R45: no step changes the host's memory. -/
theorem hostMem_of_step {s t : State} (h : step s = .next t) : t.hostMem = s.hostMem := by
  have hself := step_withHostMem s s.hostMem
  rw [State.withHostMem_self, h] at hself
  rw [Host.Outcome.next.inj hself, State.withHostMem_hostMem]

/-- Settles O55: an instruction commutes with a change of the block's surroundings, and a step with a change of the
memory. -/
theorem theBlockMakesNoAddressedAccess : Obligations.TheBlockMakesNoAddressedAccess := by
  refine ⟨fun i s t h => ?_, fun i s t m h => ?_, fun s t h => hostMem_of_step h, fun s t m h => ?_⟩
  · obtain ⟨hctrl, hdata, hreset, hmem⟩ := Surroundings.mk.inj (surroundings_of_exec h)
    exact ⟨fun a => congrArg (·.read a) hmem, hmem, hctrl, hdata, hreset⟩
  · rw [exec_withHostMem, h]
    rfl
  · rw [step_withHostMem, h]
    rfl

end Sys2Proof.Machine
end

section
/-! Which request a step runs (20_memory.md R54; 00_scope.md R5), for each agent that can be granted. -/

namespace Sys2Proof.Machine

/-- Without the reset input a step is the granted agent's. -/
theorem step_released {s : State} (h : s.resetIn = false) : step s = agentStep (grantedAgent s) (arbitrated s) := by
  simp [step, h]

@[simp] theorem arbitrated_ctrlIn (s : State) : (arbitrated s).ctrlIn = s.ctrlIn := by
  obtain ⟨drawn, h⟩ := arbitrated_withRequestTaken s
  rw [h]
  rfl

@[simp] theorem arbitrated_dataIn (s : State) : (arbitrated s).dataIn = s.dataIn := by
  obtain ⟨drawn, h⟩ := arbitrated_withRequestTaken s
  rw [h]
  rfl

@[simp] theorem arbitrated_mode (s : State) : (arbitrated s).mode = s.mode := by
  obtain ⟨drawn, h⟩ := arbitrated_withRequestTaken s
  rw [h]
  rfl

/-- No free value is drawn where at most one request stands. -/
theorem arbitrated_of_not_both {s : State} (h : (commandReady s && beatReady s) = false) : arbitrated s = s := by
  simp [arbitrated, h]

/-- R58, R66: the control agent's step runs the command its words decode to. -/
theorem step_of_control {s : State} {i : Instr} {rest : List CmdWord} (hr : s.resetIn = false)
    (hd : decodeCommand s.ctrlIn = .command i rest) (hg : grantedAgent s = some .control) :
    step s = exec i ((arbitrated s).withCtrlIn rest) := by
  rw [step_released hr, hg]
  change commandStep (arbitrated s) = _
  simp only [commandStep, arbitrated_ctrlIn, hd]

/-- R67, R101: the data agent's step runs what MODE selects for its beat. -/
theorem step_of_data {s : State} {b : Beat} {rest : List Beat} (hr : s.resetIn = false) (hd : s.dataIn = b :: rest)
    (hg : grantedAgent s = some .data) : step s = exec (decodeBeat s.mode b) ((arbitrated s).withDataIn rest) := by
  rw [step_released hr, hg]
  change beatStep (arbitrated s) = _
  simp only [beatStep, arbitrated_dataIn, arbitrated_mode, hd]

/-- Settles O47: the two agents' steps, and the grant by which requests stand. -/
theorem stepRunsTheDecodedInstruction : Obligations.StepRunsTheDecodedInstruction := by
  refine ⟨fun s i rest hr hd hg => step_of_control hr hd hg, fun s b rest hr hd hg => step_of_data hr hd hg,
    fun s => ⟨fun hc hb => ?_, fun hc hb => ?_, fun hc hb => ?_⟩⟩
  · exact ⟨by simp [grantedAgent, hc, hb], arbitrated_of_not_both (by simp [hb])⟩
  · exact ⟨by simp [grantedAgent, hc, hb], arbitrated_of_not_both (by simp [hc])⟩
  · simp [grantedAgent, hc, hb]

end Sys2Proof.Machine
end

section
/-! PROCESSBLOCK over the host's sample memory (42_dispatch.md R112; 20_memory.md R50): what refuses it, what one of its
samples does to the memory, and two runs over different buffers side by side. -/

namespace Sys2Proof.Machine

/-! ## What refuses PROCESSBLOCK -/

theorem processBlock_misaligned {a d : Nat} (s : State) (h : a % 16 ≠ 0 ∨ d % 16 ≠ 0) :
    processBlock a d s = .refused .processBlockMisaligned := by
  simp only [processBlock, if_pos h]

theorem processBlock_not_constructed {a d : Nat} {s : State} (ha : a % 16 = 0) (hd : d % 16 = 0)
    (hc : s.constructed = false) : processBlock a d s = .refused .processBlockNotConstructed := by
  simp [processBlock, ha, hd, hc]

theorem processBlock_inside_block {a d : Nat} {s : State} (ha : a % 16 = 0) (hd : d % 16 = 0)
    (hc : s.constructed = true) (hi : s.idx ≠ 0#32) : processBlock a d s = .refused .processBlockInsideBlock := by
  simp [processBlock, ha, hd, hc, hi]

/-- Settles O57: one lemma for each of the three conditions, in the order they are tested. -/
theorem processBlockIsRefusedByName : Obligations.ProcessBlockIsRefusedByName :=
  fun _ _ s => ⟨processBlock_misaligned s, processBlock_not_constructed, processBlock_inside_block⟩

/-- A PROCESSBLOCK that completes was refused on no count, and ran its samples. -/
theorem processSamples_of_processBlock {a d : Nat} {s t : State} (h : processBlock a d s = .next t) :
    processSamples s.bs.toNat a d s = .next t := by
  unfold processBlock at h
  split_ifs at h
  exact h

/-! ## One sample -/

@[simp] theorem lastOut_withHostMem (s : State) (m : Memory) : lastOut (s.withHostMem m) = lastOut s := rfl

/-- All that one sample can do: the step of its beat, and the output beat written in place of emitted. -/
theorem processSample_eq_next {a d : Nat} {s t : State} (h : processSample a d s = .next t) :
    ∃ v, exec (decodeBeat s.mode (memReadBeat s.hostMem a)) s = .next v ∧
      t = (v.withHostMem (memWriteBeat s.hostMem d (lastOut v))).withDataOut s.dataOut := by
  unfold processSample at h
  split at h
  · next v hv =>
    obtain ⟨-, -, -, hmem⟩ := Surroundings.mk.inj (surroundings_of_exec hv)
    rw [hmem] at h
    exact ⟨v, hv, (Host.Outcome.next.inj h).symm⟩
  · cases h
  · cases h

/-- The first sample of a run, and the rest of it. -/
theorem processSamples_succ_eq_next {n a d : Nat} {s t : State} (h : processSamples (n + 1) a d s = .next t) :
    ∃ s', processSample a d s = .next s' ∧ processSamples n (a + 16) (d + 16) s' = .next t := by
  rw [processSamples] at h
  split at h
  · next s' hs' => exact ⟨s', hs', h⟩
  · cases h
  · cases h

/-- A sample writes one beat of the host's memory. -/
theorem hostMem_of_processSample {a d : Nat} {s t : State} (h : processSample a d s = .next t) :
    ∃ o, t.hostMem = memWriteBeat s.hostMem d o := by
  obtain ⟨v, -, rfl⟩ := processSample_eq_next h
  exact ⟨lastOut v, by simp⟩

/-- A run writes no byte outside its output buffer, and keeps the memory canonical. -/
theorem processSamples_frame {n a d : Nat} {s t : State} (hm : s.hostMem.wf = true)
    (h : processSamples n a d s = .next t) :
    t.hostMem.wf = true ∧ ∀ c, c < d ∨ d + 16 * n ≤ c → t.hostMem.read c = s.hostMem.read c := by
  induction n generalizing a d s with
  | zero =>
    obtain rfl := Host.Outcome.next.inj h
    exact ⟨hm, fun _ _ => rfl⟩
  | succ n ih =>
    obtain ⟨s', hsample, hrest⟩ := processSamples_succ_eq_next h
    obtain ⟨o, hmem⟩ := hostMem_of_processSample hsample
    obtain ⟨hwf, hread⟩ := ih (hmem ▸ memWriteBeat_wf hm d o) hrest
    refine ⟨hwf, fun c hc => ?_⟩
    rw [hread c (by omega), hmem, read_memWriteBeat_outside hm o (by omega)]

/-- The output beat of the first sample still stands when the run ends. -/
theorem memReadBeat_of_processSamples_succ {n a d : Nat} {s t : State} (hm : s.hostMem.wf = true)
    (h : processSamples n a (d + 16) s = .next t) : memReadBeat t.hostMem d = memReadBeat s.hostMem d :=
  memReadBeat_congr fun c _ _ => (processSamples_frame hm h).2 c (by omega)

/-! ## Two runs side by side -/

/-- The same block over two memories that hold the same beat: one sample leaves the same block, and writes one beat `o`
to both. -/
theorem processSample_lockstep {a d : Nat} {s t u : State} {m : Memory} (hin : memReadBeat m a = memReadBeat s.hostMem a)
    (ht : processSample a a s = .next t) (hu : processSample a d (s.withHostMem m) = .next u) :
    ∃ o, t.hostMem = memWriteBeat s.hostMem a o ∧ u = t.withHostMem (memWriteBeat m d o) := by
  obtain ⟨v, hv, rfl⟩ := processSample_eq_next ht
  obtain ⟨w, hw, rfl⟩ := processSample_eq_next hu
  rw [State.withHostMem_mode, State.withHostMem_hostMem, hin, exec_withHostMem, hv] at hw
  obtain rfl := Host.Outcome.next.inj hw
  exact ⟨lastOut v, by simp, by simp⟩

/-- R50: a run in place and a run of the same block into a buffer apart from the input, over memories that hold the same
input beats, leave the same block and the same output beats. The induction goes along the buffers: what the samples done
have written lies before the beats still to be read in place, and nowhere in the input buffer in the other run. -/
theorem processSamples_lockstep {n a d : Nat} {s t u : State} {m : Memory} (hs : s.hostMem.wf = true)
    (hm : m.wf = true) (hapart : a + 16 * n ≤ d ∨ d + 16 * n ≤ a)
    (hin : ∀ k, k < n → memReadBeat m (a + 16 * k) = memReadBeat s.hostMem (a + 16 * k))
    (ht : processSamples n a a s = .next t) (hu : processSamples n a d (s.withHostMem m) = .next u) :
    u = t.withHostMem u.hostMem ∧
      ∀ k, k < n → memReadBeat t.hostMem (a + 16 * k) = memReadBeat u.hostMem (d + 16 * k) := by
  induction n generalizing a d s m with
  | zero =>
    obtain rfl := Host.Outcome.next.inj ht
    obtain rfl := Host.Outcome.next.inj hu
    exact ⟨rfl, fun k hk => absurd hk (Nat.not_lt_zero k)⟩
  | succ n ih =>
    obtain ⟨s', hs', ht'⟩ := processSamples_succ_eq_next ht
    obtain ⟨w, hw, hu'⟩ := processSamples_succ_eq_next hu
    have hfirst : memReadBeat m a = memReadBeat s.hostMem a := by simpa using hin 0 n.succ_pos
    obtain ⟨o, hmem, rfl⟩ := processSample_lockstep hfirst hs' hw
    have hwf : s'.hostMem.wf = true := hmem ▸ memWriteBeat_wf hs a o
    have hwf' : (memWriteBeat m d o).wf = true := memWriteBeat_wf hm d o
    have hin' : ∀ k, k < n →
        memReadBeat (memWriteBeat m d o) (a + 16 + 16 * k) = memReadBeat s'.hostMem (a + 16 + 16 * k) := by
      intro k hk
      have hnext := hin (k + 1) (by omega)
      rw [hmem, memReadBeat_memWriteBeat_disjoint hm o (by omega), memReadBeat_memWriteBeat_disjoint hs o (by omega)]
      rwa [show a + 16 * (k + 1) = a + 16 + 16 * k by omega] at hnext
    obtain ⟨hblock, hbeats⟩ := ih hwf hwf' (by omega) hin' ht' hu'
    refine ⟨hblock, fun k hk => ?_⟩
    cases k with
    | zero =>
      have hplace : memReadBeat t.hostMem a = o := by
        rw [memReadBeat_of_processSamples_succ hwf ht', hmem, memReadBeat_memWriteBeat_same hs]
      have hseparate : memReadBeat u.hostMem d = o := by
        rw [memReadBeat_of_processSamples_succ (by simpa using hwf') hu', State.withHostMem_hostMem,
          memReadBeat_memWriteBeat_same hm]
      rw [Nat.mul_zero, Nat.add_zero, Nat.add_zero, hplace, hseparate]
    | succ k =>
      have hk' := hbeats k (by omega)
      rwa [show a + 16 + 16 * k = a + 16 * (k + 1) by omega, show d + 16 + 16 * k = d + 16 * (k + 1) by omega] at hk'

/-- Settles O59: the two runs of PROCESSBLOCK go side by side from one state. -/
theorem inPlaceBlockEqualsSeparateBlock : Obligations.InPlaceBlockEqualsSeparateBlock := by
  intro a d s t u hm hapart ht hu
  obtain ⟨hblock, hbeats⟩ := processSamples_lockstep (m := s.hostMem) hm hm hapart (fun _ _ => rfl)
    (processSamples_of_processBlock ht) (processSamples_of_processBlock hu)
  exact ⟨by rw [hblock]; rfl, hbeats⟩

end Sys2Proof.Machine
end

section
/-! The encodings of the instructions (30_encoding.md R58 to R61, R66 to R68): the fields of a command word, all that the
decoder makes of a first word, and what an illegal one does in a step. -/

namespace Sys2Proof.Machine

/-! ## The fields of a command word (R59) -/

theorem opField_toNat (w : CmdWord) : (opField w).toNat = w.toNat / 2 ^ 24 := by
  rw [opField, BitVec.extractLsb'_toNat, Nat.shiftRight_eq_div_pow]
  omega

theorem rsvField_toNat (w : CmdWord) : (rsvField w).toNat = w.toNat / 2 ^ 5 % 2 ^ 19 := by
  rw [rsvField, BitVec.extractLsb'_toNat, Nat.shiftRight_eq_div_pow]

theorem argField_toNat (w : CmdWord) : (argField w).toNat = w.toNat % 2 ^ 5 := by
  rw [argField, BitVec.extractLsb'_toNat, Nat.shiftRight_zero]

theorem modeField_toNat (w : CmdWord) : (modeField w).toNat = w.toNat % 2 ^ 4 := by
  rw [modeField, BitVec.extractLsb'_toNat, Nat.shiftRight_zero]

theorem commandWord_toNat (op : BitVec 8) (arg : BitVec 5) :
    (commandWord op arg).toNat = op.toNat * 2 ^ 24 + arg.toNat := by
  rw [commandWord, toNat_append_eq, toNat_append_eq, BitVec.toNat_ofNat]
  omega

@[simp] theorem opField_commandWord (op : BitVec 8) (arg : BitVec 5) : opField (commandWord op arg) = op := by
  apply BitVec.eq_of_toNat_eq
  rw [opField_toNat, commandWord_toNat]
  omega

@[simp] theorem rsvField_commandWord (op : BitVec 8) (arg : BitVec 5) : rsvField (commandWord op arg) = 0#19 := by
  apply BitVec.eq_of_toNat_eq
  rw [rsvField_toNat, commandWord_toNat, BitVec.toNat_ofNat]
  omega

@[simp] theorem argField_commandWord (op : BitVec 8) (arg : BitVec 5) : argField (commandWord op arg) = arg := by
  apply BitVec.eq_of_toNat_eq
  rw [argField_toNat, commandWord_toNat]
  omega

/-- SETMODE's operand as a number: `arg[4]` is zero above the mode code. -/
theorem setmodeArg_toNat (c : ModeCode) : (0#1 ++ c).toNat = c.toNat := by
  rw [toNat_append_eq, BitVec.toNat_ofNat]
  omega

@[simp] theorem modeField_commandWord (op : BitVec 8) (c : ModeCode) :
    modeField (commandWord op (0#1 ++ c)) = c := by
  apply BitVec.eq_of_toNat_eq
  rw [modeField_toNat, commandWord_toNat, setmodeArg_toNat]
  omega

/-- A word without reserved bits is made of its opcode and its operand. -/
theorem eq_commandWord {w : CmdWord} (h : rsvField w = 0#19) : w = commandWord (opField w) (argField w) := by
  apply BitVec.eq_of_toNat_eq
  have hrsv := congrArg BitVec.toNat h
  rw [rsvField_toNat, BitVec.toNat_ofNat] at hrsv
  rw [commandWord_toNat, opField_toNat, argField_toNat]
  omega

/-- An operand with `arg[4] = 0` is the mode code below it. -/
theorem argField_eq_setmodeArg {w : CmdWord} (h : (argField w).toNat < 16) : argField w = 0#1 ++ modeField w := by
  apply BitVec.eq_of_toNat_eq
  rw [argField_toNat] at h
  rw [argField_toNat, setmodeArg_toNat, modeField_toNat]
  omega

/-! ## One command off a stream (R58, R66) -/

theorem decodeCommand_init (rest : List CmdWord) : decodeCommand (commandWord 1#8 0#5 :: rest) = decodeInit rest := rfl

theorem decodeCommand_setmode (c : ModeCode) (rest : List CmdWord) :
    decodeCommand (commandWord 2#8 (0#1 ++ c) :: rest) = .command (.setmode c) rest := by
  have harg : ¬16 ≤ (0#1 ++ c).toNat := by
    rw [setmodeArg_toNat]
    omega
  simp [decodeCommand, harg]

theorem decodeCommand_getmode (rest : List CmdWord) :
    decodeCommand (commandWord 3#8 0#5 :: rest) = .command .getmode rest := rfl

theorem decodeCommand_rdstate {r : BitVec 5} (h : legalIndex r = true) (rest : List CmdWord) :
    decodeCommand (commandWord 4#8 r :: rest) = .command (.rdstate r) rest := by
  simp [decodeCommand, h]

/-- R68, clause by clause: an unknown opcode, a reserved bit, an operand of INIT or GETMODE, bit 4 of SETMODE, a reserved
register index. `decodeCommand_illegal_iff` ties it to the decoder. -/
def IllegalWord (w : CmdWord) : Prop :=
  w.toNat / 2 ^ 24 = 0 ∨ 5 ≤ w.toNat / 2 ^ 24 ∨ w.toNat / 2 ^ 5 % 2 ^ 19 ≠ 0 ∨
    ((w.toNat / 2 ^ 24 = 1 ∨ w.toNat / 2 ^ 24 = 3) ∧ w.toNat % 2 ^ 5 ≠ 0) ∨
    (w.toNat / 2 ^ 24 = 2 ∧ w.toNat / 2 ^ 4 % 2 = 1) ∨ (w.toNat / 2 ^ 24 = 4 ∧ 21 < w.toNat % 2 ^ 5)

theorem legalIndex_iff (r : BitVec 5) : legalIndex r = true ↔ r.toNat ≤ 21 := decide_eq_true_iff

/-- No first word that encodes a command is illegal. -/
theorem not_illegalWord_init : ¬IllegalWord (commandWord 1#8 0#5) := by
  unfold IllegalWord
  decide

theorem not_illegalWord_setmode (c : ModeCode) : ¬IllegalWord (commandWord 2#8 (0#1 ++ c)) := by
  have hc := c.isLt
  simp only [IllegalWord, commandWord_toNat, setmodeArg_toNat, BitVec.toNat_ofNat]
  omega

theorem not_illegalWord_getmode : ¬IllegalWord (commandWord 3#8 0#5) := by
  unfold IllegalWord
  decide

theorem not_illegalWord_rdstate {r : BitVec 5} (h : legalIndex r = true) : ¬IllegalWord (commandWord 4#8 r) := by
  rw [legalIndex_iff] at h
  simp only [IllegalWord, commandWord_toNat, BitVec.toNat_ofNat]
  omega

/-- All that the decoder makes of a first word: it is illegal, or it is the first word of one of the four commands. -/
theorem decodeCommand_cons_cases (w : CmdWord) (rest : List CmdWord) :
    (IllegalWord w ∧ ∃ e, decodeCommand (w :: rest) = .illegal e rest) ∨
    w = commandWord 1#8 0#5 ∨ (∃ c : ModeCode, w = commandWord 2#8 (0#1 ++ c)) ∨ w = commandWord 3#8 0#5 ∨
    ∃ r, legalIndex r = true ∧ w = commandWord 4#8 r := by
  generalize hd : decodeCommand (w :: rest) = d
  rw [IllegalWord, ← opField_toNat, ← rsvField_toNat, ← argField_toNat]
  rw [decodeCommand] at hd
  split_ifs at hd with hop hrsv h1 harg h2 harg h3 harg hindex
  · exact .inl ⟨by bv_omega, _, hd.symm⟩
  · exact .inl ⟨by bv_omega, _, hd.symm⟩
  · exact .inl ⟨by bv_omega, _, hd.symm⟩
  · have hw := eq_commandWord (not_not.mp hrsv)
    rw [h1, not_not.mp harg] at hw
    exact .inr (.inl hw)
  · have hbit : w.toNat / 2 ^ 4 % 2 = 1 := by
      rw [argField_toNat] at harg
      omega
    exact .inl ⟨by bv_omega, _, hd.symm⟩
  · have hw := eq_commandWord (not_not.mp hrsv)
    rw [h2, argField_eq_setmodeArg (not_le.mp harg)] at hw
    exact .inr (.inr (.inl ⟨_, hw⟩))
  · exact .inl ⟨by bv_omega, _, hd.symm⟩
  · have hw := eq_commandWord (not_not.mp hrsv)
    rw [h3, not_not.mp harg] at hw
    exact .inr (.inr (.inr (.inl hw)))
  · have hw := eq_commandWord (not_not.mp hrsv)
    rw [show opField w = 4#8 by bv_omega] at hw
    exact .inr (.inr (.inr (.inr ⟨_, hindex, hw⟩)))
  · rw [legalIndex_iff] at hindex
    exact .inl ⟨by bv_omega, _, hd.symm⟩

/-- INIT is read with both its operand words, or not yet. -/
theorem decodeInit_cases (words : List CmdWord) :
    decodeInit words = .incomplete ∨
    ∃ rate size rest, words = rate :: size :: rest ∧ decodeInit words = .command (.init rate size) rest := by
  unfold decodeInit
  split
  · exact .inr ⟨_, _, _, rfl, rfl⟩
  · exact .inl rfl

theorem decodeInit_ne_illegal (words rest : List CmdWord) (e : DecodeError) : decodeInit words ≠ .illegal e rest := by
  obtain h | ⟨rate, size, rest', -, h⟩ := decodeInit_cases words <;> simp [h]

/-- R68: the decoder finds a first word illegal exactly where a clause of the rule holds. -/
theorem decodeCommand_illegal_iff (w : CmdWord) (rest : List CmdWord) :
    (∃ e, decodeCommand (w :: rest) = .illegal e rest) ↔ IllegalWord w := by
  obtain ⟨hw, he⟩ | rfl | ⟨c, rfl⟩ | rfl | ⟨r, hr, rfl⟩ := decodeCommand_cons_cases w rest
  · exact iff_of_true he hw
  · simp [decodeCommand_init, decodeInit_ne_illegal, not_illegalWord_init]
  · simp [decodeCommand_setmode, not_illegalWord_setmode]
  · simp [decodeCommand_getmode, not_illegalWord_getmode]
  · simp [decodeCommand_rdstate hr, not_illegalWord_rdstate hr]

/-- R58 to R60: the words of a well-formed command in front of any others are read as that command. -/
theorem decodeCommand_encode {i : Instr} {words : List CmdWord} (hwf : i.wellFormed = true)
    (h : encode i = .command words) (rest : List CmdWord) : decodeCommand (words ++ rest) = .command i rest := by
  cases i with
  | init rate size => cases h; rfl
  | setmode c => cases h; exact decodeCommand_setmode c rest
  | getmode => cases h; rfl
  | rdstate r => cases h; exact decodeCommand_rdstate hwf rest
  | _ => cases h

/-- R58, R66: a command is read off its own encoding and nothing else. -/
theorem encode_of_decodeCommand {words rest : List CmdWord} {i : Instr} (h : decodeCommand words = .command i rest) :
    i.wellFormed = true ∧ ∃ own, encode i = .command own ∧ words = own ++ rest := by
  cases words with
  | nil => cases h
  | cons w tail =>
    obtain ⟨-, e, he⟩ | rfl | ⟨c, rfl⟩ | rfl | ⟨r, hr, rfl⟩ := decodeCommand_cons_cases w tail
    · rw [he] at h
      cases h
    · rw [decodeCommand_init] at h
      obtain hinit | ⟨rate, size, tail', rfl, hinit⟩ := decodeInit_cases tail <;> rw [hinit] at h <;> cases h
      exact ⟨rfl, _, rfl, rfl⟩
    · rw [decodeCommand_setmode] at h
      cases h
      exact ⟨rfl, _, rfl, rfl⟩
    · rw [decodeCommand_getmode] at h
      cases h
      exact ⟨rfl, _, rfl, rfl⟩
    · rw [decodeCommand_rdstate hr] at h
      cases h
      exact ⟨hr, _, rfl, rfl⟩

/-- Settles O2: the four commands one by one, in both directions. -/
theorem commandWordsRoundTrip : Obligations.CommandWordsRoundTrip :=
  ⟨fun _ _ rest hwf h => decodeCommand_encode hwf h rest, fun _ _ _ h => encode_of_decodeCommand h⟩

/-! ## The three forms of an encoding (R66, R67, R73) -/

theorem decodeBeat_of_encode {i : Instr} {mode : ModeCode} {b : Beat} (h : encode i = .beat mode b) :
    decodeBeat mode b = i := by
  cases i <;> cases h <;> rfl

theorem decodeMicro_of_encode {i : Instr} {tv : Bool} {b : Beat} (h : encode i = .micro tv b) :
    decodeMicro tv b = i := by
  cases i <;> cases h <;> rfl

/-- Settles O1: each form of an encoding is decoded by its own table, a command with no words left behind it. -/
theorem decodeOfEncodeIsTheInstruction : Obligations.DecodeOfEncodeIsTheInstruction := by
  intro i hwf
  cases h : encode i with
  | command words =>
    have hwords := decodeCommand_encode hwf h []
    rw [List.append_nil] at hwords
    simp only [decode, hwords]
  | beat mode b => exact congrArg some (decodeBeat_of_encode h)
  | micro tv b => exact congrArg some (decodeMicro_of_encode h)

/-- Settles O4: the command words are those of the four encodings, and index 22 is the first one reserved. -/
theorem specWordsDecode : Obligations.SpecWordsDecode :=
  ⟨decodeCommand_init _, decodeCommand_setmode 1#4 [], decodeCommand_setmode 15#4 [], decodeCommand_getmode [],
    decodeCommand_rdstate (r := 21#5) rfl [], rfl⟩

/-! ## The dispatch table (R67) -/

theorem uselOf_toNat (m : ModeCode) :
    (uselOf m).toNat = if m.toNat = 0 then 1 else if m.toNat = 1 then 2 else if m.toNat ≤ 3 then 3 else 0 := by
  revert m
  decide

theorem tvOf_iff (m : ModeCode) : tvOf m = true ↔ m.toNat = 1 := by
  rw [tvOf, decide_eq_true_iff, BitVec.toNat_eq]
  rfl

/-- Settles O6: the dispatch row by row, at any beat, and the two selects. -/
theorem dispatchIsByModeAlone : Obligations.DispatchIsByModeAlone := by
  intro m b
  refine ⟨?_, uselOf_toNat m, tvOf_iff m⟩
  obtain ⟨code⟩ := m
  fin_cases code <;> rfl

/-! ## An illegal command (R68, R142) -/

/-- The step that takes an illegal word consumes it and answers. -/
theorem step_of_illegal {s : State} {e : DecodeError} {rest : List CmdWord} (hr : s.resetIn = false)
    (hd : decodeCommand s.ctrlIn = .illegal e rest) (hg : grantedAgent s = some .control) :
    step s = .next (raiseIllegal ((arbitrated s).withCtrlIn rest)) := by
  rw [step_released hr, hg]
  change commandStep (arbitrated s) = _
  simp only [commandStep, arbitrated_ctrlIn, hd]

/-- RDSTATE of a reserved index answers as an illegal command does. -/
theorem exec_rdstate_reserved {r : BitVec 5} (h : 21 < r.toNat) (s : State) :
    exec (.rdstate r) s = .next (raiseIllegal s) := by
  have hnone : readRegister s r.toNat = none := by
    rw [← Option.not_isSome_iff_eq_none, readRegister_isSome_iff]
    omega
  change execRdstate r s = _
  simp only [execRdstate, hnone]

/-- Settles O3: the decoder's illegal words are those of the rule, and what a request taken leaves differs from the state
in the ports and the count of free values alone. -/
theorem illegalCommandAnswersAndChangesNothing : Obligations.IllegalCommandAnswersAndChangesNothing := by
  intro w rest
  refine ⟨decodeCommand_illegal_iff w rest, fun e s hd hr hc hg => ?_, fun r s h => ?_⟩
  · obtain ⟨drawn, harb⟩ := arbitrated_withRequestTaken s
    rw [step_of_illegal hr (hc ▸ hd) hg, harb]
    rfl
  · rw [exec_rdstate_reserved h]
    rfl

end Sys2Proof.Machine
end

section
/-! SETMODE and then GETMODE (43_mode_control.md R118, R123): the mode requested is the mode answered. -/

namespace Sys2Proof.Machine

theorem exec_setmode_constructed {s : State} (hc : s.constructed = true) (c : ModeCode) :
    exec (.setmode c) s = .next ((requestMode (canonMode c) s).setRsp (responseWord .ok 0#8)) :=
  congrArg Host.Outcome.next (whenConstructed_of_constructed hc)

theorem exec_getmode_constructed {s : State} (hc : s.constructed = true) :
    exec .getmode s = .next (s.setRsp (responseWord .ok ((requestedMode s).setWidth 8))) :=
  congrArg Host.Outcome.next (whenConstructed_of_constructed hc)

/-- R118: a mode requested is in force at a boundary and pending inside a block, and answers GETMODE either way. -/
theorem requestedMode_requestMode (m : ModeCode) (s : State) : requestedMode (requestMode m s) = m := by
  unfold requestMode
  split <;> rfl

/-- A mode code as the payload of GETMODE's answer (R123). -/
theorem responseWord_mode_toNat (m : ModeCode) : (responseWord .ok (m.setWidth 8)).toNat = m.toNat := by
  rw [responseWord_toNat, BitVec.toNat_setWidth]
  simp only [statusCode, BitVec.toNat_ofNat]
  omega

/-- R69: an unrecognised code is AM. -/
theorem canonMode_toNat (c : ModeCode) : (canonMode c).toNat = if c.toNat ≤ 11 then c.toNat else 0 :=
  apply_ite BitVec.toNat _ c 0#4

/-- Settles O13: SETMODE leaves the block constructed, and GETMODE answers what it requested. -/
theorem getmodeAnswersTheModeRequested : Obligations.GetmodeAnswersTheModeRequested := by
  intro c s hc
  have hc' : ((requestMode (canonMode c) s).setRsp (responseWord .ok 0#8)).constructed = true :=
    (Safety.requestMode_frame (canonMode c) s).1.trans hc
  refine ⟨_, _, exec_setmode_constructed hc c, exec_getmode_constructed hc', ?_⟩
  have hmode : requestedMode ((requestMode (canonMode c) s).setRsp (responseWord .ok 0#8)) = canonMode c :=
    requestedMode_requestMode (canonMode c) s
  rw [State.setRsp_rsp, hmode, responseWord_mode_toNat, canonMode_toNat]

end Sys2Proof.Machine
end

section
/-! The host tool's table of mode names (30_encoding.md R63, R72), read by code and by name. -/

namespace Sys2Proof.Machine

/-- A name found for a code stands in the table with that code. -/
theorem mem_modeNames_of_modeToName {c : ModeCode} {name : String} (h : modeToName c = some name) :
    (name, c) ∈ modeNames := by
  obtain ⟨⟨n, d⟩, hfind, rfl⟩ := Option.map_eq_some_iff.mp h
  obtain rfl : d = c := by simpa using List.find?_some hfind
  exact List.mem_of_find?_eq_some hfind

/-- No name stands in the table twice, so each is found with its own code. -/
theorem nameToMode_of_mem : ∀ p ∈ modeNames, nameToMode p.1 = p.2 := by decide

/-- A string that is no name is AM. -/
theorem nameToMode_of_not_mem {name : String} (h : name ∉ modeNames.map Prod.fst) : nameToMode name = 0#4 := by
  have hnone : modeNames.find? (fun p => p.1 = name) = none := by
    rw [List.find?_eq_none]
    intro p hp hname
    exact h (List.mem_map.mpr ⟨p, hp, of_decide_eq_true hname⟩)
  rw [nameToMode, hnone]
  rfl

/-- Settles O60: the table in the order of its codes, and the search of it by name. -/
theorem modeNamesRoundTrip : Obligations.ModeNamesRoundTrip :=
  ⟨by decide, fun _ _ h => nameToMode_of_mem _ (mem_modeNames_of_modeToName h), fun _ h => nameToMode_of_not_mem h⟩

end Sys2Proof.Machine
end

section
/-! Rounding in full (40_numerics.md R74): a magnitude between two neighbouring patterns rounds to the nearer of the
two, and half way between them to the even one. Every pattern stands for its significand times a power of two, so the
two neighbours are two neighbouring significands behind one shift. -/

namespace Sys2Proof.Machine

open Sys2Proof.Safety

/-! ## Neighbouring patterns -/

/-- A significand of 53 bits at most behind a shift, a shift being taken only by one of 53 bits. A significand of `2^53`
is the pattern of the next power of two. -/
theorem magnitudeUnits_significand {c e : Nat} (hpat : e * 2 ^ 52 + c ≤ infBits) (hc : c ≤ 2 ^ 53)
    (hnormal : e ≠ 0 → 2 ^ 52 ≤ c) : magnitudeUnits (e * 2 ^ 52 + c) = c * 2 ^ e := by
  rw [magnitudeUnits_eq hpat]
  rcases lt_or_ge (e * 2 ^ 52 + c) (2 ^ 52) with hsub | hnorm
  · obtain rfl : e = 0 := by omega
    rw [if_pos hsub]
    simp
  · rw [if_neg (by omega)]
    rcases hc.lt_or_eq with hlt | rfl
    · have hmod : 2 ^ 52 + (e * 2 ^ 52 + c) % 2 ^ 52 = c := by omega
      have hdiv : (e * 2 ^ 52 + c) / 2 ^ 52 - 1 = e := by omega
      rw [hmod, hdiv]
    · have hmod : (e * 2 ^ 52 + 2 ^ 53) % 2 ^ 52 = 0 := by omega
      have hdiv : (e * 2 ^ 52 + 2 ^ 53) / 2 ^ 52 - 1 = e + 1 := by omega
      rw [hmod, hdiv, pow_succ]
      ring

/-- A finite pattern and the next one: neighbouring significands behind one shift. -/
theorem exists_significand_shift_succ {m : Nat} (hm : m < infBits) :
    ∃ c e, m = e * 2 ^ 52 + c ∧ magnitudeUnits m = c * 2 ^ e ∧ magnitudeUnits (m + 1) = (c + 1) * 2 ^ e ∧
      c < 2 ^ 53 ∧ (e ≠ 0 → 2 ^ 52 ≤ c) := by
  obtain ⟨c, e, hpat, hunits, hc, hnormal⟩ := exists_significand_shift hm.le
  refine ⟨c, e, hpat, hunits, ?_, hc, hnormal⟩
  rw [hpat, Nat.add_assoc]
  exact magnitudeUnits_significand (by omega) hc fun he => (hnormal he).trans (Nat.le_succ c)

theorem magnitudeUnits_lt_succ {m : Nat} (hm : m < infBits) : magnitudeUnits m < magnitudeUnits (m + 1) := by
  obtain ⟨c, e, -, hunits, hsucc, -, -⟩ := exists_significand_shift_succ hm
  rw [hunits, hsucc]
  exact Nat.mul_lt_mul_of_pos_right (Nat.lt_succ_self c) (Nat.two_pow_pos e)

/-- Different patterns stand for different magnitudes, in their order. -/
theorem magnitudeUnits_strictMono {m n : Nat} (hn : n ≤ infBits) (h : m < n) : magnitudeUnits m < magnitudeUnits n :=
  (magnitudeUnits_lt_succ (h.trans_le hn)).trans_le (magnitudeUnits_mono hn h)

/-! ## Between two neighbours -/

/-- The shift of a magnitude is the one its pattern holds. -/
theorem roundShift_eq {q c e : Nat} (hlow : c * 2 ^ e ≤ q) (hhigh : q < (c + 1) * 2 ^ e) (hc : c < 2 ^ 53)
    (hnormal : e ≠ 0 → 2 ^ 52 ≤ c) : roundShift q = e := by
  have htop : q < 2 ^ (e + 53) := by
    calc q < (c + 1) * 2 ^ e := hhigh
      _ ≤ 2 ^ 53 * 2 ^ e := Nat.mul_le_mul_right _ hc
      _ = 2 ^ (e + 53) := by rw [← pow_add, Nat.add_comm]
  have hle : roundShift q ≤ e := by
    by_contra hlt
    have hbin := roundShift_binade (q := q) (by omega)
    have : 2 ^ (e + 53) ≤ 2 ^ (roundShift q + 52) := Nat.pow_le_pow_right (by decide) (by omega)
    omega
  have hge : e ≤ roundShift q := by
    by_contra hlt
    have hbin := lt_roundShift_binade q
    have : 2 ^ (roundShift q + 53) ≤ 2 ^ (e + 52) := Nat.pow_le_pow_right (by decide) (by omega)
    have : 2 ^ (e + 52) ≤ c * 2 ^ e := by
      rw [Nat.add_comm e, pow_add]
      exact Nat.mul_le_mul_right _ (hnormal (by omega))
    omega
  omega

/-- Between two neighbouring integers the nearer one, half way the even one. -/
theorem divNearestEven_between {num den c : Nat} (hlow : c * den ≤ num) (hhigh : num < (c + 1) * den) :
    divNearestEven num den = c ∧ (2 * num < (c + (c + 1)) * den ∨ 2 * num = (c + (c + 1)) * den ∧ c % 2 = 0) ∨
    divNearestEven num den = c + 1 ∧ ((c + (c + 1)) * den < 2 * num ∨ 2 * num = (c + (c + 1)) * den ∧ c % 2 = 1) := by
  have hdiv : num / den = c := Nat.div_eq_of_lt_le hlow hhigh
  have hmod : den * c + num % den = num := by
    rw [← hdiv]
    exact Nat.div_add_mod num den
  have hmid : (c + (c + 1)) * den = 2 * (den * c) + den := by ring
  unfold divNearestEven
  rw [hdiv, hmid]
  split_ifs <;> omega

/-- Between two neighbouring patterns rounding answers the nearer one, half way the even one. -/
theorem roundUnits_between {num den m : Nat} (hd : 0 < den) (hm : m < infBits) (hlow : magnitudeUnits m * den ≤ num)
    (hhigh : num < magnitudeUnits (m + 1) * den) :
    roundUnits num den = m ∧ (2 * num < (magnitudeUnits m + magnitudeUnits (m + 1)) * den ∨
      2 * num = (magnitudeUnits m + magnitudeUnits (m + 1)) * den ∧ m % 2 = 0) ∨
    roundUnits num den = m + 1 ∧ ((magnitudeUnits m + magnitudeUnits (m + 1)) * den < 2 * num ∨
      2 * num = (magnitudeUnits m + magnitudeUnits (m + 1)) * den ∧ m % 2 = 1) := by
  obtain ⟨c, e, hpat, hunits, hsucc, hc, hnormal⟩ := exists_significand_shift_succ hm
  rw [hunits] at hlow
  rw [hsucc] at hhigh
  have hshift : roundShift (num / den) = e :=
    roundShift_eq ((Nat.le_div_iff_mul_le hd).mpr hlow) ((Nat.div_lt_iff_lt_mul hd).mpr hhigh) hc hnormal
  have hcomm : ∀ a, a * 2 ^ e * den = a * (den * 2 ^ e) := fun a => by ring
  have hmid : (magnitudeUnits m + magnitudeUnits (m + 1)) * den = (c + (c + 1)) * (den * 2 ^ e) := by
    rw [hunits, hsucc]
    ring
  have hparity : c % 2 = m % 2 := by omega
  have hpack : ∀ x, x ≤ c + 1 → min infBits (e * 2 ^ 52 + x) = e * 2 ^ 52 + x := fun x hx =>
    Nat.min_eq_right (by omega)
  unfold roundUnits
  rw [hshift, hmid]
  rw [hcomm] at hlow hhigh
  rcases divNearestEven_between hlow hhigh with ⟨hsig, hside⟩ | ⟨hsig, hside⟩
  · rw [hsig, hpack c (Nat.le_succ c), ← hparity]
    exact .inl ⟨hpat.symm, hside⟩
  · rw [hsig, hpack (c + 1) le_rfl, ← hparity, ← Nat.add_assoc, ← hpat]
    exact .inr ⟨rfl, hside⟩

/-- A magnitude below `2^1024` lies between a finite pattern and the next one. -/
theorem exists_neighbours {num den : Nat} (hd : 0 < den) (h : num < magnitudeUnits infBits * den) :
    ∃ m, m < infBits ∧ magnitudeUnits m * den ≤ num ∧ num < magnitudeUnits (m + 1) * den := by
  have hle := roundUnits_le num den
  have habove : ∀ m, m ≤ infBits → roundUnits num den < m → num < magnitudeUnits m * den := fun m hm hlt => by
    by_contra hge
    have := le_roundUnits_of_le hd hm (not_lt.mp hge)
    omega
  rcases le_or_gt (magnitudeUnits (roundUnits num den) * den) num with hlow | hhigh
  · have hfin : roundUnits num den < infBits := by
      by_contra hinf
      rw [hle.antisymm (not_lt.mp hinf)] at hlow
      omega
    exact ⟨_, hfin, hlow, habove _ hfin (Nat.lt_succ_self _)⟩
  · have hpos : roundUnits num den ≠ 0 := by
      intro h0
      rw [h0, magnitudeUnits_eq (Nat.zero_le _)] at hhigh
      simp at hhigh
    refine ⟨roundUnits num den - 1, by omega, ?_, by rwa [Nat.sub_add_cancel (by omega)]⟩
    by_contra hlt
    have := roundUnits_le_of_le hd (by omega) (not_le.mp hlt).le
    omega

/-! ## Correct rounding -/

/-- Which of two patterns is nearer shows at the middle of their magnitudes. -/
theorem distance_compare {num den j k : Nat} (hd : 0 < den) (hk : k ≤ infBits) (h : j < k) :
    (distance num den j < distance num den k ↔ 2 * num < (magnitudeUnits j + magnitudeUnits k) * den) ∧
    (distance num den k < distance num den j ↔ (magnitudeUnits j + magnitudeUnits k) * den < 2 * num) ∧
    (distance num den k = distance num den j ↔ 2 * num = (magnitudeUnits j + magnitudeUnits k) * den) := by
  have hlt := Nat.mul_lt_mul_of_pos_right (magnitudeUnits_strictMono hk h) hd
  rw [Nat.add_mul]
  unfold distance
  refine ⟨?_, ?_, ?_⟩ <;> omega

/-- A pattern nearer than its two neighbours, half way being left to the even one, is nearest among all. -/
theorem nearestEven_of_neighbours {num den n : Nat} (hd : 0 < den) (hn : n < infBits)
    (hup : 2 * num < (magnitudeUnits n + magnitudeUnits (n + 1)) * den ∨
      2 * num = (magnitudeUnits n + magnitudeUnits (n + 1)) * den ∧ n % 2 = 0)
    (hdown : ∀ j, j + 1 = n → (magnitudeUnits j + magnitudeUnits n) * den < 2 * num ∨
      2 * num = (magnitudeUnits j + magnitudeUnits n) * den ∧ n % 2 = 0) :
    NearestEven num den n := by
  refine ⟨hn, fun k hk hne => ?_⟩
  rcases Nat.lt_or_gt_of_ne hne with hlt | hgt
  · obtain ⟨-, hnearer, hequal⟩ := distance_compare (num := num) hd hn.le hlt
    have hmono : (magnitudeUnits k + magnitudeUnits n) * den ≤ (magnitudeUnits (n - 1) + magnitudeUnits n) * den := by
      gcongr
      exact magnitudeUnits_mono (by omega) (by omega)
    have := hdown (n - 1) (by omega)
    rw [hnearer, hequal]
    omega
  · obtain ⟨hnearer, -, hequal⟩ := distance_compare (num := num) hd hk.le hgt
    have hmono : (magnitudeUnits n + magnitudeUnits (n + 1)) * den ≤ (magnitudeUnits n + magnitudeUnits k) * den := by
      gcongr
      exact magnitudeUnits_mono hk.le hgt
    rw [hnearer, eq_comm, hequal]
    omega

/-- Overflow begins half way between the largest finite magnitude and `2^1024`. -/
theorem two_mul_overflowUnits :
    2 * overflowUnits = magnitudeUnits (infBits - 1) + magnitudeUnits (infBits - 1 + 1) := by decide +kernel

theorem overflow_midpoint (den : Nat) :
    2 * (overflowUnits * den) = (magnitudeUnits (infBits - 1) + magnitudeUnits (infBits - 1 + 1)) * den :=
  (Nat.mul_assoc 2 overflowUnits den).symm.trans (congrArg (· * den) two_mul_overflowUnits)

/-- From half way on, rounding answers an infinity: the largest finite pattern is the odd one. -/
theorem roundUnits_overflow {num den : Nat} (hd : 0 < den) (h : overflowUnits * den ≤ num) :
    roundUnits num den = infBits := by
  have hmid := overflow_midpoint den
  rcases lt_or_ge num (magnitudeUnits (infBits - 1 + 1) * den) with hlt | hge
  · have hlow : magnitudeUnits (infBits - 1) * den ≤ num := by
      have := Nat.mul_le_mul_right den (magnitudeUnits_lt_succ (m := infBits - 1) (by decide)).le
      rw [Nat.add_mul] at hmid
      omega
    have hodd : (infBits - 1) % 2 = 1 := by decide
    rcases roundUnits_between hd (by decide) hlow hlt with ⟨-, hbelow⟩ | ⟨hround, -⟩
    · omega
    · exact hround
  · exact (roundUnits_le num den).antisymm (le_roundUnits_of_le hd le_rfl hge)

/-- Below it, rounding answers the nearest finite pattern. -/
theorem roundUnits_nearestEven {num den : Nat} (hd : 0 < den) (h : num < overflowUnits * den) :
    NearestEven num den (roundUnits num den) := by
  have hmono : ∀ {j n}, n ≤ infBits → j < n → magnitudeUnits j * den < magnitudeUnits n * den := fun hn hj =>
    Nat.mul_lt_mul_of_pos_right (magnitudeUnits_strictMono hn hj) hd
  have hmid := overflow_midpoint den
  have htop : overflowUnits * den ≤ magnitudeUnits (infBits - 1 + 1) * den := by
    have := hmono (n := infBits - 1 + 1) (by decide) (Nat.lt_succ_self _)
    rw [Nat.add_mul] at hmid
    omega
  obtain ⟨m, hm, hlow, hhigh⟩ := exists_neighbours hd (h.trans_le htop)
  rcases roundUnits_between hd hm hlow hhigh with ⟨hround, hside⟩ | ⟨hround, hside⟩
  · rw [hround]
    refine nearestEven_of_neighbours hd hm hside fun j hj => .inl ?_
    have := hmono hm.le (show j < m by omega)
    rw [Nat.add_mul]
    omega
  · have hm' : m + 1 < infBits := by
      by_contra hge
      obtain rfl : m = infBits - 1 := by omega
      omega
    rw [hround]
    refine nearestEven_of_neighbours hd hm' (.inl ?_) fun j hj => ?_
    · have := hmono (n := m + 1 + 1) hm' (Nat.lt_succ_self _)
      rw [Nat.add_mul]
      omega
    · obtain rfl : j = m := by omega
      omega

/-- The two halves of correct rounding. (A statement of its own for `overflowUnits`' sake: the elaborator would compute
that number to look behind a goal `CorrectlyRounded …`, which `with_reducible` keeps it from in the uses.) -/
theorem correctlyRounded_of {num den m : Nat} (habove : overflowUnits * den ≤ num → m = infBits)
    (hbelow : num < overflowUnits * den → NearestEven num den m) : CorrectlyRounded num den m := by
  unfold CorrectlyRounded
  generalize overflowUnits = bound at *
  split
  case isTrue h => exact habove h
  case isFalse h => exact hbelow (Nat.not_le.mp h)

theorem roundUnits_correctlyRounded (num : Nat) {den : Nat} (hd : 0 < den) :
    CorrectlyRounded num den (roundUnits num den) := by
  with_reducible exact correctlyRounded_of (roundUnits_overflow hd) (roundUnits_nearestEven hd)

/-- Settles O41, by the two neighbours a magnitude below the overflow lies between. -/
theorem roundingIsToNearestEven : Obligations.RoundingIsToNearestEven := by
  intro num den hd
  with_reducible exact roundUnits_correctlyRounded num hd

end Sys2Proof.Machine
end

section
/-! The float operations on numbers, infinities included (40_numerics.md R74, R79 to R81): a product is the one invalid
product or a sign and a magnitude, the order of two operands and the side on which a minus stands do not show, and no
square, sum or root of values with a clear sign bit has it set. -/

namespace Sys2Proof.Machine

/-! ## Numbers and the NaN of an invalid operation -/

/-- A pattern is its sign bit and its magnitude. -/
theorem eq_of_sign_of_magnitude {x y : F64} (hs : fsign x = fsign y) (hm : fmagBits x = fmagBits y) : x = y := by
  have hx := x.isLt
  have hy := y.isLt
  simp only [fsign, fmagBits, decide_eq_decide] at hs hm
  exact BitVec.eq_of_toNat_eq (by omega)

theorem fordinary_of_number {x : F64} (h : fisNaN x = false) : fordinary x = true := by simp [fordinary, h]

theorem fordinary_defaultNaN : fordinary defaultNaN = true := by simp [fordinary]

/-- On an ordinary operand a NaN is the one of an invalid operation. -/
theorem eq_defaultNaN {x : F64} (h : fordinary x = true) (hn : fisNaN x = true) : x = defaultNaN := by
  simpa [fordinary, hn] using h

@[simp] theorem fisNaN_defaultNaN : fisNaN defaultNaN = true := fisNaN_fquiet _

theorem fnan_of_numbers (op : FOp) {x y : F64} (hx : fisNaN x = false) (hy : fisNaN y = false) :
    fnan op x y = defaultNaN :=
  fnan_of_ordinary op (fordinary_of_number hx) (fordinary_of_number hy)

theorem fneg_fpack (neg : Bool) {m : Nat} (h : m ≤ infBits) : fneg (fpack neg m) = fpack (!neg) m :=
  eq_of_sign_of_magnitude (by rw [fsign_fneg, fsign_fpack h, fsign_fpack h])
    (by rw [fmagBits_fneg, fmagBits_fpack h, fmagBits_fpack h])

@[simp] theorem fisInf_fneg (x : F64) : fisInf (fneg x) = fisInf x := by simp [fisInf]

@[simp] theorem fisZero_fneg (x : F64) : fisZero (fneg x) = fisZero x := by simp [fisZero]

@[simp] theorem fisFinite_fneg (x : F64) : fisFinite (fneg x) = fisFinite x := by simp [fisFinite]

@[simp] theorem funits_fneg (x : F64) : funits (fneg x) = funits x := by simp [funits]

/-! ## Sums -/

theorem fadd_of_numbers {x y : F64} (hx : fisNaN x = false) (hy : fisNaN y = false) :
    fadd x y = faddNumbers .add x y := by
  unfold fadd
  simp [hx, hy]

/-- The operation a sum of numbers is named by does not show in it. -/
theorem faddNumbers_op (op op' : FOp) {x y : F64} (hx : fisNaN x = false) (hy : fisNaN y = false) :
    faddNumbers op x y = faddNumbers op' x y := by
  unfold faddNumbers
  rw [fnan_of_numbers op hx hy, fnan_of_numbers op' hx hy]

/-- A difference of numbers is a sum. -/
theorem fsub_of_numbers {x y : F64} (hx : fisNaN x = false) (hy : fisNaN y = false) : fsub x y = fadd x (fneg y) := by
  have hy' : fisNaN (fneg y) = false := (fisNaN_fneg y).trans hy
  rw [fadd_of_numbers hx hy', faddNumbers_op .add .sub hx hy']
  unfold fsub
  simp [hx, hy]

theorem faddNumbers_comm (op : FOp) {x y : F64} (hx : fisNaN x = false) (hy : fisNaN y = false) :
    faddNumbers op x y = faddNumbers op y x := by
  unfold faddNumbers
  rw [fnan_of_numbers op hx hy, fnan_of_numbers op hy hx, Int.add_comm, Bool.and_comm (fsign x)]
  by_cases hix : fisInf x = true <;> by_cases hiy : fisInf y = true
  · by_cases hs : fsign x = fsign y
    · have hxy : x = y := eq_of_sign_of_magnitude hs
        ((of_decide_eq_true hix).trans (of_decide_eq_true hiy).symm)
      rw [hxy]
    · simp [hix, hiy, hs, Ne.symm hs]
  all_goals simp [hix, hiy]

/-- Where a NaN comes out of an invalid operation before, it comes through a sum and a difference unchanged. -/
theorem fadd_defaultNaN {x y : F64} (hx : fordinary x = true) (hy : fordinary y = true)
    (h : fisNaN x = true ∨ fisNaN y = true) : fadd x y = defaultNaN ∧ fsub x y = defaultNaN := by
  have hnan : (fisNaN x || fisNaN y) = true := by simpa using h
  unfold fadd fsub
  rw [if_pos hnan, if_pos hnan]
  exact ⟨fnan_of_ordinary _ hx hy, fnan_of_ordinary _ hx hy⟩

/-- The order of ordinary operands does not show in a sum. -/
theorem fadd_comm {x y : F64} (hx : fordinary x = true) (hy : fordinary y = true) : fadd x y = fadd y x := by
  by_cases h : fisNaN x = true ∨ fisNaN y = true
  · rw [(fadd_defaultNaN hx hy h).1, (fadd_defaultNaN hy hx h.symm).1]
  · obtain ⟨hnx, hny⟩ : fisNaN x = false ∧ fisNaN y = false := by simpa using h
    rw [fadd_of_numbers hnx hny, fadd_of_numbers hny hnx, faddNumbers_comm _ hnx hny]

/-! ## Products -/

/-- An infinity times a zero. -/
def mulInvalid (x y : F64) : Bool := (fisInf x || fisInf y) && (fisZero x || fisZero y)

/-- The magnitude pattern of any other product of numbers. -/
def mulMagnitude (x y : F64) : Nat :=
  if fisInf x || fisInf y then infBits else roundUnits (funits x * funits y) (2 ^ 1074)

theorem mulMagnitude_le (x y : F64) : mulMagnitude x y ≤ infBits := by
  unfold mulMagnitude
  split
  · exact le_rfl
  · exact roundUnits_le _ _

/-- A product of numbers. -/
theorem fmul_of_numbers {x y : F64} (hx : fisNaN x = false) (hy : fisNaN y = false) :
    fmul x y = if mulInvalid x y then defaultNaN else fpack (fsign x != fsign y) (mulMagnitude x y) := by
  unfold fmul mulInvalid mulMagnitude finf
  rw [fnan_of_numbers .mul hx hy, hx, hy]
  cases fisInf x || fisInf y <;>
    simp only [Bool.or_self, Bool.false_and, Bool.true_and, if_true, Bool.false_eq_true, if_false]

theorem fordinary_fmul {x y : F64} (hx : fisNaN x = false) (hy : fisNaN y = false) : fordinary (fmul x y) = true := by
  rw [fmul_of_numbers hx hy]
  split
  · exact fordinary_defaultNaN
  · exact fordinary_of_number (fisNaN_fpack (mulMagnitude_le x y))

theorem fmul_comm {x y : F64} (hx : fisNaN x = false) (hy : fisNaN y = false) : fmul x y = fmul y x := by
  have hinvalid : mulInvalid x y = mulInvalid y x := by
    rw [mulInvalid, mulInvalid, Bool.or_comm (fisInf x), Bool.or_comm (fisZero x)]
  have hmag : mulMagnitude x y = mulMagnitude y x := by
    rw [mulMagnitude, mulMagnitude, Bool.or_comm (fisInf x), Nat.mul_comm (funits x)]
  have hsign : (fsign x != fsign y) = (fsign y != fsign x) := bne_comm
  rw [fmul_of_numbers hx hy, fmul_of_numbers hy hx, hinvalid, hmag, hsign]

/-- A minus on a factor is a minus on the product, but for the invalid product. -/
theorem fmul_fneg {x y : F64} (hx : fisNaN x = false) (hy : fisNaN y = false) :
    fmul x y = defaultNaN ∧ fmul x (fneg y) = defaultNaN ∨
    fisNaN (fmul x y) = false ∧ fmul x (fneg y) = fneg (fmul x y) := by
  have hinvalid : mulInvalid x (fneg y) = mulInvalid x y := by simp [mulInvalid]
  have hmag : mulMagnitude x (fneg y) = mulMagnitude x y := by simp only [mulMagnitude, fisInf_fneg, funits_fneg]
  have hsign : (fsign x != fsign (fneg y)) = !(fsign x != fsign y) := by
    rw [fsign_fneg]
    cases fsign x <;> cases fsign y <;> rfl
  rw [fmul_of_numbers hx hy, fmul_of_numbers hx ((fisNaN_fneg y).trans hy), hinvalid, hmag, hsign]
  split
  · exact .inl ⟨rfl, rfl⟩
  · exact .inr ⟨fisNaN_fpack (mulMagnitude_le x y), (fneg_fpack _ (mulMagnitude_le x y)).symm⟩

/-! ## Complex products (R79, R80) -/

/-- Taking away the product with `-y` is adding the product with `y`, and the other way about. -/
theorem fsub_fadd_fmul_fneg {p x y : F64} (hp : fordinary p = true) (hx : fisNaN x = false) (hy : fisNaN y = false) :
    fsub p (fmul x (fneg y)) = fadd p (fmul x y) ∧ fadd p (fmul x (fneg y)) = fsub p (fmul x y) := by
  rcases fmul_fneg hx hy with ⟨h, hneg⟩ | ⟨hq, hneg⟩
  · obtain ⟨hadd, hsub⟩ := fadd_defaultNaN hp fordinary_defaultNaN (.inr fisNaN_defaultNaN)
    rw [h, hneg, hadd, hsub]
    exact ⟨rfl, rfl⟩
  · rw [hneg]
    have hq' : fisNaN (fneg (fmul x y)) = false := (fisNaN_fneg _).trans hq
    by_cases hnan : fisNaN p = true
    · obtain ⟨hadd, hsub⟩ := fadd_defaultNaN hp (fordinary_of_number hq) (.inl hnan)
      obtain ⟨hadd', hsub'⟩ := fadd_defaultNaN hp (fordinary_of_number hq') (.inl hnan)
      rw [hadd, hsub, hadd', hsub']
      exact ⟨rfl, rfl⟩
    · have hpn : fisNaN p = false := by simpa using hnan
      rw [fsub_of_numbers hpn hq', fsub_of_numbers hpn hq, fneg_fneg]
      exact ⟨rfl, rfl⟩

/-- Settles O44, by the laws of products of numbers and of sums of ordinary operands. -/
theorem complexProductLaws : Obligations.ComplexProductLaws := by
  intro s t hsr hsi htr hti
  constructor
  · unfold cmul
    rw [fmul_comm htr hsr, fmul_comm hti hsi, fmul_comm htr hsi, fmul_comm hti hsr,
      fadd_comm (fordinary_fmul hsi htr) (fordinary_fmul hsr hti)]
  · obtain ⟨hre, -⟩ := fsub_fadd_fmul_fneg (fordinary_fmul hsr htr) hsi hti
    obtain ⟨-, him⟩ := fsub_fadd_fmul_fneg (fordinary_fmul hsi htr) hsr hti
    unfold cmul conj
    rw [hre, fadd_comm (fordinary_fmul hsr ((fisNaN_fneg _).trans hti)) (fordinary_fmul hsi htr), him]

/-! ## Values with a clear sign bit (R81) -/

/-- A number whose sign bit is clear, `+0.0` and `+inf` among them. -/
def NonnegNumber (x : F64) : Prop := fsign x = false ∧ fisNaN x = false

theorem nonnegNumber_fpack {m : Nat} (h : m ≤ infBits) : NonnegNumber (fpack false m) :=
  ⟨fsign_fpack h, fisNaN_fpack h⟩

theorem NonnegNumber.fle {x : F64} (h : NonnegNumber x) : fle posZero x = true := by
  obtain ⟨hs, hn⟩ := h
  have hz : fisNaN posZero = false := by decide +kernel
  rw [Machine.fle, forder_posZero]
  simp [hz, hn, forder, hs]

/-- A square is never the invalid product. -/
theorem nonnegNumber_fmul_self {x : F64} (h : fisNaN x = false) : NonnegNumber (fmul x x) := by
  have hvalid : mulInvalid x x = false := by
    unfold mulInvalid fisInf fisZero infBits
    rw [Bool.or_self, Bool.or_self, Bool.and_eq_false_iff, decide_eq_false_iff_not, decide_eq_false_iff_not]
    omega
  rw [fmul_of_numbers h h, hvalid, bne_self_eq_false]
  exact nonnegNumber_fpack (mulMagnitude_le x x)

theorem NonnegNumber.fadd {x y : F64} (hx : NonnegNumber x) (hy : NonnegNumber y) : NonnegNumber (fadd x y) := by
  obtain ⟨hsx, hnx⟩ := hx
  obtain ⟨hsy, hny⟩ := hy
  have hsum : 0 ≤ fsignedUnits x + fsignedUnits y := by
    simp only [fsignedUnits, hsx, hsy, Bool.false_eq_true, if_false]
    omega
  have hneg : decide (fsignedUnits x + fsignedUnits y < 0) = false := decide_eq_false (by omega)
  rw [fadd_of_numbers hnx hny]
  unfold faddNumbers
  rw [hneg, hsx, hsy]
  simp only [bne_self_eq_false, Bool.and_false, Bool.and_self, Bool.false_eq_true, if_false]
  split_ifs
  · exact ⟨hsx, hnx⟩
  · exact ⟨hsy, hny⟩
  · exact nonnegNumber_fpack (Nat.zero_le infBits)
  · exact nonnegNumber_fpack (roundUnits_le _ _)

theorem NonnegNumber.fsqrt {x : F64} (h : NonnegNumber x) : NonnegNumber (fsqrt x) := by
  obtain ⟨hs, hn⟩ := h
  unfold Machine.fsqrt
  rw [hn, hs]
  simp only [Bool.false_eq_true, if_false]
  split_ifs
  · exact ⟨hs, hn⟩
  · exact ⟨hs, hn⟩
  · exact nonnegNumber_fpack (roundUnits_le _ _)

theorem fmul_self_of_zero {x : F64} (h : fisZero x = true) : fmul x x = posZero := by
  have hbits : fmagBits x = 0 := of_decide_eq_true h
  have hfin : fisFinite x = true := fisFinite_of_fmagBits_le (m := 0) (by decide) hbits.le
  have hunits : funits x = 0 := by simp [funits, hbits]
  rw [fmul_of_finite hfin hfin, hunits, Nat.zero_mul, roundUnits_zero, bne_self_eq_false]
  rfl

theorem mag_of_zeros {s : ComplexSample} (hre : fisZero s.re = true) (him : fisZero s.im = true) : mag s = posZero := by
  rw [mag, fmul_self_of_zero hre, fmul_self_of_zero him]
  decide +kernel

/-- Settles O45: two squares, their sum and its root, each with a clear sign bit. -/
theorem magnitudeIsNotNegative : Obligations.MagnitudeIsNotNegative :=
  ⟨fun _ hre him => ((nonnegNumber_fmul_self hre).fadd (nonnegNumber_fmul_self him)).fsqrt.fle,
    fun _ => mag_of_zeros⟩

end Sys2Proof.Machine
end

section
/-! The exact results and the one rounding (40_numerics.md R74, R87): sums, products and quotients of finite values are
rounded once, a magnitude that is a pattern's own comes back as that pattern, and an integer of 53 bits is one. -/

namespace Sys2Proof.Machine

open Sys2Proof.Safety

/-! ## One rounding -/

/-- An exact zero sum is `+0.0` but for two negative zeros. -/
theorem fadd_of_finite_zero {x y : F64} (hx : fisFinite x = true) (hy : fisFinite y = true)
    (h : fsignedUnits x + fsignedUnits y = 0) : fadd x y = if fsign x && fsign y then negZero else posZero := by
  unfold fadd faddNumbers
  simp [fisFinite_not hx, fisFinite_not hy, h]

theorem funits_pos {x : F64} (h : fisZero x = false) : 0 < funits x := by
  have hbits : fmagBits x ≠ 0 := of_decide_eq_false h
  unfold funits
  split
  · exact Nat.pos_of_ne_zero hbits
  · positivity

/-- Settles O42: each operation's equation on finite values, with the rounding of O41. -/
theorem arithmeticIsOneRounding : Obligations.ArithmeticIsOneRounding := by
  intro x y hx hy
  refine ⟨fun h => ⟨_, ?sum, fadd_of_finite hx hy h⟩, fadd_of_finite_zero hx hy,
    fsub_of_numbers (fisFinite_not hx).1 (fisFinite_not hy).1, ⟨_, ?product, fmul_of_finite hx hy⟩,
    fun h => ⟨_, ?quotient, fdiv_of_finite hx hy h⟩⟩
  case sum => with_reducible exact roundUnits_correctlyRounded _ Nat.one_pos
  case product => with_reducible exact roundUnits_correctlyRounded _ (Nat.two_pow_pos 1074)
  case quotient => with_reducible exact roundUnits_correctlyRounded _ (funits_pos h)

/-! ## Exact conversion -/

/-- A pattern's own magnitude rounds to that pattern. -/
theorem roundUnits_magnitudeUnits {m den : Nat} (hd : 0 < den) (hm : m ≤ infBits) :
    roundUnits (magnitudeUnits m * den) den = m :=
  (roundUnits_le_of_le hd hm le_rfl).antisymm (le_roundUnits_of_le hd hm le_rfl)

/-- An integer of 53 bits at most has a pattern: its significand brought to 53 bits behind the shift that is left. -/
theorem exists_pattern_of_integer {k : Nat} (hk : k < 2 ^ 53) : ∃ m < infBits, magnitudeUnits m = k * 2 ^ 1074 := by
  rcases Nat.eq_zero_or_pos k with rfl | hpos
  · exact ⟨0, by decide, by rw [magnitudeUnits_eq (Nat.zero_le _), Nat.zero_mul]; rfl⟩
  · have hlog : k.log2 < 53 := (Nat.log2_lt hpos.ne').mpr hk
    have hlow : 2 ^ k.log2 * 2 ^ (52 - k.log2) ≤ k * 2 ^ (52 - k.log2) :=
      Nat.mul_le_mul_right _ (Nat.log2_self_le hpos.ne')
    have hhigh : k * 2 ^ (52 - k.log2) < 2 ^ (k.log2 + 1) * 2 ^ (52 - k.log2) :=
      Nat.mul_lt_mul_of_pos_right Nat.lt_log2_self (Nat.two_pow_pos _)
    have hshift : 2 ^ (52 - k.log2) * 2 ^ (1022 + k.log2) = 2 ^ 1074 := by
      rw [← pow_add]
      congr 1
      omega
    rw [← pow_add, show k.log2 + (52 - k.log2) = 52 by omega] at hlow
    rw [← pow_add, show k.log2 + 1 + (52 - k.log2) = 53 by omega] at hhigh
    refine ⟨(1022 + k.log2) * 2 ^ 52 + k * 2 ^ (52 - k.log2), by unfold infBits; omega, ?_⟩
    rw [magnitudeUnits_significand (by unfold infBits; omega) hhigh.le fun _ => hlow, Nat.mul_assoc, hshift]

theorem fsignedUnits_fpack {neg : Bool} {m : Nat} (h : m ≤ infBits) :
    fsignedUnits (fpack neg m) = if neg then -(magnitudeUnits m : Int) else magnitudeUnits m := by
  rw [fsignedUnits, fsign_fpack h, funits_eq_magnitudeUnits, fmagBits_fpack h]

/-- Settles O46: a 32-bit integer has a pattern of its own, and rounds to it. -/
theorem integerConversionIsExact : Obligations.IntegerConversionIsExact := by
  intro n
  have hlow : -2 ^ 31 ≤ n.toInt := BitVec.le_toInt n
  have hhigh : n.toInt < 2 ^ 31 := BitVec.toInt_lt
  obtain ⟨m, hm, hunits⟩ := exists_pattern_of_integer (k := n.toInt.natAbs) (by omega)
  have hround : roundUnits (n.toInt.natAbs * 2 ^ 1074) 1 = m := by
    rw [← hunits, ← Nat.mul_one (magnitudeUnits m)]
    exact roundUnits_magnitudeUnits Nat.one_pos hm.le
  unfold fofInt32
  rw [hround, fisFinite, fmagBits_fpack hm.le, fsignedUnits_fpack hm.le, hunits]
  refine ⟨decide_eq_true hm, ?_⟩
  rw [Nat.cast_mul, Nat.cast_pow, Nat.cast_ofNat, Int.natCast_natAbs]
  by_cases hneg : n.toInt < 0
  · rw [decide_eq_true hneg, if_pos rfl, abs_of_neg hneg, Int.neg_mul, Int.neg_neg]
  · rw [decide_eq_false hneg, if_neg (by decide), abs_of_nonneg (Int.not_lt.mp hneg)]

end Sys2Proof.Machine
end

section
/-! The square root (40_numerics.md R74). The iteration is the library's integer square root. Twice an irrational root
lies strictly between two even numbers, and the model rounds the odd one between them in its place: every sum of two
neighbouring magnitudes of the size of a root is even, so the odd number stands on the same side of it as twice the
root. -/

namespace Sys2Proof.Machine

open Sys2Proof.Safety

/-! ## The integer root -/

/-- The guesses descend, so a fuel that is not below the guess is never used up. -/
theorem isqrtFrom_eq_iter (n : Nat) {fuel guess : Nat} (h : guess ≤ fuel) :
    isqrtFrom fuel n guess = Nat.sqrt.iter n guess := by
  induction fuel generalizing guess with
  | zero =>
    obtain rfl : guess = 0 := by omega
    rw [isqrtFrom, Nat.sqrt.iter, dif_neg (Nat.not_lt_zero _)]
  | succ fuel ih =>
    rw [isqrtFrom, Nat.sqrt.iter]
    split
    · exact ih (by omega)
    · rfl

theorem isqrt_eq_sqrt (n : Nat) : isqrt n = Nat.sqrt n := by
  unfold isqrt
  rw [isqrtFrom_eq_iter n le_rfl, Nat.sqrt, Nat.one_shiftLeft]
  rcases Nat.lt_or_ge 1 n with h | h
  · rw [if_neg (by omega), if_neg (by omega)]
  · interval_cases n <;> decide +kernel

/-- Twice the root of `n`, an odd number standing for what lies between two even ones. -/
def doubledRoot (n : Nat) : Nat := 2 * Nat.sqrt n + if Nat.sqrt n * Nat.sqrt n = n then 0 else 1

theorem sqrtMagnitude_eq (x : F64) : sqrtMagnitude x = roundUnits (doubledRoot (funits x * 2 ^ 1074)) 2 := by
  rw [sqrtMagnitude, isqrt_eq_sqrt, doubledRoot]

theorem doubledRoot_bounds (n : Nat) : 2 * Nat.sqrt n ≤ doubledRoot n ∧ doubledRoot n ≤ 2 * Nat.sqrt n + 1 := by
  unfold doubledRoot
  split <;> omega

/-- What is below the doubled root, or is not above it and even, is not above twice the root. -/
theorem sq_le_of_doubledRoot {n a : Nat} (h : a < doubledRoot n ∨ a ≤ doubledRoot n ∧ a % 2 = 0) : a ^ 2 ≤ 4 * n := by
  have := (doubledRoot_bounds n).2
  have ha : a ≤ 2 * Nat.sqrt n := by omega
  calc a ^ 2 ≤ (2 * Nat.sqrt n) ^ 2 := Nat.pow_le_pow_left ha 2
    _ = 4 * (Nat.sqrt n * Nat.sqrt n) := by ring
    _ ≤ 4 * n := Nat.mul_le_mul_left 4 (Nat.sqrt_le n)

/-- What is even and not below the doubled root is not below twice the root. -/
theorem le_sq_of_doubledRoot {n a : Nat} (h : doubledRoot n ≤ a) (heven : a % 2 = 0) : 4 * n ≤ a ^ 2 := by
  unfold doubledRoot at h
  split at h
  case isTrue hexact =>
    calc 4 * n = 4 * (Nat.sqrt n * Nat.sqrt n) := by rw [hexact]
      _ = (2 * Nat.sqrt n) ^ 2 := by ring
      _ ≤ a ^ 2 := Nat.pow_le_pow_left h 2
  case isFalse =>
    have ha : 2 * (Nat.sqrt n + 1) ≤ a := by omega
    calc 4 * n ≤ 4 * ((Nat.sqrt n + 1) * (Nat.sqrt n + 1)) := Nat.mul_le_mul_left 4 (Nat.lt_succ_sqrt n).le
      _ = (2 * (Nat.sqrt n + 1)) ^ 2 := by ring
      _ ≤ a ^ 2 := Nat.pow_le_pow_left ha 2

/-! ## Magnitudes of the size of a root -/

/-- The pattern and the magnitude from which on a shift is taken. -/
theorem magnitudeUnits_two_pow_53 : magnitudeUnits (2 ^ 53) = 2 ^ 53 := by decide +kernel

/-- A magnitude with a shift is even. -/
theorem magnitudeUnits_even {m : Nat} (hm : m ≤ infBits) (h : 2 ^ 53 ≤ m) : magnitudeUnits m % 2 = 0 := by
  obtain ⟨c, e, hpat, hunits, hc, -⟩ := exists_significand_shift hm
  obtain ⟨e', rfl⟩ : ∃ e', e = e' + 1 := ⟨e - 1, by omega⟩
  rw [hunits, pow_succ, ← Nat.mul_assoc, Nat.mul_mod_left]

/-- The nearest pattern lies on the near side of every middle. -/
theorem nearestEven_middle {num den m k : Nat} (hd : 0 < den) (h : NearestEven num den m) (hk : k < infBits) :
    (k < m → (magnitudeUnits k + magnitudeUnits m) * den ≤ 2 * num) ∧
    (m < k → 2 * num ≤ (magnitudeUnits k + magnitudeUnits m) * den) := by
  obtain ⟨hm, hnear⟩ := h
  constructor
  · intro hlt
    obtain ⟨hfar, -, -⟩ := distance_compare (num := num) hd hm.le hlt
    have := hnear k hk hlt.ne
    omega
  · intro hgt
    obtain ⟨-, hfar, -⟩ := distance_compare (num := num) hd hk.le hgt
    have := hnear k hk hgt.ne'
    rw [Nat.add_comm (magnitudeUnits k)]
    omega

/-- A doubled root of `2^54` units or more rounds to the finite pattern nearest to the root. -/
theorem exists_roundUnits_doubledRoot {n : Nat} (hlow : 2 ^ 53 ≤ Nat.sqrt n) (hhigh : Nat.sqrt n < overflowUnits) :
    ∃ m < infBits, roundUnits (doubledRoot n) 2 = m ∧ ∀ k, k < infBits →
      (k < m → (magnitudeUnits k + magnitudeUnits m) ^ 2 ≤ 4 * n) ∧
      (m < k → 4 * n ≤ (magnitudeUnits k + magnitudeUnits m) ^ 2) := by
  obtain ⟨hge, hle⟩ := doubledRoot_bounds n
  have hnear : NearestEven (doubledRoot n) 2 (roundUnits (doubledRoot n) 2) :=
    roundUnits_nearestEven Nat.two_pos (by omega)
  have hbase : 2 ^ 53 ≤ roundUnits (doubledRoot n) 2 :=
    le_roundUnits_of_le Nat.two_pos (by decide) (by rw [magnitudeUnits_two_pow_53]; omega)
  refine ⟨_, hnear.1, rfl, fun k hk => ?_⟩
  generalize roundUnits (doubledRoot n) 2 = m at hnear hbase ⊢
  have hm : m < infBits := hnear.1
  have heven := magnitudeUnits_even hm.le hbase
  obtain ⟨hbelow, habove⟩ := nearestEven_middle Nat.two_pos hnear hk
  refine ⟨fun hlt => sq_le_of_doubledRoot ?_, fun hgt => le_sq_of_doubledRoot ?_ ?_⟩
  · have hsum := hbelow hlt
    -- only the first magnitude can be odd, and then it is far below the root
    rcases Nat.lt_or_ge k (2 ^ 53) with hsmall | hlarge
    · have hk' := magnitudeUnits_strictMono (n := 2 ^ 53) (by decide) hsmall
      rw [magnitudeUnits_two_pow_53] at hk'
      rcases hbase.eq_or_lt with rfl | hbase
      · rw [magnitudeUnits_two_pow_53]
        omega
      · have hsum' := (nearestEven_middle Nat.two_pos hnear (by decide)).1 hbase
        rw [magnitudeUnits_two_pow_53] at hsum'
        omega
    · have := magnitudeUnits_even hk.le hlarge
      omega
  · have := habove hgt
    omega
  · have := magnitudeUnits_even hk.le (hbase.trans hgt.le)
    omega

theorem funits_lt_overflowUnits {x : F64} (h : fisFinite x = true) : funits x < overflowUnits := by
  have hbits : fmagBits x < infBits := of_decide_eq_true h
  have htop : magnitudeUnits (infBits - 1) < overflowUnits := by decide +kernel
  rw [funits_eq_magnitudeUnits]
  exact (magnitudeUnits_mono (by decide) (Nat.le_sub_one_of_lt hbits)).trans_lt htop

/-- Settles O43: the root of a finite positive value is large enough for the odd number to stand in its place. -/
theorem squareRootIsNearest : Obligations.SquareRootIsNearest := by
  intro x hfin hsign hzero
  have hsqrt : fsqrt x = fpack false (sqrtMagnitude x) := by
    unfold fsqrt
    rw [hsign, hzero, (fisFinite_not hfin).1, (fisFinite_not hfin).2]
    rfl
  have hlow : 2 ^ 53 ≤ Nat.sqrt (funits x * 2 ^ 1074) := by
    rw [Nat.le_sqrt, ← pow_add]
    calc 2 ^ (53 + 53) ≤ 2 ^ 1074 := Nat.pow_le_pow_right (by decide) (by decide)
      _ ≤ funits x * 2 ^ 1074 := Nat.le_mul_of_pos_left _ (funits_pos hzero)
  have hhigh : Nat.sqrt (funits x * 2 ^ 1074) < overflowUnits := by
    have hscale : 2 ^ 1074 < overflowUnits := by decide +kernel
    exact Nat.sqrt_lt.mpr (Nat.mul_lt_mul'' (funits_lt_overflowUnits hfin) hscale)
  obtain ⟨m, hm, hround, hnear⟩ := exists_roundUnits_doubledRoot hlow hhigh
  exact ⟨m, hm, by rw [hsqrt, sqrtMagnitude_eq, hround], hnear⟩

end Sys2Proof.Machine
end

section
/-! The wrap (41_pll_track.md R97, R155). One iteration of an inner loop takes a whole turn off a magnitude. Up to 2^56
neighbouring magnitudes stand less than two turns apart, so rounding moves the phase to a smaller pattern, and the fuel
outlasts the patterns there are; above, they stand more than two turns apart, and rounding takes the turn back. -/

namespace Sys2Proof.Machine

open Sys2Proof.Safety

/-! ## The tests of the loops -/

/-- The magnitude pattern of `2^56`, the greatest one a turn still moves. -/
def wrapTop : Nat := 0x4370000000000000

theorem wrapTop_le_infBits : wrapTop ≤ infBits := by decide

theorem fmagBits_twoPi_le_wrapTop : fmagBits twoPi ≤ wrapTop := by decide

theorem fsign_twoPi : fsign twoPi = false := by decide +kernel

theorem fisFinite_twoPi : fisFinite twoPi = true := by decide +kernel

theorem fle_twoPi_iff {p : F64} :
    fle twoPi p = true ↔ fisNaN p = false ∧ fsign p = false ∧ fmagBits twoPi ≤ fmagBits p := by
  have hpos : 0 < fmagBits twoPi := by decide +kernel
  cases hs : fsign p <;> simp [fle, forder, hs, fsign_twoPi, (fisFinite_not fisFinite_twoPi).1]
  omega

theorem flt_posZero_iff {p : F64} :
    flt p posZero = true ↔ fisNaN p = false ∧ fsign p = true ∧ fmagBits p ≠ 0 := by
  have hzero : fisNaN posZero = false := by decide +kernel
  rw [flt, forder_posZero, forder]
  cases hs : fsign p <;> simp [hzero]
  omega

/-- The test of `until` (R97). -/
def phaseWrapped (p : F64) : Bool := fle posZero p && flt p twoPi

/-- A number meets one of the three tests. -/
theorem wrap_tests {p : F64} (h : fisNaN p = false) :
    fle twoPi p = true ∨ flt p posZero = true ∨ phaseWrapped p = true := by
  have hzero : fisNaN posZero = false := by decide +kernel
  have htwo : fisNaN twoPi = false := (fisFinite_not fisFinite_twoPi).1
  simp only [phaseWrapped, fle, flt, h, hzero, htwo, Bool.not_false, Bool.true_and, Bool.and_eq_true,
    decide_eq_true_eq]
  omega

theorem phaseWrapped_magnitude {p : F64} (h : phaseWrapped p = true) : fmagBits p < fmagBits twoPi := by
  have hpos : 0 < fmagBits twoPi := by decide +kernel
  rw [phaseWrapped, fle, flt, forder_posZero] at h
  rw [forder, forder, fsign_twoPi] at h
  simp only [Bool.and_eq_true, decide_eq_true_eq, Bool.false_eq_true, if_false] at h
  obtain ⟨⟨-, hlow⟩, -, hhigh⟩ := h
  cases hs : fsign p <;> simp only [hs, if_true, Bool.false_eq_true, if_false] at hlow hhigh <;> omega

theorem not_fle_twoPi_of_flt_posZero {p : F64} (h : flt p posZero = true) : fle twoPi p = false := by
  rw [Bool.eq_false_iff, Ne, fle_twoPi_iff, (flt_posZero_iff.mp h).2.1]
  simp

theorem not_flt_posZero_of_fle_twoPi {p : F64} (h : fle twoPi p = true) : flt p posZero = false := by
  rw [Bool.eq_false_iff, Ne, flt_posZero_iff, (fle_twoPi_iff.mp h).2.1]
  simp

theorem not_fle_twoPi_of_flt {p : F64} (h : flt p twoPi = true) : fle twoPi p = false := by
  simp only [flt, Bool.and_eq_true, decide_eq_true_eq] at h
  simp [fle, h.2]

theorem not_phaseWrapped_of_fle_twoPi {p : F64} (h : fle twoPi p = true) : phaseWrapped p = false := by
  rw [phaseWrapped, not_flt_of_fle h, Bool.and_false]

theorem phaseWrapped_tests {p : F64} (h : phaseWrapped p = true) : fle twoPi p = false ∧ flt p posZero = false := by
  obtain ⟨hlow, hhigh⟩ := (Bool.and_eq_true _ _).mp h
  exact ⟨not_fle_twoPi_of_flt hhigh, not_flt_of_fle hlow⟩

/-! ## One iteration -/

theorem wrapLoop_subtract {p : F64} (n : Nat) (h : fle twoPi p = true) :
    wrapLoop (n + 1) p = if fsub p twoPi = p then none else wrapLoop n (fsub p twoPi) := by
  rw [wrapLoop, if_pos h]

theorem wrapLoop_add {p : F64} (n : Nat) (h : flt p posZero = true) :
    wrapLoop (n + 1) p = if fadd p twoPi = p then none else wrapLoop n (fadd p twoPi) := by
  rw [wrapLoop, not_fle_twoPi_of_flt_posZero h, if_neg Bool.false_ne_true, if_pos h]

theorem wrapLoop_stop {p : F64} (n : Nat) (h : phaseWrapped p = true) : wrapLoop (n + 1) p = some p := by
  obtain ⟨hsub, hadd⟩ := phaseWrapped_tests h
  rw [wrapLoop, hsub, hadd, if_neg Bool.false_ne_true, if_neg Bool.false_ne_true]
  exact if_pos h

/-- All that an iteration with an answer can have done. -/
theorem wrapLoop_eq_some {n : Nat} {p r : F64} (h : wrapLoop n p = some r) : ∃ k, n = k + 1 ∧
    (fle twoPi p = true ∧ fsub p twoPi ≠ p ∧ wrapLoop k (fsub p twoPi) = some r ∨
     flt p posZero = true ∧ fadd p twoPi ≠ p ∧ wrapLoop k (fadd p twoPi) = some r ∨
     phaseWrapped p = true ∧ r = p) := by
  cases n with
  | zero => cases h
  | succ k =>
    refine ⟨k, rfl, ?_⟩
    rw [wrapLoop] at h
    split_ifs at h with hsub hstill hadd hstill hrange
    · exact .inl ⟨hsub, hstill, h⟩
    · exact .inr (.inl ⟨hadd, hstill, h⟩)
    · exact .inr (.inr ⟨hrange, (Option.some.inj h).symm⟩)

/-- More fuel gives the same answer. -/
theorem wrapLoop_mono {n m : Nat} {p r : F64} (hnm : n ≤ m) (h : wrapLoop n p = some r) : wrapLoop m p = some r := by
  induction n generalizing m p with
  | zero => cases h
  | succ n ih =>
    obtain ⟨m, rfl⟩ : ∃ m', m = m' + 1 := ⟨m - 1, by omega⟩
    obtain ⟨k, hk, ⟨htest, hmove, hrest⟩ | ⟨htest, hmove, hrest⟩ | ⟨hrange, rfl⟩⟩ := wrapLoop_eq_some h <;>
      obtain rfl := Nat.succ.inj hk
    · rw [wrapLoop_subtract m htest, if_neg hmove]
      exact ih (Nat.le_of_succ_le_succ hnm) hrest
    · rw [wrapLoop_add m htest, if_neg hmove]
      exact ih (Nat.le_of_succ_le_succ hnm) hrest
    · exact wrapLoop_stop m hrange

/-! ## A turn off a magnitude -/

theorem funits_congr {x y : F64} (h : fmagBits x = fmagBits y) : funits x = funits y := by
  rw [funits, h, ← funits]

theorem funits_strictMono {x y : F64} (hy : fisFinite y = true) (h : fmagBits x < fmagBits y) :
    funits x < funits y := by
  rw [funits_eq_magnitudeUnits, funits_eq_magnitudeUnits y]
  exact magnitudeUnits_strictMono (of_decide_eq_true hy : fmagBits y < infBits).le h

/-- A sum of finite values of opposite signs has the sign of the greater one. -/
theorem fadd_of_opposite {x y : F64} (hx : fisFinite x = true) (hy : fisFinite y = true)
    (hs : fsign y = !fsign x) (h : funits y < funits x) :
    fadd x y = fpack (fsign x) (roundUnits (funits x - funits y) 1) := by
  have hsum : fsignedUnits x + fsignedUnits y = if fsign x then -((funits x - funits y : Nat) : Int)
      else ((funits x - funits y : Nat) : Int) := by
    rw [fsignedUnits, fsignedUnits, hs]
    cases fsign x <;> simp <;> omega
  have hpos : 0 < funits x - funits y := by omega
  rw [fadd_of_finite hx hy (by rw [hsum]; split <;> omega), hsum]
  cases fsign x
  · rw [if_neg Bool.false_ne_true, Int.natAbs_natCast, decide_eq_false (by omega)]
  · rw [if_pos rfl, Int.natAbs_neg, Int.natAbs_natCast, decide_eq_true (by omega)]

/-- Up to `2^56` a pattern and the one before it stand less than two turns apart, above it more. -/
theorem predecessor_gap {m : Nat} (hpos : 0 < m) (hm : m ≤ infBits) :
    (m ≤ wrapTop → magnitudeUnits m < magnitudeUnits (m - 1) + 2 * funits twoPi) ∧
    (wrapTop < m → magnitudeUnits (m - 1) + 2 * funits twoPi < magnitudeUnits m) := by
  have hnear : 2 ^ 1077 < 2 * funits twoPi := by decide +kernel
  have hfar : 2 * funits twoPi < 2 ^ 1078 := by decide +kernel
  obtain ⟨c, e, hpat, hunits, hsucc, hc, hnormal⟩ := exists_significand_shift_succ (m := m - 1) (by omega)
  rw [Nat.sub_add_cancel hpos, Nat.add_mul, Nat.one_mul, ← hunits] at hsucc
  rw [hsucc]
  unfold wrapTop
  constructor <;> intro h
  · have he : e ≤ 1077 := by omega
    exact Nat.add_lt_add_left ((Nat.pow_le_pow_right Nat.two_pos he).trans_lt hnear) _
  · have he : 1078 ≤ e := by omega
    exact Nat.add_lt_add_left (hfar.trans_le (Nat.pow_le_pow_right Nat.two_pos he)) _

/-- The difference of a finite value and a turn rounds to the nearest pattern, on the near side of every middle. -/
theorem roundUnits_turn_middle {p : F64} {k : Nat} (hp : fisFinite p = true) (hk : k < infBits) :
    (k < roundUnits (funits p - funits twoPi) 1 → magnitudeUnits k +
      magnitudeUnits (roundUnits (funits p - funits twoPi) 1) ≤ 2 * (funits p - funits twoPi)) ∧
    (roundUnits (funits p - funits twoPi) 1 < k → 2 * (funits p - funits twoPi) ≤
      magnitudeUnits k + magnitudeUnits (roundUnits (funits p - funits twoPi) 1)) := by
  have hfits : funits p - funits twoPi < overflowUnits * 1 := by
    rw [Nat.mul_one]
    exact (Nat.sub_le _ _).trans_lt (funits_lt_overflowUnits hp)
  have hmiddle := nearestEven_middle Nat.one_pos (roundUnits_nearestEven Nat.one_pos hfits) hk
  rwa [Nat.mul_one] at hmiddle

theorem fisFinite_of_le_wrapTop {p : F64} (h : fmagBits p ≤ wrapTop) : fisFinite p = true :=
  fisFinite_of_fmagBits_le (by decide) h

/-- Up to `2^56` rounding keeps a turn that is taken off. -/
theorem roundUnits_turn_lt {p : F64} (hlow : fmagBits twoPi < fmagBits p) (hhigh : fmagBits p ≤ wrapTop) :
    roundUnits (funits p - funits twoPi) 1 < fmagBits p := by
  have hp := fisFinite_of_le_wrapTop hhigh
  have hmag : fmagBits p < infBits := of_decide_eq_true hp
  have hgap := (predecessor_gap (by omega) hmag.le).1 hhigh
  have hmiddle := (roundUnits_turn_middle (k := fmagBits p - 1) hp (by omega)).1
  have hround := roundUnits_le (funits p - funits twoPi) 1
  have hturn := funits_strictMono hp hlow
  by_contra hge
  have hmono := magnitudeUnits_mono hround (Nat.not_lt.mp hge)
  rw [← funits_eq_magnitudeUnits] at hmono hgap
  have := hmiddle (by omega)
  omega

/-- Above `2^56` rounding takes the turn back. -/
theorem roundUnits_turn_eq {p : F64} (hp : fisFinite p = true) (h : wrapTop < fmagBits p) :
    roundUnits (funits p - funits twoPi) 1 = fmagBits p := by
  have hmag : fmagBits p < infBits := of_decide_eq_true hp
  have hgap := (predecessor_gap (by omega) hmag.le).2 h
  have hmiddle := (roundUnits_turn_middle hp hmag).2
  have hle : roundUnits (funits p - funits twoPi) 1 ≤ fmagBits p :=
    roundUnits_le_of_le Nat.one_pos hmag.le (by rw [← funits_eq_magnitudeUnits]; omega)
  by_contra hne
  have hlt : roundUnits (funits p - funits twoPi) 1 < fmagBits p := lt_of_le_of_ne hle hne
  have hmono := magnitudeUnits_mono (by omega) (Nat.le_sub_one_of_lt hlt)
  have := hmiddle hlt
  rw [← funits_eq_magnitudeUnits] at hgap this
  omega

/-- A turn of the opposite sign, added to more than a turn and at most `2^56`, leaves a smaller magnitude. -/
theorem fadd_turn_decreases {p t : F64} (hs : fsign t = !fsign p) (ht : fmagBits t = fmagBits twoPi)
    (hlow : fmagBits twoPi < fmagBits p) (hhigh : fmagBits p ≤ wrapTop) :
    ∃ m < fmagBits p, fadd p t = fpack (fsign p) m := by
  have hp := fisFinite_of_le_wrapTop hhigh
  refine ⟨_, roundUnits_turn_lt hlow hhigh, ?_⟩
  rw [fadd_of_opposite hp (fisFinite_of_fmagBits_le (by decide) ht.le) hs (funits_strictMono hp (ht.trans_lt hlow)),
    funits_congr ht]

/-- A turn of the opposite sign, added to a turn, leaves `+0.0`. -/
theorem fadd_turn_zero {p t : F64} (hs : fsign t = !fsign p) (ht : fmagBits t = fmagBits twoPi)
    (hp : fmagBits p = fmagBits twoPi) : fadd p t = posZero := by
  have hsum : fsignedUnits p + fsignedUnits t = 0 := by
    rw [fsignedUnits, fsignedUnits, hs, funits_congr (ht.trans hp.symm)]
    cases fsign p <;> simp
  rw [fadd_of_finite_zero (fisFinite_of_fmagBits_le (by decide) hp.le) (fisFinite_of_fmagBits_le (by decide) ht.le)
    hsum, hs, Bool.and_not_self]
  rfl

/-- A turn of the opposite sign, added to less than a turn, leaves at most a turn of its own sign. -/
theorem fadd_turn_crosses {p t : F64} (hs : fsign t = !fsign p) (ht : fmagBits t = fmagBits twoPi)
    (hp : fmagBits p < fmagBits twoPi) : ∃ m ≤ fmagBits twoPi, fadd p t = fpack (fsign t) m := by
  have hpfin : fisFinite p = true := fisFinite_of_fmagBits_le (by decide) hp.le
  have htfin : fisFinite t = true := fisFinite_of_fmagBits_le (by decide) ht.le
  refine ⟨roundUnits (funits t - funits p) 1, roundUnits_le_of_le Nat.one_pos (by decide) ?_, ?_⟩
  · rw [← ht, ← funits_eq_magnitudeUnits, Nat.mul_one]
    exact Nat.sub_le _ _
  · rw [fadd_comm (fordinary_of_number (fisFinite_not hpfin).1) (fordinary_of_number (fisFinite_not htfin).1),
      fadd_of_opposite htfin hpfin (by rw [hs, Bool.not_not]) (funits_strictMono htfin (hp.trans_eq ht.symm))]

/-- A turn of the opposite sign, added to a magnitude above `2^56`, leaves it where it is. -/
theorem fadd_turn_still {p t : F64} (hs : fsign t = !fsign p) (ht : fmagBits t = fmagBits twoPi)
    (hp : fisNaN p = false) (h : wrapTop < fmagBits p) : fadd p t = p := by
  have htfin : fisFinite t = true := fisFinite_of_fmagBits_le (by decide) ht.le
  obtain ⟨htnan, htinf⟩ := fisFinite_not htfin
  by_cases hinf : fisInf p = true
  · rw [fadd_of_numbers hp htnan]
    unfold faddNumbers
    rw [if_pos hinf, htinf, Bool.false_and, if_neg Bool.false_ne_true]
  · have hpfin : fisFinite p = true := by
      simp only [fisNaN, fisInf, fisFinite, decide_eq_true_eq, decide_eq_false_iff_not] at *
      omega
    have hmag : fmagBits p < infBits := of_decide_eq_true hpfin
    have hlow : fmagBits t < fmagBits p := ht.trans_lt (lt_trans (by decide) h)
    rw [fadd_of_opposite hpfin htfin hs (funits_strictMono hpfin hlow), funits_congr ht, roundUnits_turn_eq hpfin h]
    exact eq_of_sign_of_magnitude (fsign_fpack hmag.le) (fmagBits_fpack hmag.le)

/-! ## Where the wrap ends -/

/-- An iteration that goes on or ends has a magnitude that a turn still moves. -/
theorem magnitude_le_wrapTop {n : Nat} {p r : F64} (h : wrapLoop n p = some r) : fmagBits p ≤ wrapTop := by
  by_contra hgt
  rw [Nat.not_le] at hgt
  obtain ⟨-, -, ⟨htest, hmove, -⟩ | ⟨htest, hmove, -⟩ | ⟨hrange, -⟩⟩ := wrapLoop_eq_some h
  · obtain ⟨hnan, hsign, -⟩ := fle_twoPi_iff.mp htest
    rw [fsub_of_numbers hnan (fisFinite_not fisFinite_twoPi).1] at hmove
    exact hmove (fadd_turn_still (by rw [fsign_fneg, fsign_twoPi, hsign]) (fmagBits_fneg _) hnan hgt)
  · obtain ⟨hnan, hsign, -⟩ := flt_posZero_iff.mp htest
    exact hmove (fadd_turn_still (by rw [fsign_twoPi, hsign]; rfl) rfl hnan hgt)
  · have hmag := phaseWrapped_magnitude hrange
    have := fmagBits_twoPi_le_wrapTop
    omega

/-- A pattern of 64 bits is that of its sign and its magnitude only. -/
theorem fpack_ne {p : F64} {neg : Bool} {m : Nat} (hm : m ≤ infBits) (h : neg ≠ fsign p ∨ m ≠ fmagBits p) :
    fpack neg m ≠ p := by
  rintro rfl
  rw [fsign_fpack hm, fmagBits_fpack hm] at h
  simp at h

/-- Up to `2^56` a subtraction leaves a smaller value whose sign bit is clear. -/
theorem fsub_twoPi_decreases {p : F64} (htest : fle twoPi p = true) (hp : fmagBits p ≤ wrapTop) :
    ∃ m < fmagBits p, fsub p twoPi = fpack false m := by
  obtain ⟨hnan, hs, hle⟩ := fle_twoPi_iff.mp htest
  have hturn : fsign (fneg twoPi) = !fsign p := by rw [fsign_fneg, fsign_twoPi, hs]
  rw [fsub_of_numbers hnan (fisFinite_not fisFinite_twoPi).1]
  rcases hle.eq_or_lt with heq | hlt
  · exact ⟨0, by rw [← heq]; decide, fadd_turn_zero hturn (fmagBits_fneg _) heq.symm⟩
  · rw [← hs]
    exact fadd_turn_decreases hturn (fmagBits_fneg _) hlt hp

/-- Up to `2^56` an addition leaves a smaller negative value, or passes zero by a turn at most. -/
theorem fadd_twoPi_rises {p : F64} (htest : flt p posZero = true) (hp : fmagBits p ≤ wrapTop) :
    (∃ m < fmagBits p, fadd p twoPi = fpack true m) ∨ ∃ m ≤ fmagBits twoPi, fadd p twoPi = fpack false m := by
  obtain ⟨-, hs, -⟩ := flt_posZero_iff.mp htest
  have hturn : fsign twoPi = !fsign p := by rw [fsign_twoPi, hs, Bool.not_true]
  obtain hlt | heq | hgt := Nat.lt_trichotomy (fmagBits p) (fmagBits twoPi)
  · exact .inr (fsign_twoPi ▸ fadd_turn_crosses hturn rfl hlt)
  · exact .inr ⟨0, Nat.zero_le _, fadd_turn_zero hturn rfl heq⟩
  · exact .inl (hs ▸ fadd_turn_decreases hturn rfl hgt hp)

/-- From a value whose sign bit is clear, each iteration moves down to a smaller one. -/
theorem wrapLoop_isSome_of_nonneg {n : Nat} {p : F64} (hs : fsign p = false) (hp : fmagBits p ≤ wrapTop)
    (hn : fmagBits p < n) : (wrapLoop n p).isSome = true := by
  induction n generalizing p with
  | zero => omega
  | succ n ih =>
    obtain htest | htest | hrange := wrap_tests (fisFinite_not (fisFinite_of_le_wrapTop hp)).1
    · obtain ⟨m, hm, hnext⟩ := fsub_twoPi_decreases htest hp
      have hinf : m ≤ infBits := (hm.le.trans hp).trans wrapTop_le_infBits
      rw [wrapLoop_subtract n htest, hnext, if_neg (fpack_ne hinf (.inr hm.ne))]
      refine ih (fsign_fpack hinf) ?_ ?_ <;> rw [fmagBits_fpack hinf] <;> omega
    · simp [(flt_posZero_iff.mp htest).2.1] at hs
    · rw [wrapLoop_stop n hrange, Option.isSome_some]

/-- From a value whose sign bit is set, each iteration moves up to a smaller one, until one passes zero. -/
theorem wrapLoop_isSome_of_neg {n : Nat} {p : F64} (hs : fsign p = true) (hp : fmagBits p ≤ wrapTop)
    (hn : fmagBits twoPi + fmagBits p < n) : (wrapLoop n p).isSome = true := by
  induction n generalizing p with
  | zero => omega
  | succ n ih =>
    obtain htest | htest | hrange := wrap_tests (fisFinite_not (fisFinite_of_le_wrapTop hp)).1
    · simp [(fle_twoPi_iff.mp htest).2.1] at hs
    · have hpos : fmagBits p ≠ 0 := (flt_posZero_iff.mp htest).2.2
      obtain ⟨m, hm, hnext⟩ | ⟨m, hm, hnext⟩ := fadd_twoPi_rises htest hp
      · have hinf : m ≤ infBits := (hm.le.trans hp).trans wrapTop_le_infBits
        rw [wrapLoop_add n htest, hnext, if_neg (fpack_ne hinf (.inr hm.ne))]
        refine ih (fsign_fpack hinf) ?_ ?_ <;> rw [fmagBits_fpack hinf] <;> omega
      · have htop := hm.trans fmagBits_twoPi_le_wrapTop
        have hinf : m ≤ infBits := htop.trans wrapTop_le_infBits
        rw [wrapLoop_add n htest, hnext, if_neg (fpack_ne hinf (.inl (by simp [hs])))]
        refine wrapLoop_isSome_of_nonneg (fsign_fpack hinf) ?_ ?_ <;> rw [fmagBits_fpack hinf] <;> omega
    · rw [wrapLoop_stop n hrange, Option.isSome_some]

/-- The wrap ends exactly on the magnitudes up to `2^56`. -/
theorem wrap_isSome_iff {p : F64} : (wrap p).isSome = true ↔ fmagBits p ≤ wrapTop := by
  unfold wrap
  refine ⟨fun h => ?_, fun hp => ?_⟩
  · obtain ⟨r, hr⟩ := Option.isSome_iff_exists.mp h
    exact magnitude_le_wrapTop hr
  · have hfuel : fmagBits twoPi + fmagBits p < wrapFuel :=
      (Nat.add_le_add_left hp _).trans_lt (by decide)
    cases hs : fsign p with
    | false => exact wrapLoop_isSome_of_nonneg hs hp (by omega)
    | true => exact wrapLoop_isSome_of_neg hs hp hfuel

/-- The fuel of the wrap is enough: an answer with any fuel is the answer. -/
theorem wrap_eq_some_iff {p r : F64} : wrap p = some r ↔ ∃ n, wrapLoop n p = some r := by
  refine ⟨fun h => ⟨wrapFuel, by unfold wrap at h; exact h⟩, fun ⟨n, hn⟩ => ?_⟩
  obtain ⟨q, hq⟩ := Option.isSome_iff_exists.mp (wrap_isSome_iff.mpr (magnitude_le_wrapTop hn))
  have hloop : wrapLoop wrapFuel p = some q := by
    unfold wrap at hq
    exact hq
  have hsame := (wrapLoop_mono (Nat.le_add_left _ n) hloop).symm.trans (wrapLoop_mono (Nat.le_add_right n wrapFuel) hn)
  rwa [← hsame]

theorem fabs_parts (x : F64) : fsign (fabs x) = false ∧ fmagBits (fabs x) = fmagBits x := by
  have hmask : (0x7FFFFFFFFFFFFFFF#64).toNat = 2 ^ 63 - 1 := rfl
  have hbits : (fabs x).toNat = fmagBits x := by
    rw [fabs, BitVec.toNat_and, hmask, Nat.and_two_pow_sub_one_eq_mod, fmagBits]
  have hlt : fmagBits x < 2 ^ 63 := Nat.mod_lt _ (by decide)
  rw [fsign, fmagBits, hbits]
  exact ⟨decide_eq_false (by omega), Nat.mod_eq_of_lt hlt⟩

/-- An absolute value is bounded by what bounds the magnitude. -/
theorem fle_fabs_iff {x M : F64} (hM : fsign M = false) (hfin : fisFinite M = true) :
    fle (fabs x) M = true ↔ fmagBits x ≤ fmagBits M := by
  obtain ⟨hs, hm⟩ := fabs_parts x
  have hnan : fisNaN (fabs x) = fisNaN x := by rw [fisNaN, hm, fisNaN]
  rw [fle, hnan, (fisFinite_not hfin).1, forder, forder, hs, hm, hM]
  simp [fisNaN]
  have : fmagBits M < infBits := of_decide_eq_true hfin
  omega

/-- Settles O38: both sides say that the magnitude is at most that of `2^56`. -/
theorem wrapEndsUpToTwoToThe56 : Obligations.WrapEndsUpToTwoToThe56 := by
  intro p
  rw [wrap_isSome_iff, fle_fabs_iff (by decide) (by decide)]
  exact ⟨fun h => ⟨fisFinite_of_le_wrapTop h, h⟩, And.right⟩

/-! ## The loops of R97 -/

/-- An iteration of the first inner loop before a run of the loops. -/
theorem wrapEnds_subtract {p r : F64} (h : fle twoPi p = true) (rest : WrapEnds (fsub p twoPi) r) : WrapEnds p r := by
  cases rest with
  | stop _ q _ sub add inRange => exact .stop p q r (.again p q h sub) add inRange
  | again _ q t _ sub add outside rest => exact .again p q t r (.again p q h sub) add outside rest

/-- An iteration of the second inner loop before a run of the loops: where it ends at or above a turn, `repeat` goes
round once more. -/
theorem wrapEnds_add {p r : F64} (h : flt p posZero = true) (rest : WrapEnds (fadd p twoPi) r) : WrapEnds p r := by
  have hsub : WhileSubtract p p := .done p (not_fle_twoPi_of_flt_posZero h)
  by_cases hturn : fle twoPi (fadd p twoPi) = true
  · exact .again p p (fadd p twoPi) r hsub (.again p _ h (.done _ (not_flt_posZero_of_fle_twoPi hturn)))
      (not_phaseWrapped_of_fle_twoPi hturn) rest
  · cases rest with
    | stop _ q _ sub add inRange =>
      cases sub with
      | done => exact .stop p p r hsub (.again p r h add) inRange
      | again _ _ hle => exact absurd hle hturn
    | again _ q t _ sub add outside rest =>
      cases sub with
      | done => exact .again p p t r hsub (.again p t h add) outside rest
      | again _ _ hle => exact absurd hle hturn

theorem wrapEnds_of_wrapLoop {n : Nat} {p r : F64} (h : wrapLoop n p = some r) : WrapEnds p r := by
  induction n generalizing p with
  | zero => cases h
  | succ n ih =>
    obtain ⟨k, hk, ⟨htest, -, hrest⟩ | ⟨htest, -, hrest⟩ | ⟨hrange, rfl⟩⟩ := wrapLoop_eq_some h <;>
      obtain rfl := Nat.succ.inj hk
    · exact wrapEnds_subtract htest (ih hrest)
    · exact wrapEnds_add htest (ih hrest)
    · obtain ⟨hsub, hadd⟩ := phaseWrapped_tests hrange
      exact .stop _ _ _ (.done _ hsub) (.done _ hadd) hrange

/-- An iteration that changes nothing is none: the loop answers what it answers from the next value. -/
theorem wrapLoop_of_subtract {p r : F64} (h : fle twoPi p = true) (rest : ∃ n, wrapLoop n (fsub p twoPi) = some r) :
    ∃ n, wrapLoop n p = some r := by
  by_cases hstill : fsub p twoPi = p
  · rwa [hstill] at rest
  · obtain ⟨n, hn⟩ := rest
    exact ⟨n + 1, by rwa [wrapLoop_subtract n h, if_neg hstill]⟩

theorem wrapLoop_of_add {p r : F64} (h : flt p posZero = true) (rest : ∃ n, wrapLoop n (fadd p twoPi) = some r) :
    ∃ n, wrapLoop n p = some r := by
  by_cases hstill : fadd p twoPi = p
  · rwa [hstill] at rest
  · obtain ⟨n, hn⟩ := rest
    exact ⟨n + 1, by rwa [wrapLoop_add n h, if_neg hstill]⟩

theorem wrapLoop_of_whileSubtract {p q r : F64} (h : WhileSubtract p q) (rest : ∃ n, wrapLoop n q = some r) :
    ∃ n, wrapLoop n p = some r := by
  induction h with
  | done => exact rest
  | again p q htest _ ih => exact wrapLoop_of_subtract htest (ih rest)

theorem wrapLoop_of_whileAdd {p q r : F64} (h : WhileAdd p q) (rest : ∃ n, wrapLoop n q = some r) :
    ∃ n, wrapLoop n p = some r := by
  induction h with
  | done => exact rest
  | again p q htest _ ih => exact wrapLoop_of_add htest (ih rest)

theorem wrapLoop_of_wrapEnds {p r : F64} (h : WrapEnds p r) : ∃ n, wrapLoop n p = some r := by
  induction h with
  | stop p q r sub add inRange =>
    exact wrapLoop_of_whileSubtract sub (wrapLoop_of_whileAdd add ⟨1, wrapLoop_stop 0 inRange⟩)
  | again p q t r sub add _ _ ih => exact wrapLoop_of_whileSubtract sub (wrapLoop_of_whileAdd add ih)

/-- Settles O37: the iterations of the model are those of the inner loops, and its fuel is enough for all of them. -/
theorem wrapIsTheLoopsOfItsRule : Obligations.WrapIsTheLoopsOfItsRule := by
  intro p r
  rw [wrap_eq_some_iff]
  exact ⟨fun ⟨_, hn⟩ => wrapEnds_of_wrapLoop hn, wrapLoop_of_wrapEnds⟩

end Sys2Proof.Machine
end

section
/-! Track (41_pll_track.md R91 to R96, R99; 70_reset_and_hazards.md R165): the two micro-operations follow their rules
and keep the ranges, and inside the default contract no magnitude on the way to the wrap passes `2^20`. -/

namespace Sys2Proof.Machine

open Sys2Proof.Safety

/-! ## The rules of the micro-operations -/

/-- A micro-operation whose wrap ends writes the frequency and the phase; one whose wrap does not end is the hang. -/
theorem microStep_loopUpdate (s : State) (d : F64) :
    (∀ p, wrap (nextPhaseRaw s d) = some p →
      microStep (loopUpdate s d) = .next (s.setLoop (nextFrequency s d) p)) ∧
    (wrap (nextPhaseRaw s d) = none → microStep (loopUpdate s d) = .fault .wrapHang) :=
  ⟨fun p hp => by rw [loopUpdate_some hp, microStep], fun hp => by rw [loopUpdate_none hp, microStep]⟩

/-- Settles O35: the rule's difference is the SAM variant's. -/
theorem trackSamFollowsItsRule : Obligations.TrackSamFollowsItsRule := fun b s =>
  ⟨rfl, microStep_loopUpdate s (samDifference s (unpackBeat b))⟩

/-- Settles O36: the rule's difference is the FM variant's. -/
theorem trackFmFollowsItsRule : Obligations.TrackFmFollowsItsRule := fun b s =>
  ⟨rfl, microStep_loopUpdate s (fmDifference s (unpackBeat b))⟩

/-! ## The ranges -/

/-- A micro-operation that answers has updated the loop with some difference. -/
theorem exec_track_eq_next {i : Instr} {b : Beat} {s t : State} (hi : i = .trackSam b ∨ i = .trackFm b)
    (h : exec i s = .next t) : ∃ d, loopUpdate s d = some t := by
  obtain ⟨d, hd⟩ : ∃ d, exec i s = microStep (loopUpdate s d) := by
    rcases hi with rfl | rfl
    · exact ⟨samDifference s (unpackBeat b), rfl⟩
    · exact ⟨fmDifference s (unpackBeat b), rfl⟩
  rw [hd] at h
  obtain ⟨u, hu, hmicro⟩ | ⟨-, hmicro⟩ := microStep_cases (loopUpdate s d) <;> rw [hmicro] at h
  · exact ⟨d, hu.trans (congrArg some (Host.Outcome.next.inj h))⟩
  · cases h

/-- The clamp is all the frequency range rests on: the frequency before the step does not show. -/
theorem nextFrequency_range_of_limits {s : State} {d p : F64} (hs : fle s.loLimit s.hiLimit = true)
    (hp : wrap (nextPhaseRaw s d) = some p) :
    fle s.loLimit (nextFrequency s d) = true ∧ fle (nextFrequency s d) s.hiLimit = true := by
  refine clampFrequency_range hs (Bool.eq_false_iff.mpr fun hnan => ?_)
  have hfreq : fisNaN (nextFrequency s d) = true := by rwa [nextFrequency, clampFrequency_nan _ _ hnan]
  have hraw : fisNaN (nextPhaseRaw s d) = true := fadd_nan (.inr (fadd_nan (.inl hfreq)))
  rw [wrap_nan hraw] at hp
  cases hp

/-- Settles O39: a step that answers has clamped a number and wrapped the phase. -/
theorem trackPreservesTheRanges : Obligations.TrackPreservesTheRanges := by
  intro i b s t hi hlimits h
  obtain ⟨d, hd⟩ := exec_track_eq_next hi h
  obtain ⟨p, hp, rfl⟩ := loopUpdate_eq_some hd
  obtain ⟨hlo, hhi⟩ := nextFrequency_range_of_limits hlimits hp
  obtain ⟨hzero, htwo⟩ := wrap_range hp
  refine ⟨?_, ?_, rfl, rfl, rfl, rfl⟩
  · simp [frequencyInRange, hlo, hhi]
  · simp [phaseInRange, hzero, htwo]

/-! ## Magnitudes -/

/-- The converse of `fle_of_fmagBits_le`. -/
theorem fmagBits_le_of_fle {x M : F64} (hM : fsign M = false) (hlow : fle (fneg M) x = true)
    (hhigh : fle x M = true) : fmagBits x ≤ fmagBits M := by
  simp only [fle, forder, fsign_fneg, fmagBits_fneg, hM, Bool.not_false, if_true, Bool.false_eq_true, if_false,
    Bool.and_eq_true, decide_eq_true_eq] at hlow hhigh
  have hlow := hlow.2
  have hhigh := hhigh.2
  split at hlow <;> omega

theorem fmagBits_le_of_fle_nonneg {x M : F64} (hM : fsign M = false) (hfin : fisFinite M = true)
    (hlow : fle posZero x = true) (hhigh : fle x M = true) : fmagBits x ≤ fmagBits M := by
  have hneg : fle (fneg M) posZero = true := (fle_of_fmagBits_le hM hfin (Nat.zero_le _)).1
  exact fmagBits_le_of_fle hM (fle_trans hneg hlow) hhigh

/-- The magnitude of a sum is bounded where the sum of the bounds is. -/
theorem fmagBits_fadd_le {x y : F64} {a b c : Nat} (hx : fmagBits x ≤ a) (hy : fmagBits y ≤ b) (ha : a < infBits)
    (hb : b < infBits) (hc : c ≤ infBits) (h : magnitudeUnits a + magnitudeUnits b ≤ magnitudeUnits c) :
    fmagBits (fadd x y) ≤ c := by
  have hxfin := fisFinite_of_fmagBits_le ha hx
  have hyfin := fisFinite_of_fmagBits_le hb hy
  by_cases hsum : fsignedUnits x + fsignedUnits y = 0
  · rw [fadd_of_finite_zero hxfin hyfin hsum]
    split <;> exact Nat.zero_le c
  · rw [fadd_of_finite hxfin hyfin hsum, fmagBits_fpack (roundUnits_le _ _)]
    refine roundUnits_le_of_le Nat.one_pos hc ?_
    have hux := magnitudeUnits_mono ha.le hx
    have huy := magnitudeUnits_mono hb.le hy
    rw [← funits_eq_magnitudeUnits] at hux huy
    unfold fsignedUnits
    split <;> split <;> omega

theorem fmagBits_fsub_le {x y : F64} {a b c : Nat} (hx : fmagBits x ≤ a) (hy : fmagBits y ≤ b) (ha : a < infBits)
    (hb : b < infBits) (hc : c ≤ infBits) (h : magnitudeUnits a + magnitudeUnits b ≤ magnitudeUnits c) :
    fmagBits (fsub x y) ≤ c := by
  rw [fsub_of_numbers (fisFinite_not (fisFinite_of_fmagBits_le ha hx)).1
    (fisFinite_not (fisFinite_of_fmagBits_le hb hy)).1]
  exact fmagBits_fadd_le hx ((fmagBits_fneg y).le.trans hy) ha hb hc h

/-- The magnitude of a root is bounded by what has a greater square. -/
theorem fmagBits_fsqrt_le {x : F64} {a c : Nat} (hs : fsign x = false) (hx : fmagBits x ≤ a) (ha : a < infBits)
    (hc : c ≤ infBits) (h : magnitudeUnits a * 2 ^ 1074 < magnitudeUnits c * magnitudeUnits c) :
    fmagBits (fsqrt x) ≤ c := by
  obtain ⟨hnan, hinf⟩ := fisFinite_not (fisFinite_of_fmagBits_le ha hx)
  unfold fsqrt
  rw [hnan, hs, hinf]
  simp only [Bool.false_eq_true, if_false]
  split
  case isTrue hzero => exact (of_decide_eq_true hzero : fmagBits x = 0).le.trans (Nat.zero_le c)
  case isFalse =>
    rw [sqrtMagnitude_eq, fmagBits_fpack (roundUnits_le _ _)]
    refine roundUnits_le_of_le Nat.two_pos hc ?_
    have hunits : funits x ≤ magnitudeUnits a := by
      rw [funits_eq_magnitudeUnits]
      exact magnitudeUnits_mono ha.le hx
    have hroot := Nat.sqrt_lt.mpr ((Nat.mul_le_mul_right _ hunits).trans_lt h)
    have := (doubledRoot_bounds (funits x * 2 ^ 1074)).2
    omega

/-! ## The phase difference inside the default contract -/

theorem fmagBits_of_inUnitRange {r : F64} (h : inUnitRange r = true) : fmagBits r ≤ fmagBits c1 := by
  obtain ⟨hlow, hhigh⟩ := (Bool.and_eq_true _ _).mp h
  have hneg : cNeg1 = fneg c1 := by decide
  exact fmagBits_le_of_fle (by decide) (hneg ▸ hlow) hhigh

theorem fmagBits_of_inPiRange {r : F64} (h : inPiRange r = true) : fmagBits r ≤ fmagBits piConst := by
  obtain ⟨hlow, hhigh⟩ := (Bool.and_eq_true _ _).mp h
  exact fmagBits_le_of_fle (by decide) hlow hhigh

/-- Property A1 of R83, on all operands that are no NaN. -/
theorem fmagBits_numAtan2_le {y x : F64} (hy : fisNaN y = false) (hx : fisNaN x = false) :
    fmagBits (numAtan2 y x) ≤ fmagBits piConst := by
  unfold numAtan2
  rw [hy, hx]
  simp only [Bool.and_self, Bool.or_self, Bool.false_eq_true, if_false]
  split
  · rw [fmagBits_fneg]
    exact fmagBits_of_inPiRange (atan2Upper_range _ _)
  · exact fmagBits_of_inPiRange (atan2Upper_range _ _)

/-- A sample with both lanes inside the default contract. -/
def SampleBounded (x : ComplexSample) : Prop := fmagBits x.re ≤ fmagBits c2 ∧ fmagBits x.im ≤ fmagBits c2

theorem laneInContract_default_iff {x : F64} : laneInContract defaultInMax x = true ↔ fmagBits x ≤ fmagBits c2 := by
  rw [laneInContract, Bool.and_eq_true, defaultInMax, fle_fabs_iff (by decide) (by decide)]
  exact ⟨And.right, fun h => ⟨fisFinite_of_fmagBits_le (by decide) h, h⟩⟩

theorem sampleBounded_of_inContract {b : Beat} (h : inContract defaultInMax b = true) :
    SampleBounded (unpackBeat b) := by
  obtain ⟨hre, him⟩ := (Bool.and_eq_true _ _).mp h
  exact ⟨laneInContract_default_iff.mp hre, laneInContract_default_iff.mp him⟩

/-- The product of a lane with a lane of the local reference is at most 2.0. -/
theorem fmagBits_reference_mul_le {z x : F64} (hz : inUnitRange z = true) (hx : fmagBits x ≤ fmagBits c2) :
    fmagBits (fmul z x) ≤ fmagBits c2 :=
  fmagBits_fmul_le (fmagBits_of_inUnitRange hz) hx (by decide) (by decide) (by decide) (by decide +kernel)

/-- The rotated sample has lanes of at most 4.0. -/
theorem demix_bounded {s : State} {x : ComplexSample} (hphase : fisFinite s.phase = true) (hx : SampleBounded x) :
    fmagBits (demix s x).re ≤ fmagBits c4 ∧ fmagBits (demix s x).im ≤ fmagBits c4 := by
  obtain ⟨hre, him⟩ := hx
  have hcos := numCos_range hphase
  have hsin := numSin_range hphase
  exact ⟨fmagBits_fsub_le (fmagBits_reference_mul_le hcos hre) (fmagBits_reference_mul_le hsin him)
      (by decide) (by decide) (by decide) (by decide +kernel),
    fmagBits_fadd_le (fmagBits_reference_mul_le hcos him) (fmagBits_reference_mul_le hsin hre)
      (by decide) (by decide) (by decide) (by decide +kernel)⟩

theorem fmagBits_fmDifference_le {s : State} {x : ComplexSample} (hphase : fisFinite s.phase = true)
    (hx : SampleBounded x) : fmagBits (fmDifference s x) ≤ fmagBits piConst := by
  obtain ⟨hre, him⟩ := demix_bounded hphase hx
  exact fmagBits_numAtan2_le (fisFinite_not (fisFinite_of_fmagBits_le (by decide) him)).1
    (fisFinite_not (fisFinite_of_fmagBits_le (by decide) hre)).1

/-- The magnitude of a sample inside the default contract is at most 4.0. -/
theorem fmagBits_mag_le {x : ComplexSample} (hx : SampleBounded x) : fmagBits (mag x) ≤ fmagBits c4 := by
  obtain ⟨hre, him⟩ := hx
  have hsquare : ∀ {y : F64}, fmagBits y ≤ fmagBits c2 → fmagBits (fmul y y) ≤ fmagBits c4 := fun hy =>
    fmagBits_fmul_le hy hy (by decide) (by decide) (by decide) (by decide +kernel)
  have hnan : ∀ {y : F64}, fmagBits y ≤ fmagBits c2 → fisNaN y = false := fun hy =>
    (fisFinite_not (fisFinite_of_fmagBits_le (by decide) hy)).1
  have hsum : fmagBits (fadd (fmul x.re x.re) (fmul x.im x.im)) ≤ 0x4020000000000000 :=
    fmagBits_fadd_le (hsquare hre) (hsquare him) (by decide) (by decide) (by decide) (by decide +kernel)
  have hsign := ((nonnegNumber_fmul_self (hnan hre)).fadd (nonnegNumber_fmul_self (hnan him))).1
  exact fmagBits_fsqrt_le hsign hsum (by decide) (by decide) (by decide +kernel)

/-- The magnitude pattern of 16.0, which bounds the phase difference of either variant. -/
def differenceTop : Nat := 0x4030000000000000

theorem fmagBits_samDifference_le {s : State} {x : ComplexSample} (hphase : fisFinite s.phase = true)
    (hx : SampleBounded x) : fmagBits (samDifference s x) ≤ differenceTop :=
  fmagBits_fmul_le (fmagBits_mag_le hx) (fmagBits_fmDifference_le hphase hx) (by decide) (by decide) (by decide)
    (by decide +kernel)

/-! ## The loop inside its bounds -/

/-- What the bounds on the loop registers say of their magnitudes: phase at most a turn, alpha at most `2^14`, beta at
most `2^26`. -/
theorem loopBounded_magnitudes {s : State} (hs : LoopBounded s) :
    fmagBits s.phase ≤ fmagBits twoPi ∧ fmagBits s.alpha ≤ 0x40D0000000000000 ∧
    fmagBits s.beta ≤ 0x4190000000000000 := by
  obtain ⟨halow, hahigh⟩ := hs.alpha_range
  obtain ⟨hblow, hbhigh⟩ := hs.beta_range
  exact ⟨(phaseWrapped_magnitude hs.phase_range).le,
    fmagBits_le_of_fle_nonneg (M := 0x40D0000000000000#64) (by decide) (by decide) halow hahigh,
    fmagBits_le_of_fle_nonneg (M := 0x4190000000000000#64) (by decide) (by decide) hblow hbhigh⟩

/-- Whatever lies between the limits is at most `2^16`. -/
theorem fmagBits_le_of_limits {s : State} {f : F64} (hs : LoopBounded s) (hlow : fle s.loLimit f = true)
    (hhigh : fle f s.hiLimit = true) : fmagBits f ≤ 0x40F0000000000000 :=
  fmagBits_le_of_fle (M := 0x40F0000000000000#64) (by decide) (fle_trans hs.lo_bound hlow)
    (fle_trans hhigh hs.hi_bound)

/-- The clamped frequency is at most `2^16`: the sum that is clamped is at most `2^31`, so it is a number. -/
theorem fmagBits_nextFrequency_le {s : State} {d : F64} (hs : LoopBounded s) (hd : fmagBits d ≤ differenceTop) :
    fmagBits (nextFrequency s d) ≤ 0x40F0000000000000 := by
  obtain ⟨-, -, hbeta⟩ := loopBounded_magnitudes hs
  obtain ⟨hlow, hhigh⟩ := (Bool.and_eq_true _ _).mp hs.frequency_range
  have hproduct : fmagBits (fmul s.beta d) ≤ 0x41D0000000000000 :=
    fmagBits_fmul_le hbeta hd (by decide) (by decide) (by decide) (by decide +kernel)
  have hsum : fmagBits (fadd s.frequency (fmul s.beta d)) ≤ 0x41E0000000000000 :=
    fmagBits_fadd_le (fmagBits_le_of_limits hs hlow hhigh) hproduct (by decide) (by decide) (by decide)
      (by decide +kernel)
  have hnan := (fisFinite_not (fisFinite_of_fmagBits_le (by decide) hsum)).1
  obtain ⟨hlow', hhigh'⟩ := clampFrequency_range (fle_trans hlow hhigh) hnan
  exact fmagBits_le_of_limits hs hlow' hhigh'

/-- The phase before the wrap is at most `2^20`. -/
theorem fmagBits_nextPhaseRaw_le {s : State} {d : F64} (hs : LoopBounded s) (hd : fmagBits d ≤ differenceTop) :
    fmagBits (nextPhaseRaw s d) ≤ 0x4130000000000000 := by
  obtain ⟨hphase, halpha, -⟩ := loopBounded_magnitudes hs
  have hproduct : fmagBits (fmul s.alpha d) ≤ 0x4110000000000000 :=
    fmagBits_fmul_le halpha hd (by decide) (by decide) (by decide) (by decide +kernel)
  have hadvance : fmagBits (fadd (nextFrequency s d) (fmul s.alpha d)) ≤ 0x4120000000000000 :=
    fmagBits_fadd_le (fmagBits_nextFrequency_le hs hd) hproduct (by decide) (by decide) (by decide)
      (by decide +kernel)
  exact fmagBits_fadd_le hphase hadvance (by decide) (by decide) (by decide) (by decide +kernel)

theorem loopUpdate_ends {s : State} {d : F64} (hs : LoopBounded s) (hd : fmagBits d ≤ differenceTop) :
    ∃ t, loopUpdate s d = some t := by
  have htop : fmagBits (nextPhaseRaw s d) ≤ wrapTop := (fmagBits_nextPhaseRaw_le hs hd).trans (by decide)
  obtain ⟨p, hp⟩ := Option.isSome_iff_exists.mp (wrap_isSome_iff.mpr htop)
  exact ⟨_, loopUpdate_some hp⟩

/-- Both variants of Track end on a sample inside the default contract. -/
theorem track_ends {s : State} {x : ComplexSample} (hs : LoopBounded s) (hx : SampleBounded x) :
    (∃ t, trackSamOp x s = some t) ∧ ∃ t, trackFmOp x s = some t := by
  have hphase : fisFinite s.phase = true := fisFinite_of_fmagBits_le (by decide) (loopBounded_magnitudes hs).1
  exact ⟨loopUpdate_ends hs (fmagBits_samDifference_le hphase hx),
    loopUpdate_ends hs ((fmagBits_fmDifference_le hphase hx).trans (by decide))⟩

/-! ## The steps that run Track -/

/-- A sample step answers wherever its mode gives a result. -/
theorem sampleStep_ends {f : Beat → State → Option (Beat × State)} {b : Beat} {s : State}
    (h : ∃ r, f b s = some r) : ∃ t, sampleStep f b s = .next t := by
  obtain ⟨r, hr⟩ := h
  obtain ⟨-, hstep⟩ | ⟨-, hnone, -⟩ | ⟨-, o, t, -, hstep⟩ := sampleStep_cases f b s
  · exact ⟨s, hstep⟩
  · rw [hr] at hnone
    cases hnone
  · exact ⟨_, hstep⟩

theorem demodSam_ends {b : Beat} {s : State} (h : ∃ t, trackSamOp (unpackBeat b) s = some t) :
    ∃ r, demodSam b s = some r := by
  obtain ⟨t, ht⟩ := h
  exact ⟨_, by rw [demodSam, ht]⟩

/-- An FM step runs Track only under the strap, and without it always ends. -/
theorem demodFm_ends {b : Beat} {s : State} (h : ∃ t, trackFmOp (unpackBeat b) s = some t) :
    ∃ r, demodFm b s = some r := by
  obtain ⟨t, ht⟩ := h
  unfold demodFm
  cases Config.fmLoop with
  | false => exact ⟨_, demodFmWith_false b s⟩
  | true => exact ⟨_, by rw [demodFmWith, fmLoopStep, if_pos rfl, fmFeedback, ht]⟩

/-- Settles O40: the wrap is given at most `2^20`, far below the `2^56` up to which it ends. -/
theorem trackEndsInsideTheContract : Obligations.TrackEndsInsideTheContract := by
  intro b s _ hs hb i hi
  obtain ⟨hsam, hfm⟩ := track_ends hs (sampleBounded_of_inContract hb)
  simp only [List.mem_cons, List.not_mem_nil, or_false] at hi
  rcases hi with rfl | rfl | rfl | rfl | rfl
  · obtain ⟨t, ht⟩ := hsam
    exact ⟨t, congrArg microStep ht⟩
  · obtain ⟨t, ht⟩ := hfm
    exact ⟨t, congrArg microStep ht⟩
  · exact sampleStep_ends (demodSam_ends hsam)
  · exact sampleStep_ends (demodFm_ends hfm)
  · exact sampleStep_ends (demodFm_ends hfm)

end Sys2Proof.Machine
end

section
/-! What a beat does in each mode (42_dispatch.md R101 to R115): one relation for the work of a mode, the inversion of
the dispatch onto it, and where that work has no result. -/

namespace Sys2Proof.Machine

/-! ## The end of a sample step -/

/-- Settles O20: the three ways the end of a sample step can go, each by its own law. -/
theorem advanceFollowsItsRule : Obligations.AdvanceFollowsItsRule :=
  fun _ => ⟨advance_inside, advance_end, advance_end_pending⟩

/-! ## The sample step around its mode -/

theorem sampleStep_of_not_constructed {s : State} (hc : s.constructed = false)
    (f : Beat → State → Option (Beat × State)) (b : Beat) : sampleStep f b s = .next s := by
  simp [sampleStep, hc]

theorem sampleStep_passThrough {s : State} (hc : s.constructed = true) (b : Beat) :
    sampleStep passThrough b s = .next (advance (s.emit b)) := by
  simp [sampleStep, hc, passThrough]

/-- Settles O21: the eight instructions are one and the same sample step. -/
theorem passThroughCopiesTheBeat : Obligations.PassThroughCopiesTheBeat := by
  intro b s hc i hi
  simp only [List.mem_cons, List.not_mem_nil, or_false] at hi
  rcases hi with rfl | rfl | rfl | rfl | rfl | rfl | rfl | rfl <;> exact sampleStep_passThrough hc b

/-! ## While the block is not constructed -/

/-- R154: where neither agent has a request that can be taken, a step changes nothing. -/
theorem step_of_no_request {s : State} (hr : s.resetIn = false) (hcmd : commandReady s = false)
    (hbeat : beatReady s = false) : step s = .next s := by
  have hnone : grantedAgent s = none := by simp [grantedAgent, hcmd, hbeat]
  rw [step_released hr, hnone, arbitrated_of_not_both (by simp [hcmd])]
  rfl

/-- Settles O34: the sample step of any mode waits, and in a step the beats are no request. -/
theorem beatsWaitUntilConstructed : Obligations.BeatsWaitUntilConstructed := by
  intro b beats s hc
  refine ⟨fun m => ?_, fun hr hctrl _ => ?_⟩
  · rw [exec_decodeBeat, sampleStep_of_not_constructed hc]
  · have hcmd : commandReady s = false := by simp [commandReady, hctrl, decodeCommand]
    have hbeat : beatReady s = false := by simp [beatReady, hc]
    exact step_of_no_request hr hcmd hbeat

/-! ## The work of a mode on a beat -/

/-- All that a mode makes of a beat: the output beat and the state with the mode's registers written (R113, R115).
`demodOf_cases` speaks of the mode in force and of the state alone; this is about any mode code, and the beat too. -/
inductive BeatEffect (b : Beat) (s : State) : ModeCode → Beat → State → Prop where
  | am (y dc smooth : F64) : BeatEffect b s 0#4 (packBeat (mono y)) (s.setAm dc smooth)
  | sam (y f p dc : F64) (lock : F64 × F64) :
      BeatEffect b s 1#4 (packBeat (mono y)) (((s.setLoop f p).setLock lock).setSamDc dc)
  /-- An FM mode without the loop. -/
  | fm (mode : ModeCode) (hmode : mode = 2#4 ∨ mode = 3#4) (hstrap : Config.fmLoop = false) (y : F64)
      (x : ComplexSample) : BeatEffect b s mode (packBeat (mono y)) (s.setPrev x)
  /-- An FM mode with the loop feedback of R135. -/
  | fmLoop (mode : ModeCode) (hmode : mode = 2#4 ∨ mode = 3#4) (hstrap : Config.fmLoop = true) (y f p a : F64)
      (x : ComplexSample) : BeatEffect b s mode (packBeat (mono y)) (((s.setLoop f p).setAfc a).setPrev x)
  | pass (mode : ModeCode) (hmode : 4 ≤ mode.toNat) : BeatEffect b s mode b s

theorem demodSam_effect {b o : Beat} {s u : State} (h : demodSam b s = some (o, u)) : BeatEffect b s 1#4 o u := by
  obtain ⟨v, hv, hfin⟩ := demodSam_eq_some h
  obtain ⟨p, -, rfl⟩ := loopUpdate_eq_some hv
  obtain ⟨rfl, rfl⟩ := Prod.mk.inj hfin
  exact .sam _ _ _ _ _

theorem demodFm_effect {mode : ModeCode} {b o : Beat} {s u : State} (hmode : mode = 2#4 ∨ mode = 3#4)
    (h : demodFm b s = some (o, u)) : BeatEffect b s mode o u := by
  obtain ⟨v, hv, hfin⟩ := demodFmWith_eq_some h
  obtain ⟨rfl, rfl⟩ := Prod.mk.inj hfin
  obtain ⟨hstrap, rfl⟩ | ⟨hstrap, w, hw, rfl⟩ := fmLoopStep_eq_some hv
  · exact .fm mode hmode hstrap _ _
  · obtain ⟨f, p, rfl⟩ := trackFmOp_eq_some hw
    exact .fmLoop mode hmode hstrap _ _ _ _ _

/-- R67: which work a mode code selects decides what the beat can become. -/
theorem demodOf_effect {mode : ModeCode} {b o : Beat} {s u : State} (h : demodOf mode b s = some (o, u)) :
    BeatEffect b s mode o u := by
  unfold demodOf at h
  split_ifs at h with h0 h1 h23
  · obtain ⟨rfl, rfl⟩ := Prod.mk.inj (Option.some.inj h)
    exact h0 ▸ .am _ _ _
  · exact h1 ▸ demodSam_effect h
  · exact demodFm_effect h23 h
  · obtain ⟨rfl, rfl⟩ := Prod.mk.inj (Option.some.inj h)
    exact .pass mode (by bv_omega)

/-- A sample step that answers in a constructed block is the work of its mode, the beat emitted, and the advance. -/
theorem effect_of_exec_beat {mode : ModeCode} {b : Beat} {s t : State} (hc : s.constructed = true)
    (h : exec (decodeBeat mode b) s = .next t) :
    ∃ o u, BeatEffect b s mode o u ∧ t = advance (u.emit o) := by
  rw [exec_decodeBeat] at h
  obtain ⟨hc', -⟩ | ⟨-, -, hs⟩ | ⟨-, o, u, hf, hs⟩ := sampleStep_cases (demodOf mode) b s
  · simp [hc] at hc'
  · rw [hs] at h
    cases h
  · rw [hs] at h
    exact ⟨o, u, demodOf_effect hf, (Host.Outcome.next.inj h).symm⟩

/-! ## The output beat -/

/-- No mode's own work touches the data-out port. -/
theorem BeatEffect.dataOut {mode : ModeCode} {b o : Beat} {s u : State} (h : BeatEffect b s mode o u) :
    u.dataOut = s.dataOut := by
  cases h <;> rfl

@[simp] theorem advance_dataOut (s : State) : (advance s).dataOut = s.dataOut := by
  obtain ⟨-, -, -, -, -, -, -, -, hout, -⟩ := advance_frame s
  exact hout

/-- R88: both lanes of a mono beat hold its value. -/
theorem packBeat_mono_lanes (y : F64) :
    (packBeat (mono y)).extractLsb' 0 64 = (packBeat (mono y)).extractLsb' 64 64 :=
  (BitVec.extractLsb'_append_eq_right (a := y) (b := y)).trans BitVec.extractLsb'_append_eq_left.symm

/-- R113: a pass-through mode emits the input beat, and every other mode one value in both lanes. -/
theorem BeatEffect.output {mode : ModeCode} {b o : Beat} {s u : State} (h : BeatEffect b s mode o u) :
    (4 ≤ mode.toNat ∧ o = b) ∨ (mode.toNat < 4 ∧ ∃ y, o = packBeat (mono y)) := by
  cases h with
  | am y | sam y => exact .inr ⟨by decide, y, rfl⟩
  | fm _ hmode _ y | fmLoop _ hmode _ y =>
    exact .inr ⟨by rcases hmode with rfl | rfl <;> decide, y, rfl⟩
  | pass _ hmode => exact .inl ⟨hmode, rfl⟩

/-- Settles O32: the advance leaves the data-out port alone, so the one beat emitted is the mode's output beat. -/
theorem oneOutputBeatForEachInputBeat : Obligations.OneOutputBeatForEachInputBeat := by
  intro m b s t hc h
  obtain ⟨o, u, heff, rfl⟩ := effect_of_exec_beat hc h
  refine ⟨o, by simp [heff.dataOut], ?_⟩
  obtain ⟨hm, rfl⟩ | ⟨hm, y, rfl⟩ := heff.output
  · exact ⟨fun _ => rfl, fun hm' => by omega⟩
  · exact ⟨fun hm' => by omega, fun _ => packBeat_mono_lanes y⟩

/-! ## The registers written -/

/-- Settles O33, mode by mode; a value that the mode's own clause does not name is taken to be zero. -/
theorem modeFixesTheRegistersWritten : Obligations.ModeFixesTheRegistersWritten := by
  intro m b s t hc h
  obtain ⟨o, u, heff, rfl⟩ := effect_of_exec_beat hc h
  cases heff with
  | am y dc smooth => exact ⟨_, dc, smooth, posZero, posZero, posZero, (posZero, posZero), rfl⟩
  | sam y f p dc lock => exact ⟨_, f, p, dc, posZero, posZero, lock, rfl⟩
  | fm _ hmode hstrap y x =>
    refine ⟨packBeat (mono y), posZero, posZero, posZero, x.re, x.im, (posZero, posZero), ?_⟩
    rcases hmode with rfl | rfl <;> simp [hstrap]
  | fmLoop _ hmode hstrap y f p a x =>
    refine ⟨packBeat (mono y), f, p, a, x.re, x.im, (posZero, posZero), ?_⟩
    rcases hmode with rfl | rfl <;> simp [hstrap]
  | pass _ hmode =>
    refine ⟨b, posZero, posZero, posZero, posZero, posZero, (posZero, posZero), ?_⟩
    rw [if_neg (by omega), if_neg (by omega), if_neg (by omega)]

/-! ## What stops a step -/

/-- R97, R135: the mode codes whose work runs Track. -/
def RunsTrack (mode : ModeCode) : Prop := mode = 1#4 ∨ (Config.fmLoop = true ∧ (mode = 2#4 ∨ mode = 3#4))

/-- Where a mode's work has no result, the mode runs Track. -/
theorem runsTrack_of_demodOf_eq_none {mode : ModeCode} {b : Beat} {s : State} (h : demodOf mode b s = none) :
    RunsTrack mode := by
  unfold demodOf at h
  split_ifs at h with h0 h1 h23
  · cases h
  · exact .inl h1
  · cases hstrap : Config.fmLoop with
    | true => exact .inr ⟨hstrap, h23⟩
    | false =>
      rw [demodFm, hstrap, demodFmWith_false] at h
      cases h
  · cases h

/-- R114: a beat's step answers, or hangs in a constructed block in a mode that runs Track. -/
theorem beatStep_outcome (s : State) :
    (∃ t, beatStep s = .next t) ∨ (beatStep s = .fault .wrapHang ∧ s.constructed = true ∧ RunsTrack s.mode) := by
  unfold beatStep
  cases s.dataIn with
  | nil => exact .inl ⟨s, rfl⟩
  | cons b rest =>
    simp only [exec_decodeBeat]
    obtain ⟨-, hs⟩ | ⟨hc, hnone, hs⟩ | ⟨-, o, u, -, hs⟩ := sampleStep_cases (demodOf s.mode) b (s.withDataIn rest)
    · exact .inl ⟨_, hs⟩
    · exact .inr ⟨hs, hc, runsTrack_of_demodOf_eq_none hnone⟩
    · exact .inl ⟨_, hs⟩

/-- R139: every command answers, its errors included. -/
theorem exec_command_ends {words rest : List CmdWord} {i : Instr} (hi : decodeCommand words = .command i rest)
    (s : State) : ∃ t, exec i s = .next t := by
  obtain ⟨rate, size, rfl⟩ | ⟨c, rfl⟩ | rfl | ⟨r, rfl⟩ := decodeCommand_eq_command hi
  · change ∃ t, execInit rate size s = .next t
    unfold execInit
    split <;> exact ⟨_, rfl⟩
  · exact ⟨_, rfl⟩
  · exact ⟨_, rfl⟩
  · change ∃ t, execRdstate r s = .next t
    unfold execRdstate
    split <;> exact ⟨_, rfl⟩

theorem commandStep_ends (s : State) : ∃ t, commandStep s = .next t := by
  unfold commandStep
  split
  · next i rest hi => exact exec_command_ends hi _
  · exact ⟨_, rfl⟩
  · exact ⟨_, rfl⟩

@[simp] theorem arbitrated_constructed (s : State) : (arbitrated s).constructed = s.constructed := by
  obtain ⟨drawn, h⟩ := arbitrated_withRequestTaken s
  rw [h]
  rfl

/-- Settles O54: of the reset input and the agents' steps, only a beat's step can fail to answer. -/
theorem onlyTheWrapHangStops : Obligations.OnlyTheWrapHangStops := by
  intro s
  cases hr : s.resetIn with
  | true => exact .inl ⟨_, step_reset hr⟩
  | false =>
    rw [step_released hr]
    cases grantedAgent s with
    | none => exact .inl ⟨_, rfl⟩
    | some agent =>
      cases agent with
      | control => exact .inl (commandStep_ends _)
      | data =>
        obtain hnext | ⟨hhang, hc, hmode⟩ := beatStep_outcome (arbitrated s)
        · exact .inl hnext
        · rw [arbitrated_constructed] at hc
          rw [arbitrated_mode] at hmode
          exact .inr ⟨hhang, rfl, hc, hmode⟩

end Sys2Proof.Machine
end

section
/-! PROCESSBLOCK in place in a pass-through mode (42_dispatch.md R103 to R112): a beat read from a canonical memory and
written back leaves the memory as it was, so a sample does what the advance does, and a block's advances come full
circle. -/

namespace Sys2Proof.Machine

/-! ## A write of what is there -/

/-- A canonical memory has one form: a byte written over itself leaves it as it was. -/
theorem Memory.write_read_same {m : Memory} {lo : Nat} (h : Memory.wfFrom lo m = true) (a : Nat) :
    m.write a (m.read a) = m := by
  induction m generalizing lo with
  | nil => simp [Memory.read, Memory.write]
  | cons cell rest ih =>
    simp only [Memory.wfFrom, Bool.and_eq_true, decide_eq_true_eq] at h
    obtain ⟨⟨-, hne⟩, hrest⟩ := h
    unfold Memory.write
    split
    · next hlt =>
      have hbelow : Memory.read (cell :: rest) a = unlistedByte :=
        Memory.read_below (lo := cell.1) (by simp [Memory.wfFrom, hne, hrest]) hlt
      rw [if_pos hbelow]
    · split
      · next heq => simp [Memory.read, heq, hne]
      · next hneq => simp only [Memory.read, if_neg (Ne.symm hneq), ih hrest]

theorem Memory.readLE_lt (m : Memory) (a n : Nat) : m.readLE a n < 256 ^ n := by
  induction n generalizing a with
  | zero => simp [Memory.readLE]
  | succ n ih =>
    have hrest := ih (a + 1)
    have hbyte := (m.read a).isLt
    rw [Memory.readLE, Nat.pow_succ']
    omega

/-- The number read from some bytes, written over them. -/
theorem Memory.writeLE_readLE_same {m : Memory} (hm : m.wf = true) (a n : Nat) : m.writeLE a n (m.readLE a n) = m := by
  induction n generalizing a with
  | zero => rfl
  | succ n ih =>
    have hbyte := (m.read a).isLt
    have hlow : BitVec.ofNat 8 (m.readLE a (n + 1)) = m.read a := by
      apply BitVec.eq_of_toNat_eq
      rw [BitVec.toNat_ofNat, Memory.readLE]
      omega
    have hhigh : m.readLE a (n + 1) / 256 = m.readLE (a + 1) n := by
      rw [Memory.readLE]
      omega
    rw [Memory.writeLE, hlow, hhigh, Memory.write_read_same hm, ih]

/-- R47: a beat read from the host's memory and written back. -/
theorem memWriteBeat_memReadBeat_same {m : Memory} (hm : m.wf = true) (a : Nat) :
    memWriteBeat m a (memReadBeat m a) = m := by
  have hvalue : (memReadBeat m a).toNat = m.readLE a 16 :=
    (BitVec.toNat_ofNat _ _).trans (Nat.mod_eq_of_lt (m.readLE_lt a 16))
  rw [memWriteBeat, hvalue, Memory.writeLE_readLE_same hm]

/-! ## One sample -/

/-- R67: the mode codes from 4 on select the pass-through. -/
theorem demodOf_of_four_le {mode : ModeCode} (h : 4 ≤ mode.toNat) : demodOf mode = passThrough := by
  have h0 : mode ≠ 0#4 := by bv_omega
  have h1 : mode ≠ 1#4 := by bv_omega
  have h2 : mode ≠ 2#4 := by bv_omega
  have h3 : mode ≠ 3#4 := by bv_omega
  simp [demodOf, h0, h1, h2, h3]

/-- R111: the end of a sample step sees no beat on the data-out port. -/
theorem advance_emit (s : State) (b : Beat) : advance (s.emit b) = (advance s).emit b := by
  obtain ⟨h, ha⟩ | ⟨h, hp, ha⟩ | ⟨h, hp, ha⟩ := advance_cases s <;> rw [ha]
  · exact advance_inside h
  · exact advance_end h hp
  · exact advance_end_pending h hp

@[simp] theorem advance_hostMem (s : State) : (advance s).hostMem = s.hostMem := by
  obtain ⟨-, -, -, -, -, -, -, -, -, -, -, hmem⟩ := advance_frame s
  exact hmem

@[simp] theorem lastOut_emit (s : State) (b : Beat) : lastOut (s.emit b) = b := by simp [lastOut]

/-- R103, R112: a pass-through sample in place advances the block and does nothing else. -/
theorem processSample_passThrough {s : State} (hc : s.constructed = true) (hmode : 4 ≤ s.mode.toNat)
    (hm : s.hostMem.wf = true) (a : Nat) : processSample a a s = .next (advance s) := by
  have hexec : exec (decodeBeat s.mode (memReadBeat s.hostMem a)) s =
      .next ((advance s).emit (memReadBeat s.hostMem a)) := by
    rw [exec_decodeBeat, demodOf_of_four_le hmode, sampleStep_passThrough hc, advance_emit]
  have hself : ((advance s).withHostMem s.hostMem).withDataOut s.dataOut = advance s := by
    rw [← advance_hostMem s, ← advance_dataOut s]
    rfl
  simp only [processSample, hexec, lastOut_emit, State.emit_hostMem, advance_hostMem,
    memWriteBeat_memReadBeat_same hm]
  exact congrArg Host.Outcome.next hself

/-! ## The samples of a block -/

/-- R111, R112: the samples still to come in a block take the position to 0 and do nothing else. -/
theorem processSamples_passThrough {n : Nat} {s : State} (hc : s.constructed = true) (hp : s.pendingValid = false)
    (hmode : 4 ≤ s.mode.toNat) (hm : s.hostMem.wf = true) (hn : s.idx.toNat + (n + 1) = s.bs.toNat) (a : Nat) :
    processSamples (n + 1) a a s = .next (s.setIdx 0#32) := by
  induction n generalizing a s with
  | zero => simp only [processSamples, processSample_passThrough hc hmode hm, advance_end hn hp]
  | succ n ih =>
    have hbs := s.bs.isLt
    have hidx : (s.idx + 1#32).toNat = s.idx.toNat + 1 := by bv_omega
    have hrest : processSamples (n + 1) (a + 16) (a + 16) (s.setIdx (s.idx + 1#32)) = .next (s.setIdx 0#32) :=
      ih (s := s.setIdx (s.idx + 1#32)) hc hp hmode hm (by rw [State.setIdx_idx, State.setIdx_bs]; omega) (a + 16)
    rw [processSamples, processSample_passThrough hc hmode hm, advance_inside (by omega)]
    exact hrest

/-- Settles O58: from position 0 the samples of a whole block lead back to it. -/
theorem passThroughBlockIsIdentity : Obligations.PassThroughBlockIsIdentity := by
  intro a s hc hidx hp hbs hmode ha hm
  obtain ⟨n, hn⟩ : ∃ n, s.bs.toNat = n + 1 := ⟨s.bs.toNat - 1, by omega⟩
  have hrun : processSamples (n + 1) a a s = .next (s.setIdx 0#32) :=
    processSamples_passThrough hc hp hmode hm (by simp [hidx, hn]) a
  have hself : s.setIdx 0#32 = s := by
    rw [← hidx]
    rfl
  rw [hself, ← hn] at hrun
  simpa [processBlock, ha, hc, hidx] using hrun

end Sys2Proof.Machine
end

section
/-! The four commands of the control port (43_mode_control.md R116 to R126): what each answers in a block that is and in
one that is not constructed, what ApplyMode and INIT forget of the state before them, and all that one instruction can
do to the registers the commands control. -/

namespace Sys2Proof.Machine

/-! ## ApplyMode (R119 to R121, R125) -/

/-- R40, R125: nothing of what ApplyMode overwrites is left, SR and the registers it does not write being all it is
given. -/
theorem State.applyMode_congr (c : ModeCode) {s t : State} (hsr : s.sr = t.sr) (hbs : s.bs = t.bs)
    (hpmode : s.pmode = t.pmode) (hconstructed : s.constructed = t.constructed)
    (hpending : s.pendingValid = t.pendingValid) (hidx : s.idx = t.idx) (hrsp : s.rsp = t.rsp) (hrspd : s.rspd = t.rspd)
    (hctrl : s.ctrlIn = t.ctrlIn) (hdata : s.dataIn = t.dataIn) (hout : s.dataOut = t.dataOut)
    (hreset : s.resetIn = t.resetIn) (hfree : s.freeCount = t.freeCount) (hmem : s.hostMem = t.hostMem) :
    s.applyMode c = t.applyMode c := by
  simp only [State.applyMode, hsr, hbs, hpmode, hconstructed, hpending, hidx, hrsp, hrspd, hctrl, hdata, hout, hreset,
    hfree, hmem]

/-- R125: of two ApplyModes the second wins. -/
theorem State.applyMode_applyMode (a c : ModeCode) (s : State) : (s.applyMode a).applyMode c = s.applyMode c := rfl

/-- Settles O16: the second of two overwrites all that the first wrote, and reads no register but SR. -/
theorem applyModeForgetsWhatItWrites : Obligations.ApplyModeForgetsWhatItWrites :=
  ⟨State.applyMode_applyMode, fun c _ _ => State.applyMode_congr c⟩

/-! ## INIT (R117) -/

theorem notPositive_iff (n : BitVec 32) : notPositive n = true ↔ n.toInt ≤ 0 := decide_eq_true_iff

theorem exec_init_of_positive {rate size : BitVec 32} (hrate : 0 < rate.toInt) (hsize : 0 < size.toInt) (s : State) :
    exec (.init rate size) s = .next (initialise rate size s) := by
  have hpos : ¬(notPositive rate || notPositive size) = true := by
    simp only [Bool.or_eq_true, notPositive_iff]
    omega
  exact if_neg hpos

theorem exec_init_of_not_positive {rate size : BitVec 32} (h : rate.toInt ≤ 0 ∨ size.toInt ≤ 0) (s : State) :
    exec (.init rate size) s =
      .next (raiseConfig s (configErrorBits (notPositive rate) (notPositive size))) := by
  have hbad : (notPositive rate || notPositive size) = true := by
    simpa only [Bool.or_eq_true, notPositive_iff] using h
  exact if_pos hbad

theorem flagBit_toNat (b : Bool) : (flagBit b).toNat = if b then 1 else 0 := apply_ite BitVec.toNat _ _ _

/-- The payload of ERR_CONFIG as a number (R62, R140). -/
theorem configErrorBits_toNat (badRate badSize : Bool) :
    (configErrorBits badRate badSize).toNat = (if badRate then 1 else 0) + (if badSize then 2 else 0) := by
  rw [configErrorBits, toNat_append_eq, toNat_append_eq, flagBit_toNat, flagBit_toNat, BitVec.toNat_ofNat]
  split_ifs <;> rfl

/-- Settles O7: the two ends of INIT, the failed one with its payload read off the response word. -/
theorem initFollowsItsRule : Obligations.InitFollowsItsRule := by
  intro rate size s
  refine ⟨fun hrate hsize => exec_init_of_positive hrate hsize s, fun h => ?_⟩
  refine ⟨_, exec_init_of_not_positive h s, rfl, rfl, rfl, rfl, ?_, rfl, rfl, rfl, rfl, rfl⟩
  rw [raiseConfig_eq, State.setRsp_rsp, responseWord_toNat, configErrorBits_toNat]
  simp only [notPositive_iff, statusCode, BitVec.toNat_ofNat]
  omega

/-- The writes of a successful INIT in another order: those that ApplyMode does not overlap come first, so that what
ApplyMode forgets INIT forgets. -/
theorem initialise_eq_applyMode (rate size : BitVec 32) (s : State) :
    initialise rate size s = (((s.setRates rate size).setConstructed).setRsp 0#32).applyMode 0#4 := rfl

/-- R160: of the state before a successful INIT only RSPD and what is no register of the block are left. -/
theorem initialise_congr (rate size : BitVec 32) {s t : State} (hrspd : s.rspd = t.rspd) (hctrl : s.ctrlIn = t.ctrlIn)
    (hdata : s.dataIn = t.dataIn) (hout : s.dataOut = t.dataOut) (hreset : s.resetIn = t.resetIn)
    (hfree : s.freeCount = t.freeCount) (hmem : s.hostMem = t.hostMem) :
    initialise rate size s = initialise rate size t := by
  rw [initialise_eq_applyMode, initialise_eq_applyMode]
  exact State.applyMode_congr 0#4 rfl rfl rfl rfl rfl rfl rfl hrspd hctrl hdata hout hreset hfree hmem

/-- Settles O9: both states end where `initialise` takes them. -/
theorem initOverwritesEverything : Obligations.InitOverwritesEverything := by
  intro rate size s t hrate hsize hrspd hctrl hdata hout hreset hfree hmem
  rw [exec_init_of_positive hrate hsize, exec_init_of_positive hrate hsize,
    initialise_congr rate size hrspd hctrl hdata hout hreset hfree hmem]

/-! ## SETMODE (R118, R122) -/

theorem requestMode_boundary {s : State} (h : s.idx = 0#32) (m : ModeCode) :
    requestMode m s = (s.clearPending).applyMode m := if_pos h

theorem requestMode_inside {s : State} (h : s.idx ≠ 0#32) (m : ModeCode) : requestMode m s = s.latchMode m := if_neg h

theorem exec_setmode_not_constructed {s : State} (hc : s.constructed = false) (c : ModeCode) :
    exec (.setmode c) s = .next (s.setRsp 0x30000000#32) :=
  congrArg Host.Outcome.next (whenConstructed_of_not hc)

/-- Settles O10: the mode requested is applied at a boundary and latched inside a block. -/
theorem setmodeFollowsItsRule : Obligations.SetmodeFollowsItsRule := by
  intro c s m
  refine ⟨fun hc hidx => ?_, fun hc hidx => ?_, fun hc => exec_setmode_not_constructed hc c⟩
  · rw [exec_setmode_constructed hc, requestMode_boundary hidx]
    rfl
  · rw [exec_setmode_constructed hc, requestMode_inside hidx]
    rfl

/-- R122: of two requests the later wins, at a boundary and inside a block, whatever the first answered. -/
theorem requestMode_requestMode (a c : ModeCode) (v : BitVec 32) (s : State) :
    requestMode c ((requestMode a s).setRsp v) = (requestMode c s).setRsp v := by
  by_cases hidx : s.idx = 0#32
  · rw [requestMode_boundary hidx, requestMode_boundary hidx]
    exact requestMode_boundary (s := ((s.clearPending).applyMode a).setRsp v) hidx c
  · rw [requestMode_inside hidx, requestMode_inside hidx]
    exact requestMode_inside (s := (s.latchMode a).setRsp v) hidx c

/-- R125: a successful INIT leaves nothing of a request before it, applied or pending. -/
theorem initialise_requestMode (rate size : BitVec 32) (m : ModeCode) (v : BitVec 32) (s : State) :
    initialise rate size ((requestMode m s).setRsp v) = initialise rate size s := by
  by_cases hidx : s.idx = 0#32
  · rw [requestMode_boundary hidx]
    exact initialise_congr rate size rfl rfl rfl rfl rfl rfl rfl
  · rw [requestMode_inside hidx]
    exact initialise_congr rate size rfl rfl rfl rfl rfl rfl rfl

/-- Settles O11: SETMODE leaves the block constructed, and what comes after it overwrites the request. -/
theorem lastSetmodeWins : Obligations.LastSetmodeWins := by
  intro a c s t u hc ht hu
  rw [exec_setmode_constructed hc] at ht
  obtain rfl := Host.Outcome.next.inj ht
  have hc' : ((requestMode (canonMode a) s).setRsp (responseWord .ok 0#8)).constructed = true :=
    (Safety.requestMode_frame (canonMode a) s).1.trans hc
  rw [exec_setmode_constructed hc', requestMode_requestMode] at hu
  refine ⟨(exec_setmode_constructed hc c).trans hu, fun rate size hrate hsize => ?_⟩
  rw [exec_init_of_positive hrate hsize, exec_init_of_positive hrate hsize, initialise_requestMode]

/-! ## GETMODE (R123) -/

/-- GETMODE's answer is the mode code, zero-extended. -/
theorem responseWord_mode (m : ModeCode) : responseWord .ok (m.setWidth 8) = BitVec.ofNat 32 m.toNat := by
  rw [← responseWord_mode_toNat, BitVec.ofNat_toNat, BitVec.setWidth_eq]

/-- Settles O12: the mode most recently requested is the pending one, else the one in force. -/
theorem getmodeFollowsItsRule : Obligations.GetmodeFollowsItsRule := by
  refine fun s => ⟨fun hc => ?_, fun hc => congrArg Host.Outcome.next (whenConstructed_of_not hc)⟩
  rw [exec_getmode_constructed hc, responseWord_mode]
  rfl

/-! ## RDSTATE (R124) -/

theorem exec_rdstate_of_some {s : State} {r : BitVec 5} {v : BitVec 64} (h : readRegister s r.toNat = some v) :
    exec (.rdstate r) s = .next (whenConstructed s ((s.setRspd v).setRsp 0#32)) := by
  change execRdstate r s = _
  simp only [execRdstate, h]
  rfl

theorem readRegister_of_le {r : BitVec 5} (h : r.toNat ≤ 21) (s : State) :
    ∃ v, readRegister s r.toNat = some v :=
  Option.isSome_iff_exists.mp ((readRegister_isSome_iff s r.toNat).mpr h)

/-- STATUS as a number (R34). -/
theorem statusFlags_toNat (s : State) :
    (statusFlags s).toNat =
      (if s.constructed then 1 else 0) + (if s.pendingValid then 2 else 0) + (if s.prevValid then 4 else 0) := by
  rw [statusFlags, toNat_append_eq, toNat_append_eq, flagBit_toNat, flagBit_toNat, flagBit_toNat]
  split_ifs <;> rfl

/-- Settles O14: the register map is the one RDSTATE reads, and a legal index always finds a register. -/
theorem rdstateFollowsItsRule : Obligations.RdstateFollowsItsRule := by
  refine fun s => ⟨fun hc p hp => ?_, fun hc r hr => ?_⟩
  · have hread : readRegister s p.1.toNat = some p.2 := by
      simp only [← statusFlags_toNat, BitVec.ofNat_toNat] at hp
      revert p
      simp only [List.forall_mem_cons]
      exact ⟨rfl, rfl, rfl, rfl, rfl, rfl, rfl, rfl, rfl, rfl, rfl, rfl, rfl, rfl, rfl, rfl,
        rfl, rfl, rfl, rfl, rfl, rfl, List.forall_mem_nil _⟩
    rw [exec_rdstate_of_some hread, whenConstructed_of_constructed hc]
    rfl
  · obtain ⟨v, hv⟩ := readRegister_of_le hr s
    rw [exec_rdstate_of_some hv, whenConstructed_of_not hc]
    rfl

/-! ## The registers the commands control (R116, R126) -/

/-- The two states agree on the registers that hold the configuration of the block and its place in the block. -/
structure SameControl (s t : State) : Prop where
  sr : t.sr = s.sr
  bs : t.bs = s.bs
  mode : t.mode = s.mode
  pmode : t.pmode = s.pmode
  pendingValid : t.pendingValid = s.pendingValid
  idx : t.idx = s.idx

theorem SameControl.refl (s : State) : SameControl s s := ⟨rfl, rfl, rfl, rfl, rfl, rfl⟩

theorem SameControl.setRsp {s t : State} (h : SameControl s t) (v : BitVec 32) : SameControl s (t.setRsp v) :=
  { h with }

theorem SameControl.setRspd {s t : State} (h : SameControl s t) (v : BitVec 64) : SameControl s (t.setRspd v) :=
  { h with }

theorem SameControl.setLoop {s t : State} (h : SameControl s t) (f p : F64) : SameControl s (t.setLoop f p) :=
  { h with }

/-- No mode's own work on a beat, and not the beat it emits, touches these registers. -/
theorem BeatEffect.sameControl {mode : ModeCode} {b o : Beat} {s u : State} (h : BeatEffect b s mode o u) :
    SameControl s (u.emit o) := by
  cases h <;> exact ⟨rfl, rfl, rfl, rfl, rfl, rfl⟩

/-- The control port's four instructions are the ones encoded in words (R66, R73). -/
theorem command_of_encode {i : Instr} {words : List CmdWord} (h : encode i = .command words) :
    (∃ rate size, i = .init rate size) ∨ (∃ c, i = .setmode c) ∨ i = .getmode ∨ ∃ r, i = .rdstate r := by
  cases i with
  | init rate size => exact .inl ⟨rate, size, rfl⟩
  | setmode c => exact .inr (.inl ⟨c, rfl⟩)
  | getmode => exact .inr (.inr (.inl rfl))
  | rdstate r => exact .inr (.inr (.inr ⟨r, rfl⟩))
  | _ => cases h

/-- All that an instruction which answers can do to the control registers: INIT writes them, SETMODE requests a mode, a
sample step advances, and anything else leaves them alone. -/
inductive ControlEffect (s : State) : Instr → State → Prop where
  | init (rate size : BitVec 32) (t : State) : ControlEffect s (.init rate size) t
  | setmode (c : ModeCode) (hc : s.constructed = true) :
      ControlEffect s (.setmode c) ((requestMode (canonMode c) s).setRsp (responseWord .ok 0#8))
  | advance (i : Instr) (u : State) (hc : s.constructed = true) (hu : SameControl s u) : ControlEffect s i (advance u)
  | keep (i : Instr) (t : State) (h : SameControl s t) : ControlEffect s i t

/-- A command that needs a constructed block leaves the control registers alone where its body does. -/
theorem SameControl.whenConstructed {s body : State} (h : SameControl s body) :
    SameControl s (whenConstructed s body) := by
  cases hc : s.constructed with
  | false => rw [whenConstructed_of_not hc]; exact (SameControl.refl s).setRsp _
  | true => rw [whenConstructed_of_constructed hc]; exact h

theorem controlEffect_of_setmode {c : ModeCode} {s t : State} (h : exec (.setmode c) s = .next t) :
    ControlEffect s (.setmode c) t := by
  cases hc : s.constructed with
  | false =>
    rw [exec_setmode_not_constructed hc] at h
    obtain rfl := Host.Outcome.next.inj h
    exact .keep _ _ ((SameControl.refl s).setRsp _)
  | true =>
    rw [exec_setmode_constructed hc] at h
    obtain rfl := Host.Outcome.next.inj h
    exact .setmode c hc

theorem sameControl_of_rdstate {r : BitVec 5} {s t : State} (h : exec (.rdstate r) s = .next t) : SameControl s t := by
  by_cases hr : r.toNat ≤ 21
  · obtain ⟨v, hv⟩ := readRegister_of_le hr s
    rw [exec_rdstate_of_some hv] at h
    obtain rfl := Host.Outcome.next.inj h
    exact SameControl.whenConstructed (((SameControl.refl s).setRspd v).setRsp _)
  · rw [exec_rdstate_reserved (not_le.mp hr)] at h
    obtain rfl := Host.Outcome.next.inj h
    exact (SameControl.refl s).setRsp _

theorem controlEffect_of_beat {mode : ModeCode} {b : Beat} {s t : State}
    (h : exec (decodeBeat mode b) s = .next t) : ControlEffect s (decodeBeat mode b) t := by
  cases hc : s.constructed with
  | false =>
    rw [exec_decodeBeat, sampleStep_of_not_constructed hc] at h
    obtain rfl := Host.Outcome.next.inj h
    exact .keep _ _ (SameControl.refl s)
  | true =>
    obtain ⟨o, u, heff, rfl⟩ := effect_of_exec_beat hc h
    exact .advance _ _ hc heff.sameControl

theorem sameControl_of_micro {tv : Bool} {b : Beat} {s t : State} (h : exec (decodeMicro tv b) s = .next t) :
    SameControl s t := by
  have hi : decodeMicro tv b = .trackSam b ∨ decodeMicro tv b = .trackFm b := by cases tv <;> simp [decodeMicro]
  obtain ⟨d, hd⟩ := exec_track_eq_next hi h
  obtain ⟨p, -, rfl⟩ := loopUpdate_eq_some hd
  exact (SameControl.refl s).setLoop _ p

/-- Every instruction that answers does one of the things of `ControlEffect`, by the form of its encoding. -/
theorem controlEffect_of_exec {i : Instr} {s t : State} (h : exec i s = .next t) : ControlEffect s i t := by
  cases he : encode i with
  | command words =>
    obtain ⟨rate, size, rfl⟩ | ⟨c, rfl⟩ | rfl | ⟨r, rfl⟩ := command_of_encode he
    · exact .init rate size t
    · exact controlEffect_of_setmode h
    · obtain rfl := Host.Outcome.next.inj h
      exact .keep _ _ (SameControl.whenConstructed ((SameControl.refl s).setRsp _))
    · exact .keep _ _ (sameControl_of_rdstate h)
  | beat mode b =>
    obtain rfl := decodeBeat_of_encode he
    exact controlEffect_of_beat h
  | micro tv b =>
    obtain rfl := decodeMicro_of_encode he
    exact .keep _ _ (sameControl_of_micro h)

/-- Settles O17: neither a mode request nor the advance writes SR or BS. -/
theorem onlyInitChangesTheRates : Obligations.OnlyInitChangesTheRates := by
  intro i s t h
  cases controlEffect_of_exec h with
  | init rate size => exact .inr ⟨rate, size, rfl⟩
  | setmode c hc =>
    left
    by_cases hidx : s.idx = 0#32
    · rw [requestMode_boundary hidx]
      exact ⟨rfl, rfl⟩
    · rw [requestMode_inside hidx]
      exact ⟨rfl, rfl⟩
  | advance _ u hc hu =>
    obtain ⟨hsr, hbs, -⟩ := advance_frame u
    exact .inl ⟨hsr.trans hu.sr, hbs.trans hu.bs⟩
  | keep _ _ hsame => exact .inl ⟨hsame.sr, hsame.bs⟩

/-- Settles O18: a request is applied at once only at a boundary, and the advance applies a mode only at the end of a
block with one pending. -/
theorem onlyModeRequestsChangeTheMode : Obligations.OnlyModeRequestsChangeTheMode := by
  intro i s t h
  cases controlEffect_of_exec h with
  | init rate size => exact .inr (.inl ⟨rate, size, rfl⟩)
  | setmode c hc =>
    by_cases hidx : s.idx = 0#32
    · rw [requestMode_boundary hidx]
      exact .inr (.inr (.inl ⟨c, rfl, hc, hidx, rfl⟩))
    · rw [requestMode_inside hidx]
      exact .inl rfl
  | advance _ u hc hu =>
    obtain ⟨-, ha⟩ | ⟨-, -, ha⟩ | ⟨hend, hp, ha⟩ := advance_cases u <;> rw [ha]
    · exact .inl hu.mode
    · exact .inl hu.mode
    · rw [hu.idx, hu.bs] at hend
      exact .inr (.inr (.inr ⟨hc, hu.pendingValid.symm.trans hp, hend, hu.pmode, rfl, rfl⟩))
  | keep _ _ hsame => exact .inl hsame.mode

end Sys2Proof.Machine
end

section
/-! SAMPLE.AM (44_am.md R127): the step follows its rule, and a DC estimate that is not below zero stays so, infinities
included. The estimate may be `-0.0`, whose sign bit is set: the one value not below zero that is no `NonnegNumber`. -/

namespace Sys2Proof.Machine

/-! ## The step -/

/-- In a constructed block SAMPLE.AM completes on every beat. -/
theorem exec_sampleAm_constructed {s : State} (hc : s.constructed = true) (b : Beat) :
    exec (.sampleAm b) s = .next (advance
      ((s.setAm (amNextDc (unpackBeat b) s) (amNextSmooth (unpackBeat b) s)).emit
        (packBeat (mono (amOutput (unpackBeat b) s))))) := by
  change sampleStep demodAm b s = _
  simp [sampleStep, hc, demodAm]

/-- Settles O22: the rule's values are the ones `demodAm` writes and emits. -/
theorem amStepFollowsItsRule : Obligations.AmStepFollowsItsRule := fun b _ hc => exec_sampleAm_constructed hc b

/-! ## Values not below zero -/

/-- Not below zero: a clear sign bit, or `-0.0`. -/
theorem fle_posZero_iff {x : F64} : fle posZero x = true ↔ NonnegNumber x ∨ x = negZero := by
  constructor
  · intro h
    obtain ⟨hnum, horder⟩ := (Bool.and_eq_true _ _).mp h
    have hn : fisNaN x = false := by
      rw [Bool.and_eq_true, Bool.not_eq_true'] at hnum
      simpa using hnum.2
    cases hs : fsign x with
    | false => exact .inl ⟨hs, hn⟩
    | true =>
      have hzero : fmagBits x = 0 := by
        rw [forder_posZero] at horder
        simpa [forder, hs] using horder
      exact .inr (eq_of_sign_of_magnitude (hs.trans (by decide)) (hzero.trans (by decide)))
  · rintro (h | rfl)
    · exact h.fle
    · decide +kernel

/-- A finite factor that is not zero makes no invalid product. -/
theorem mulInvalid_of_finite {x : F64} (hfin : fisFinite x = true) (h0 : fisZero x = false) (y : F64) :
    mulInvalid x y = false := by
  unfold mulInvalid
  rw [(fisFinite_not hfin).2, h0, Bool.false_or, Bool.false_or, Bool.and_eq_false_iff]
  unfold fisInf fisZero infBits
  rw [decide_eq_false_iff_not, decide_eq_false_iff_not]
  omega

theorem NonnegNumber.fmul {x y : F64} (hx : NonnegNumber x) (hy : NonnegNumber y) (hvalid : mulInvalid x y = false) :
    NonnegNumber (fmul x y) := by
  obtain ⟨hsx, hnx⟩ := hx
  obtain ⟨hsy, hny⟩ := hy
  rw [fmul_of_numbers hnx hny, hvalid, hsx, hsy]
  exact nonnegNumber_fpack (mulMagnitude_le x y)

/-- A positive finite factor keeps a clear sign bit, on `+inf` too. -/
theorem NonnegNumber.fmul_positive {c x : F64} (hx : NonnegNumber x) (hs : fsign c = false)
    (hfin : fisFinite c = true) (h0 : fisZero c = false) : NonnegNumber (Machine.fmul c x) :=
  NonnegNumber.fmul ⟨hs, (fisFinite_not hfin).1⟩ hx (mulInvalid_of_finite hfin h0 x)

/-- A sum has a clear sign bit where one of its operands has and the other is `-0.0`: only two negative zeros make
`-0.0`. -/
theorem NonnegNumber.negZero_fadd {y : F64} (hy : NonnegNumber y) : NonnegNumber (Machine.fadd negZero y) := by
  obtain ⟨hs, hn⟩ := hy
  have hnan : fisNaN negZero = false := by decide +kernel
  have hinf : fisInf negZero = false := by decide +kernel
  have hunits : fsignedUnits negZero = 0 := by decide +kernel
  have hnonneg : decide (fsignedUnits y < 0) = false := by simp [fsignedUnits, hs]
  rw [fadd_of_numbers hnan hn]
  unfold faddNumbers
  rw [hinf, hunits, Int.zero_add, hs, hnonneg]
  simp only [Bool.and_false, Bool.false_eq_true, if_false]
  split_ifs
  · exact ⟨hs, hn⟩
  · exact nonnegNumber_fpack (Nat.zero_le infBits)
  · exact nonnegNumber_fpack (roundUnits_le _ _)

/-! ## The DC estimate -/

/-- R81: `current` is never negative. -/
theorem nonnegNumber_mag {x : ComplexSample} (hre : fisNaN x.re = false) (him : fisNaN x.im = false) :
    NonnegNumber (mag x) :=
  ((nonnegNumber_fmul_self hre).fadd (nonnegNumber_fmul_self him)).fsqrt

/-- R128: an estimate not below zero moves to one with a clear sign bit. -/
theorem NonnegNumber.dcEstimate {dc x : F64} (hx : NonnegNumber x) (hdc : Machine.fle posZero dc = true) :
    NonnegNumber (dcEstimate dc x) := by
  have hnew : NonnegNumber (Machine.fmul c0_0001 x) :=
    hx.fmul_positive (by decide) (by decide) (by decide)
  unfold Machine.dcEstimate
  obtain hold | rfl := fle_posZero_iff.mp hdc
  · exact (hold.fmul_positive (by decide) (by decide) (by decide)).fadd hnew
  · have hkeep : Machine.fmul c0_9999 negZero = negZero := by decide +kernel
    rw [hkeep]
    exact hnew.negZero_fadd

/-- The advance leaves the estimate alone, or applies the pending mode, which clears it. -/
theorem advance_amDc (s : State) : (advance s).amDc = s.amDc ∨ (advance s).amDc = posZero := by
  obtain ⟨-, h⟩ | ⟨-, -, h⟩ | ⟨-, -, h⟩ := advance_cases s <;> rw [h]
  · exact .inl rfl
  · exact .inl rfl
  · exact .inr rfl

theorem advance_amDc_not_negative {s : State} (h : fle posZero s.amDc = true) :
    fle posZero (advance s).amDc = true := by
  obtain hkept | hcleared := advance_amDc s
  · rwa [hkept]
  · rw [hcleared]
    decide +kernel

/-- Settles O31: the step waits, or writes an estimate with a clear sign bit, which the advance keeps or clears. -/
theorem amDcNeverNegative : Obligations.AmDcNeverNegative := by
  intro b s t hre him hdc h
  cases hc : s.constructed with
  | false =>
    obtain rfl : s = t := Host.Outcome.next.inj ((sampleStep_of_not_constructed hc demodAm b).symm.trans h)
    exact hdc
  | true =>
    obtain rfl := Host.Outcome.next.inj ((exec_sampleAm_constructed hc b).symm.trans h)
    exact advance_amDc_not_negative ((nonnegNumber_mag hre him).dcEstimate hdc).fle

end Sys2Proof.Machine
end

section
/-! SAMPLE.SAM (45_sam.md R130): whether the wrap of the new phase ends decides between the step of the rule and the hang.
Track runs first, but writes only the frequency and the phase: lock trackers, DC removal and output read the state before
it. -/

namespace Sys2Proof.Machine

/-! ## The sample step of a constructed block -/

theorem sampleStep_of_some {f : Beat → State → Option (Beat × State)} {b o : Beat} {s t : State}
    (hc : s.constructed = true) (hf : f b s = some (o, t)) : sampleStep f b s = .next (advance (t.emit o)) := by
  simp [sampleStep, hc, hf]

theorem sampleStep_of_none {f : Beat → State → Option (Beat × State)} {b : Beat} {s : State}
    (hc : s.constructed = true) (hf : f b s = none) : sampleStep f b s = .fault .wrapHang := by
  simp [sampleStep, hc, hf]

/-! ## The work of mode SAM -/

/-- R130: what follows Track in a SAM step neither reads nor undoes the loop registers Track has written. -/
theorem samFinish_setLoop (rotated : ComplexSample) (s : State) (f p : F64) :
    samFinish rotated (s.setLoop f p) =
      (packBeat (mono (samOutput rotated s)),
        ((s.setLoop f p).setLock (samLock rotated s)).setSamDc (samNextDc rotated s)) := rfl

/-- The work of mode SAM where the wrap ends; `demix` takes the phase as it stood before the step. -/
theorem demodSam_of_wrap_some {b : Beat} {s : State} {p : F64}
    (hp : wrap (nextPhaseRaw s (samDifference s (unpackBeat b))) = some p) :
    demodSam b s = some (packBeat (mono (samOutput (demix s (unpackBeat b)) s)),
      ((s.setLoop (nextFrequency s (samDifference s (unpackBeat b))) p).setLock
        (samLock (demix s (unpackBeat b)) s)).setSamDc (samNextDc (demix s (unpackBeat b)) s)) := by
  simp only [demodSam, trackSamOp, loopUpdate_some hp, samFinish_setLoop]

theorem demodSam_of_wrap_none {b : Beat} {s : State}
    (hp : wrap (nextPhaseRaw s (samDifference s (unpackBeat b))) = none) : demodSam b s = none := by
  rw [demodSam, trackSamOp, loopUpdate_none hp]

/-! ## The step -/

/-- Settles O23: the rule's values are the ones `demodSam` writes and emits, and its raw phase is the one Track wraps. -/
theorem samStepFollowsItsRule : Obligations.SamStepFollowsItsRule := by
  intro b s hc
  constructor
  · intro p hp
    exact sampleStep_of_some hc (demodSam_of_wrap_some hp)
  · intro hp
    exact sampleStep_of_none hc (demodSam_of_wrap_none hp)

end Sys2Proof.Machine
end

section
/-! SAMPLE.FMN and SAMPLE.FMW (46_fm.md R133 to R135, R138): the strap decides whether the loop runs, and whether the
wrap of the new phase ends then decides between the step of the rule and the hang. The loop feedback writes none of the
registers the output reads. -/

namespace Sys2Proof.Machine

/-! ## The loop feedback -/

/-- The registers the loop feedback of R135 writes, where the wrap ends on `p`. -/
def fmLooped (strap : Bool) (x : ComplexSample) (s : State) (p : F64) : State :=
  if strap then
    (s.setLoop (nextFrequency s (fmDifference s x)) p).setAfc
      (Config.afcUpdate s.afc (nextFrequency s (fmDifference s x)))
  else s

theorem fmLoopStep_of_wrap_some (strap : Bool) {x : ComplexSample} {s : State} {p : F64}
    (hp : wrap (nextPhaseRaw s (fmDifference s x)) = some p) :
    fmLoopStep strap x s = some (fmLooped strap x s p) := by
  cases strap with
  | false => rfl
  | true =>
    have htrack : trackFmOp x s = some (s.setLoop (nextFrequency s (fmDifference s x)) p) := loopUpdate_some hp
    simp [fmLoopStep, fmFeedback, fmLooped, htrack]

/-- With the loop, a wrap that does not end leaves the step without a result. -/
theorem fmLoopStep_of_wrap_none {x : ComplexSample} {s : State}
    (hp : wrap (nextPhaseRaw s (fmDifference s x)) = none) : fmLoopStep true x s = none := by
  have htrack : trackFmOp x s = none := loopUpdate_none hp
  simp [fmLoopStep, fmFeedback, htrack]

/-! ## The steps -/

/-- R134: the two instructions are one and the same sample step. -/
theorem exec_fm {i : Instr} {b : Beat} (hi : i ∈ [Instr.sampleFmn b, .sampleFmw b]) (s : State) :
    exec i s = sampleStep demodFm b s := by
  simp only [List.mem_cons, List.not_mem_nil, or_false] at hi
  rcases hi with rfl | rfl <;> rfl

/-- Settles O25: both instructions are the sample step of `demodFm`. -/
theorem fmwIsFmn : Obligations.FmwIsFmn := fun b s =>
  (exec_fm (b := b) (by simp) s).trans (exec_fm (by simp) s).symm

/-- The FM step after its loop feedback: the output value is that of the state before the step. -/
theorem sampleStep_demodFm_of_loop {b : Beat} {s t : State} (hc : s.constructed = true)
    (ht : fmLoopStep Config.fmLoop (unpackBeat b) s = some t) :
    sampleStep demodFm b s =
      .next (advance ((t.setPrev (unpackBeat b)).emit (packBeat (mono (fmOutput (unpackBeat b) s))))) := by
  obtain ⟨hprev, hvalid⟩ := fmLoopStep_keeps_previous ht
  refine sampleStep_of_some hc ?_
  rw [demodFm, demodFmWith, ht, ← fmOutput_congr _ hprev hvalid]
  rfl

theorem sampleStep_demodFm_of_hang {b : Beat} {s : State} (hc : s.constructed = true)
    (h : fmLoopStep Config.fmLoop (unpackBeat b) s = none) : sampleStep demodFm b s = .fault .wrapHang :=
  sampleStep_of_none hc (by rw [demodFm, demodFmWith, h])

/-- Settles O24: the rule's values are those of the loop feedback and of `fmOutput`, and its raw phase is the one Track
wraps. -/
theorem fmStepsFollowTheirRule : Obligations.FmStepsFollowTheirRule := by
  intro b s hc x rotated difference f1 f2 f3 p1 product y finish i hi
  rw [exec_fm hi]
  constructor
  · intro p hp
    rw [sampleStep_demodFm_of_loop hc (fmLoopStep_of_wrap_some Config.fmLoop hp), fmLooped]
    cases Config.fmLoop <;> rfl
  · intro hp
    cases hstrap : Config.fmLoop with
    | false => exact sampleStep_demodFm_of_loop hc (hstrap ▸ rfl)
    | true => exact sampleStep_demodFm_of_hang hc (hstrap ▸ fmLoopStep_of_wrap_none hp)

/-! ## The first output -/

/-- R138: a sample without a predecessor gives `+0.0`. -/
theorem fmOutput_of_no_predecessor {s : State} (h : s.prevValid = false) (x : ComplexSample) :
    fmOutput x s = posZero := by
  simp [fmOutput, h]

/-- Settles O27: the beat emitted is `fmOutput` of the state before the step, in both lanes. -/
theorem firstFmOutputIsSilence : Obligations.FirstFmOutputIsSilence := by
  refine ⟨fun b s t hc hprev i hi h => ?_, fun _ _ => rfl⟩
  rw [exec_fm hi] at h
  obtain ⟨hc', -⟩ | ⟨-, -, hs⟩ | ⟨-, o, u, hf, hs⟩ := sampleStep_cases demodFm b s
  · simp [hc] at hc'
  · rw [hs] at h
    cases h
  · obtain rfl := Host.Outcome.next.inj (hs.symm.trans h)
    obtain ⟨rfl, -, -⟩ := demodFmWith_output hf
    rw [advance_dataOut, State.emit_dataOut, (demodFm_effect (.inl rfl) hf).dataOut,
      fmOutput_of_no_predecessor hprev]
    rfl

end Sys2Proof.Machine
end

section
/-! The discriminator (46_fm.md R133, R137): rounding keeps the order of magnitudes, so the bound of A1 comes through
the division; and the product of a sample with its own conjugate lies on the axis where A2 fixes the arctangent. -/

namespace Sys2Proof.Machine

open Sys2Proof.Safety

/-! ## The bound -/

/-- Rounding is monotone: two magnitudes either have a pattern between them or lie between the same two neighbours. -/
theorem roundUnits_mono {num num' den : Nat} (hd : 0 < den) (h : num ≤ num') :
    roundUnits num den ≤ roundUnits num' den := by
  rcases lt_or_ge num' (magnitudeUnits infBits * den) with hfin | hinf
  · obtain ⟨m, hm, hlow', hhigh'⟩ := exists_neighbours hd hfin
    rcases lt_or_ge num (magnitudeUnits m * den) with hbelow | hlow
    · exact (roundUnits_le_of_le hd hm.le hbelow.le).trans (le_roundUnits_of_le hd hm.le hlow')
    · have hround := roundUnits_between hd hm hlow (h.trans_lt hhigh')
      have hround' := roundUnits_between hd hm hlow' hhigh'
      omega
  · exact (roundUnits_le num den).trans (le_roundUnits_of_le hd le_rfl hinf)

/-- The greater the dividend, the greater the quotient. -/
theorem fmagBits_fdiv_mono {x M y : F64} (hM : fisFinite M = true) (hy : fisFinite y = true) (h0 : fisZero y = false)
    (h : fmagBits x ≤ fmagBits M) : fmagBits (fdiv x y) ≤ fmagBits (fdiv M y) := by
  have hMfin : fmagBits M < infBits := of_decide_eq_true hM
  have hunits : funits x ≤ funits M := by
    rw [funits_eq_magnitudeUnits, funits_eq_magnitudeUnits M]
    exact magnitudeUnits_mono hMfin.le h
  rw [fdiv_of_finite (fisFinite_of_fmagBits_le hMfin h) hy h0, fdiv_of_finite hM hy h0,
    fmagBits_fpack (roundUnits_le _ _), fmagBits_fpack (roundUnits_le _ _)]
  exact roundUnits_mono (funits_pos h0) (Nat.mul_le_mul_right _ hunits)

/-- Settles O29: A1 bounds the phase of the product, and dividing by 100.0 keeps the order. -/
theorem fmOutputIsBounded : Obligations.FmOutputIsBounded := by
  intro x p hre him
  have hphase : fmagBits (cphase (cmul x (conj p))) ≤ fmagBits piConst := fmagBits_numAtan2_le him hre
  rw [fle_fabs_iff (by decide +kernel) (by decide +kernel)]
  exact fmagBits_fdiv_mono (by decide) (by decide) (by decide) hphase

/-! ## A sample and itself -/

/-- A value that is finite, added to its negative, gives `+0.0`. -/
theorem fadd_fneg_self {x : F64} (h : fisFinite x = true) : fadd (fneg x) x = posZero := by
  have hsum : fsignedUnits (fneg x) + fsignedUnits x = 0 := by
    rw [fsignedUnits, fsignedUnits, fsign_fneg, funits_fneg]
    cases fsign x <;> simp
  rw [fadd_of_finite_zero ((fisFinite_fneg x).trans h) h hsum, fsign_fneg, Bool.not_and_self]
  rfl

/-- The product of a sample with its own conjugate, the lanes and their product being finite: no negative real part, and
an imaginary part of `+0.0`. -/
theorem cmul_conj_self {x : ComplexSample} (hre : fisFinite x.re = true) (him : fisFinite x.im = true)
    (hprod : fisFinite (fmul x.re x.im) = true) :
    NonnegNumber (cmul x (conj x)).re ∧ (cmul x (conj x)).im = posZero := by
  obtain ⟨hren, -⟩ := fisFinite_not hre
  obtain ⟨himn, -⟩ := fisFinite_not him
  constructor
  · have hsum : (cmul x (conj x)).re = fadd (fmul x.re x.re) (fmul x.im x.im) :=
      (fsub_fadd_fmul_fneg (fordinary_fmul hren hren) himn himn).1
    rw [hsum]
    exact (nonnegNumber_fmul_self hren).fadd (nonnegNumber_fmul_self himn)
  · have hneg : fmul x.re (fneg x.im) = fneg (fmul x.re x.im) := by
      rcases fmul_fneg hren himn with ⟨hnan, -⟩ | ⟨-, hneg⟩
      · rw [hnan] at hprod
        exact absurd fisNaN_defaultNaN (by simp [(fisFinite_not hprod).1])
      · exact hneg
    change fadd (fmul x.re (fneg x.im)) (fmul x.im x.re) = posZero
    rw [hneg, fmul_comm himn hren, fadd_fneg_self hprod]

/-- Property A2 of R83: on the axis that is not negative the arctangent of `+0.0` is `+0.0`. -/
theorem numAtan2_posZero_of_nonneg {x : F64} (h : NonnegNumber x) : numAtan2 posZero x = posZero := by
  obtain ⟨hs, hn⟩ := h
  by_cases hzero : fmagBits x = 0
  · obtain rfl : x = posZero := eq_of_sign_of_magnitude hs hzero
    exact numAtan2_posZero_posZero
  · refine numAtan2_posZero_of_pos ?_
    have hz : fisNaN posZero = false := by decide +kernel
    rw [flt, forder_posZero]
    simp [hz, hn, forder, hs]
    omega

/-- Inside the default contract the product of two lanes is finite. -/
theorem fmul_finite_of_contract {x y : F64} (hx : laneInContract defaultInMax x = true)
    (hy : laneInContract defaultInMax y = true) : fisFinite (fmul x y) = true :=
  fisFinite_of_fmagBits_le (m := fmagBits c4) (by decide)
    (fmagBits_fmul_le (laneInContract_default_iff.mp hx) (laneInContract_default_iff.mp hy) (by decide) (by decide)
      (by decide) (by decide +kernel))

theorem fdiv_posZero_c100 : fdiv posZero c100 = posZero := by decide +kernel

/-- Settles O28: the product of the sample with its own conjugate lies on the axis where A2 fixes the phase. -/
theorem repeatedFmSampleIsSilence : Obligations.RepeatedFmSampleIsSilence := by
  intro x hre him
  obtain ⟨hrefin, -⟩ := (Bool.and_eq_true _ _).mp hre
  obtain ⟨himfin, -⟩ := (Bool.and_eq_true _ _).mp him
  obtain ⟨hnonneg, hzero⟩ := cmul_conj_self hrefin himfin (fmul_finite_of_contract hre him)
  rw [disc, cphase, hzero, numAtan2_posZero_of_nonneg hnonneg, fdiv_posZero_c100]

end Sys2Proof.Machine
end

section
/-! A block that is not constructed (60_exceptions.md R140, R141, R154): SETMODE, GETMODE and RDSTATE are turned away,
and no beat is a request, so that after a rejected INIT only another INIT does anything. -/

namespace Sys2Proof.Machine

/-- Settles O15, command by command. -/
theorem notConstructedAnswersAndChangesNothing : Obligations.NotConstructedAnswersAndChangesNothing := by
  rintro i s hc (⟨c, rfl⟩ | rfl | ⟨r, rfl, hwf⟩)
  · exact exec_setmode_not_constructed hc c
  · exact congrArg Host.Outcome.next (whenConstructed_of_not hc)
  · obtain ⟨v, hv⟩ := readRegister_of_le ((legalIndex_iff r).mp hwf) s
    rw [exec_rdstate_of_some hv, whenConstructed_of_not hc, raiseNotConstructed_eq]
    rfl

/-- Settles O48: with no request no agent is granted. -/
theorem noRequestNoChange : Obligations.NoRequestNoChange := fun _ => step_of_no_request

theorem beatReady_of_not_constructed {s : State} (hc : s.constructed = false) : beatReady s = false := by
  simp [beatReady, hc]

theorem commandReady_of_no_words {s : State} (h : s.ctrlIn = []) : commandReady s = false := by
  simp [commandReady, h, decodeCommand]

/-- With no beat for a request, a step is the command step, which waits where no command is whole. -/
theorem step_of_not_constructed {s : State} (hr : s.resetIn = false) (hc : s.constructed = false) :
    step s = commandStep s := by
  have hbeat := beatReady_of_not_constructed hc
  cases hcmd : commandReady s with
  | true =>
    have hg : grantedAgent s = some .control := by simp [grantedAgent, hcmd, hbeat]
    rw [step_released hr, hg, arbitrated_of_not_both (by simp [hbeat])]
    rfl
  | false =>
    have hwait : decodeCommand s.ctrlIn = .incomplete := by simpa [commandReady] using hcmd
    rw [step_of_no_request hr hcmd hbeat, commandStep, hwait]

/-- Settles O8: the rejected INIT leaves a block that is not constructed, which turns the commands away and has no beat
for a request. -/
theorem rejectedInitClosesTheBlock : Obligations.RejectedInitClosesTheBlock := by
  intro rate size s t h ht
  obtain ⟨u, hu, hc, hpend, hprev, hidx, hrsp, -⟩ := (initFollowsItsRule rate size s).2 h
  obtain rfl := Host.Outcome.next.inj (hu.symm.trans ht)
  have hrspd : u.rspd = s.rspd := by
    rw [Host.Outcome.next.inj (hu.symm.trans (exec_init_of_not_positive h s))]
    rfl
  have turnedAway := fun i => notConstructedAnswersAndChangesNothing i u hc
  refine ⟨hrsp, hc, hpend, hprev, hidx, hrspd, fun c => turnedAway _ (.inl ⟨c, rfl⟩), turnedAway _ (.inr (.inl rfl)),
    fun r hr => turnedAway _ (.inr (.inr ⟨r, rfl, (legalIndex_iff r).mpr hr⟩)), fun beats => ?_⟩
  exact step_of_no_request rfl (commandReady_of_no_words rfl) (beatReady_of_not_constructed hc)

end Sys2Proof.Machine
end

section
/-! The unspecified registers (70_reset_and_hazards.md R158; 60_exceptions.md R140; 93_implementation_defined.md U3).
They show only through a sample step or a command that needs a constructed block. What a block that is not constructed can do
either answers without reading them or writes every one of them: a successful INIT the values of R117, a rejected INIT
and the reset input new free values. -/

namespace Sys2Proof.Safety

open Sys2Proof.Machine

/-! ## The relation under the updates a step makes -/

namespace AgreeButUnspecified

variable {s t : State}

theorem setRsp (h : AgreeButUnspecified s t) (v : BitVec 32) : AgreeButUnspecified (s.setRsp v) (t.setRsp v) :=
  { h with rsp := rfl }

theorem withCtrlIn (h : AgreeButUnspecified s t) (words : List CmdWord) :
    AgreeButUnspecified (s.withCtrlIn words) (t.withCtrlIn words) :=
  { h with ctrlIn := rfl }

theorem withDataIn (h : AgreeButUnspecified s t) (beats : List Beat) :
    AgreeButUnspecified (s.withDataIn beats) (t.withDataIn beats) :=
  { h with dataIn := rfl }

/-- What the reset input leaves unspecified and what the relation leaves open are the same registers. -/
theorem unspecify_eq (h : AgreeButUnspecified s t) : s.unspecify = t.unspecify := by
  simp only [State.unspecify, h.constructed, h.pendingValid, h.prevValid, h.idx, h.rsp, h.rspd, h.ctrlIn, h.dataIn,
    h.dataOut, h.resetIn, h.freeCount, h.hostMem]

theorem powerOn_eq (h : AgreeButUnspecified s t) : powerOn s = powerOn t := by
  rw [Machine.powerOn_eq, Machine.powerOn_eq, h.unspecify_eq]

theorem raiseConfig_eq (h : AgreeButUnspecified s t) (e : BitVec 8) : raiseConfig s e = raiseConfig t e := by
  rw [Machine.raiseConfig_eq, Machine.raiseConfig_eq, h.unspecify_eq]

/-- R160: a successful INIT reads none of the unspecified registers and writes them all. -/
theorem initialise_eq (h : AgreeButUnspecified s t) (rate size : BitVec 32) :
    initialise rate size s = initialise rate size t :=
  initialise_congr rate size h.rspd h.ctrlIn h.dataIn h.dataOut h.resetIn h.freeCount h.hostMem

/-! ## The requests at the ports -/

theorem commandReady_eq (h : AgreeButUnspecified s t) : commandReady s = commandReady t := by
  rw [commandReady, commandReady, h.ctrlIn]

theorem beatReady_eq (h : AgreeButUnspecified s t) : beatReady s = beatReady t := by
  rw [beatReady, beatReady, h.constructed, h.dataIn]

theorem grantedAgent_eq (h : AgreeButUnspecified s t) : grantedAgent s = grantedAgent t := by
  rw [grantedAgent, grantedAgent, h.commandReady_eq, h.beatReady_eq, h.freeCount]

theorem abandonRequest (h : AgreeButUnspecified s t) :
    AgreeButUnspecified (abandonRequest s) (abandonRequest t) := by
  rw [Machine.abandonRequest, Machine.abandonRequest, h.grantedAgent_eq, h.commandReady_eq, h.ctrlIn, h.dataIn]
  exact (h.withCtrlIn _).withDataIn _

end AgreeButUnspecified

/-! ## The step of a block that is not constructed -/

/-- Two outcomes between which nothing shows the unspecified registers: next states that are equal, or that differ in
those registers alone while neither block is constructed. -/
def StepAlike (o p : Host.Outcome State Fault Refusal) : Prop :=
  ∃ s t, o = .next s ∧ p = .next t ∧ (s = t ∨ (s.constructed = false ∧ AgreeButUnspecified s t))

theorem stepAlike_of_eq {s t : State} (h : s = t) : StepAlike (.next s) (.next t) := ⟨s, t, rfl, rfl, .inl h⟩

theorem AgreeButUnspecified.stepAlike {s t : State} (h : AgreeButUnspecified s t) (hc : s.constructed = false) :
    StepAlike (.next s) (.next t) := ⟨s, t, rfl, rfl, .inr ⟨hc, h⟩⟩

/-- R117, R140: either end of INIT makes the two states equal. -/
theorem AgreeButUnspecified.exec_init {s t : State} (h : AgreeButUnspecified s t) (rate size : BitVec 32) :
    StepAlike (exec (.init rate size) s) (exec (.init rate size) t) := by
  by_cases hpos : 0 < rate.toInt ∧ 0 < size.toInt
  · rw [exec_init_of_positive hpos.1 hpos.2, exec_init_of_positive hpos.1 hpos.2]
    exact stepAlike_of_eq (h.initialise_eq rate size)
  · have hbad : rate.toInt ≤ 0 ∨ size.toInt ≤ 0 := by omega
    rw [exec_init_of_not_positive hbad, exec_init_of_not_positive hbad]
    exact stepAlike_of_eq (h.raiseConfig_eq _)

/-- R141: INIT, or a command that is turned away with the same answer in both states. -/
theorem AgreeButUnspecified.exec_command {s t : State} {words rest : List CmdWord} {i : Instr}
    (h : AgreeButUnspecified s t) (hc : s.constructed = false) (hi : decodeCommand words = .command i rest) :
    StepAlike (exec i s) (exec i t) := by
  obtain ⟨hwf, -⟩ := encode_of_decodeCommand hi
  obtain ⟨rate, size, rfl⟩ | hother := decodeCommand_eq_command hi
  · exact h.exec_init rate size
  · have hturned : (∃ c, i = .setmode c) ∨ i = .getmode ∨ ∃ r, i = .rdstate r ∧ i.wellFormed = true :=
      hother.imp_right fun hlater => hlater.imp_right fun ⟨r, hr⟩ => ⟨r, hr, hwf⟩
    rw [notConstructedAnswersAndChangesNothing i s hc hturned,
      notConstructedAnswersAndChangesNothing i t (h.constructed.symm.trans hc) hturned]
    exact (h.setRsp 0x30000000#32).stepAlike hc

theorem AgreeButUnspecified.commandStep {s t : State} (h : AgreeButUnspecified s t) (hc : s.constructed = false) :
    StepAlike (commandStep s) (commandStep t) := by
  unfold Machine.commandStep
  rw [← h.ctrlIn]
  cases hi : decodeCommand s.ctrlIn with
  | command i rest => exact (h.withCtrlIn rest).exec_command hc hi
  | illegal e rest => exact ((h.withCtrlIn rest).setRsp 0x20000000#32).stepAlike hc
  | incomplete => exact h.stepAlike hc

theorem AgreeButUnspecified.step {s t : State} (h : AgreeButUnspecified s t) (hc : s.constructed = false) :
    StepAlike (step s) (step t) := by
  cases hr : s.resetIn with
  | true =>
    rw [step_reset hr, step_reset (h.resetIn.symm.trans hr)]
    exact stepAlike_of_eq h.abandonRequest.powerOn_eq
  | false =>
    rw [step_of_not_constructed hr hc,
      step_of_not_constructed (h.resetIn.symm.trans hr) (h.constructed.symm.trans hc)]
    exact h.commandStep hc

/-- Settles O53: the reset input and the command step, the only two things a step can be here, act alike on both
states. -/
theorem unspecifiedRegistersAreUnobservable : Obligations.UnspecifiedRegistersAreUnobservable := by
  intro s t s' hc h hs
  obtain ⟨u, t', hu, ht, halike⟩ := h.step hc
  obtain rfl := Host.Outcome.next.inj (hu.symm.trans hs)
  exact ⟨t', ht, halike⟩

end Sys2Proof.Safety
end

section
/-! The reset input and power-on reset (70_reset_and_hazards.md R158, R159): what is left at the ports when the reset
cuts a step, and the state a block starts from. -/

namespace Sys2Proof.Machine

open Sys2Proof.Safety

/-! ## The ports after a step that was cut -/

@[simp] theorem abandonRequest_ctrlIn (s : State) : (abandonRequest s).ctrlIn =
    if grantedAgent s = some .data && commandReady s then s.ctrlIn else commandRest s.ctrlIn := rfl

@[simp] theorem abandonRequest_dataIn (s : State) :
    (abandonRequest s).dataIn = if grantedAgent s = some .data then s.dataIn.tail else s.dataIn := rfl

@[simp] theorem powerOn_ctrlIn (s : State) : (powerOn s).ctrlIn = s.ctrlIn := rfl

@[simp] theorem powerOn_dataIn (s : State) : (powerOn s).dataIn = s.dataIn := rfl

theorem commandRest_of_command {words rest : List CmdWord} {i : Instr} (h : decodeCommand words = .command i rest) :
    commandRest words = rest := by
  simp [commandRest, h]

theorem commandRest_of_illegal {words rest : List CmdWord} {e : DecodeError}
    (h : decodeCommand words = .illegal e rest) : commandRest words = rest := by
  simp [commandRest, h]

/-- Settles O49: the reset clears the flags whatever stands at the ports; what is left there goes by the agent whose
step it cuts. -/
theorem resetInputClearsTheFlags : Obligations.ResetInputClearsTheFlags := by
  intro s hr
  refine ⟨_, step_reset hr, rfl, rfl, rfl, rfl, rfl, rfl, rfl, rfl, fun hg => ?control, fun hg => ?data,
    fun hg => ?none, fun hcmd => ?partialCommand⟩
  case control =>
    exact ⟨by simp [hg], fun i rest hi => by simp [hg, commandRest_of_command hi],
      fun e rest he => by simp [hg, commandRest_of_illegal he]⟩
  case data => exact ⟨by simp [hg], fun hcmd => by simp [hg, hcmd]⟩
  case none => simp [hg]
  case partialCommand => simp [hcmd, commandRest_of_not_ready hcmd]

/-! ## The state after power-on -/

/-- Settles O50: the flags and `IDX` are clear, RSP is the response of a success, and the memory is empty. -/
theorem resetStateIsLegal : Obligations.ResetStateIsLegal :=
  ⟨rfl, rfl, rfl, rfl, rfl, rfl,
    .of_unconstructed rfl ⟨rfl, rfl, rfl⟩ (responseLegal_setRsp State.reset .ok 0#8) reset_memory_wf⟩

end Sys2Proof.Machine
end

section
/-! SAMPLE.AM inside the default input contract (44_am.md R127, R128; 70_reset_and_hazards.md R165). The two weights of
the DC estimate add up to 1.0 but for rounding, and those of the envelope exactly, so neither leaves the bound 4.0. That
the magnitude and the estimate are both not below zero keeps their difference from adding up. -/

namespace Sys2Proof.Machine

open Sys2Proof.Safety

/-! ## Sums -/

/-- A sum is not above the rounding of what bounds its exact value. -/
theorem fmagBits_fadd_le_roundUnits {x y : F64} {u : Nat} (hx : fisFinite x = true) (hy : fisFinite y = true)
    (h : (fsignedUnits x + fsignedUnits y).natAbs ≤ u) : fmagBits (fadd x y) ≤ roundUnits u 1 := by
  by_cases hsum : fsignedUnits x + fsignedUnits y = 0
  · rw [fadd_of_finite_zero hx hy hsum]
    split <;> exact Nat.zero_le _
  · rw [fadd_of_finite hx hy hsum, fmagBits_fpack (roundUnits_le _ _)]
    exact roundUnits_mono Nat.one_pos h

theorem funits_le_of_fmagBits_le {x : F64} {m : Nat} (hm : m ≤ infBits) (h : fmagBits x ≤ m) :
    funits x ≤ magnitudeUnits m := by
  rw [funits_eq_magnitudeUnits]
  exact magnitudeUnits_mono hm h

/-- The difference of two values with a clear sign bit is not above what bounds both. -/
theorem fmagBits_fsub_le_of_nonneg {x y : F64} {m : Nat} (hx : NonnegNumber x) (hy : NonnegNumber y)
    (hxm : fmagBits x ≤ m) (hym : fmagBits y ≤ m) (hm : m < infBits) : fmagBits (fsub x y) ≤ m := by
  obtain ⟨hsx, hnx⟩ := hx
  obtain ⟨hsy, hny⟩ := hy
  have hux := funits_le_of_fmagBits_le hm.le hxm
  have huy := funits_le_of_fmagBits_le hm.le hym
  have hdiff : (fsignedUnits x + fsignedUnits (fneg y)).natAbs ≤ magnitudeUnits m * 1 := by
    simp only [fsignedUnits, fsign_fneg, funits_fneg, hsx, hsy, Bool.not_false, if_true, Bool.false_eq_true, if_false]
    omega
  rw [fsub_of_numbers hnx hny, ← roundUnits_magnitudeUnits Nat.one_pos hm.le]
  exact fmagBits_fadd_le_roundUnits (fisFinite_of_fmagBits_le hm hxm)
    ((fisFinite_fneg y).trans (fisFinite_of_fmagBits_le hm hym)) hdiff

/-! ## The estimate and the envelope -/

/-- Half of a value of at most 4.0. -/
theorem fmagBits_half_le {x : F64} (h : fmagBits x ≤ fmagBits c4) : fmagBits (fmul c0_5 x) ≤ fmagBits c2 :=
  fmagBits_fmul_le le_rfl h (by decide) (by decide) (by decide) (by decide +kernel)

/-- R128: an estimate of at most 4.0 stays so. The weights add up to a little more than 1.0, which rounding takes
away. -/
theorem fmagBits_dcEstimate_le {dc x : F64} (hdc : fmagBits dc ≤ fmagBits c4) (hx : fmagBits x ≤ fmagBits c4) :
    fmagBits (dcEstimate dc x) ≤ fmagBits c4 := by
  have hold : fmagBits (fmul c0_9999 dc) ≤ fmagBits (fmul c0_9999 c4) :=
    fmagBits_fmul_le le_rfl hdc (by decide) (by decide) (by decide +kernel) (by decide +kernel)
  have hnew : fmagBits (fmul c0_0001 x) ≤ fmagBits (fmul c0_0001 c4) :=
    fmagBits_fmul_le le_rfl hx (by decide) (by decide) (by decide +kernel) (by decide +kernel)
  have huold := funits_le_of_fmagBits_le (by decide +kernel) hold
  have hunew := funits_le_of_fmagBits_le (by decide +kernel) hnew
  have hround : roundUnits (magnitudeUnits (fmagBits (fmul c0_9999 c4)) + magnitudeUnits (fmagBits (fmul c0_0001 c4))) 1
      = fmagBits c4 := by decide +kernel
  rw [← hround]
  refine fmagBits_fadd_le_roundUnits (fisFinite_of_fmagBits_le (by decide +kernel) hold)
    (fisFinite_of_fmagBits_le (by decide +kernel) hnew) ?_
  unfold fsignedUnits
  split <;> split <;> omega

/-- R127: an envelope of at most 4.0 stays so. -/
theorem fmagBits_smoothEnvelope_le {smooth current dc : F64} (hsmooth : fmagBits smooth ≤ fmagBits c4)
    (hcurrent : NonnegNumber current) (hdc : NonnegNumber dc) (hcurrentMag : fmagBits current ≤ fmagBits c4)
    (hdcMag : fmagBits dc ≤ fmagBits c4) : fmagBits (smoothEnvelope smooth current dc) ≤ fmagBits c4 := by
  have hdiff := fmagBits_fsub_le_of_nonneg hcurrent hdc hcurrentMag hdcMag (by decide)
  exact fmagBits_fadd_le (fmagBits_half_le hsmooth) (fmagBits_half_le hdiff) (by decide) (by decide) (by decide)
    (by decide +kernel)

/-! ## The bounded state -/

/-- What the statement asks of the AM registers before and after the step. -/
structure AmBounded (s : State) : Prop where
  dc_nonneg : fle posZero s.amDc = true
  dc_bound : fle s.amDc c4 = true
  smooth_bound : fle (fabs s.amSmooth) c4 = true

theorem SampleBounded.numbers {x : ComplexSample} (h : SampleBounded x) :
    fisNaN x.re = false ∧ fisNaN x.im = false := by
  obtain ⟨hre, him⟩ := h
  exact ⟨(fisFinite_not (fisFinite_of_fmagBits_le (by decide) hre)).1,
    (fisFinite_not (fisFinite_of_fmagBits_le (by decide) him)).1⟩

theorem AmBounded.nextDc {s : State} {x : ComplexSample} (hs : AmBounded s) (hx : SampleBounded x) :
    NonnegNumber (amNextDc x s) ∧ fmagBits (amNextDc x s) ≤ fmagBits c4 := by
  obtain ⟨hre, him⟩ := hx.numbers
  have hdc := fmagBits_le_of_fle_nonneg (by decide) (by decide) hs.dc_nonneg hs.dc_bound
  exact ⟨(nonnegNumber_mag hre him).dcEstimate hs.dc_nonneg, fmagBits_dcEstimate_le hdc (fmagBits_mag_le hx)⟩

theorem AmBounded.nextSmooth {s : State} {x : ComplexSample} (hs : AmBounded s) (hx : SampleBounded x) :
    fmagBits (amNextSmooth x s) ≤ fmagBits c4 := by
  obtain ⟨hre, him⟩ := hx.numbers
  obtain ⟨hdc, hdcMag⟩ := hs.nextDc hx
  exact fmagBits_smoothEnvelope_le ((fle_fabs_iff (by decide) (by decide)).mp hs.smooth_bound)
    (nonnegNumber_mag hre him) hdc (fmagBits_mag_le hx) hdcMag

theorem AmBounded.setAm {s : State} {x : ComplexSample} (hs : AmBounded s) (hx : SampleBounded x) :
    AmBounded (s.setAm (amNextDc x s) (amNextSmooth x s)) where
  dc_nonneg := (hs.nextDc hx).1.fle
  dc_bound := (fle_of_fmagBits_le (by decide) (by decide) (hs.nextDc hx).2).2
  smooth_bound := (fle_fabs_iff (by decide) (by decide)).mpr (hs.nextSmooth hx)

theorem amBounded_applyMode (s : State) (m : ModeCode) : AmBounded (s.applyMode m) where
  dc_nonneg := show fle posZero posZero = true by decide +kernel
  dc_bound := show fle posZero c4 = true by decide +kernel
  smooth_bound := show fle (fabs posZero) c4 = true by decide +kernel

/-- The end of a sample step leaves the AM registers alone, or clears them. -/
theorem AmBounded.advance {s : State} (hs : AmBounded s) : AmBounded (advance s) := by
  obtain ⟨-, h⟩ | ⟨-, -, h⟩ | ⟨-, -, h⟩ := advance_cases s <;> rw [h]
  · exact { hs with }
  · exact { hs with }
  · exact amBounded_applyMode _ s.pmode

/-- The output is half the envelope. -/
theorem AmBounded.output {s : State} {x : ComplexSample} (hs : AmBounded s) (hx : SampleBounded x) :
    laneInContract defaultInMax (amOutput x s) = true :=
  laneInContract_default_iff.mpr
    (fmagBits_fmul_le (hs.nextSmooth hx) le_rfl (by decide) (by decide) (by decide) (by decide +kernel))

theorem unpackBeat_packBeat (x : ComplexSample) : unpackBeat (packBeat x) = x := by
  unfold unpackBeat packBeat
  rw [BitVec.extractLsb'_append_eq_right, BitVec.extractLsb'_append_eq_left]

/-- Settles O30: the values the step writes and emits are bounded, and the advance keeps or clears them. -/
theorem amStaysBounded : Obligations.AmStaysBounded := by
  intro b s hc hb hnonneg hdc hsmooth
  have hs : AmBounded s := ⟨hnonneg, hdc, hsmooth⟩
  have hx := sampleBounded_of_inContract hb
  have hnext : AmBounded (advance ((s.setAm (amNextDc (unpackBeat b) s) (amNextSmooth (unpackBeat b) s)).emit
      (packBeat (mono (amOutput (unpackBeat b) s))))) := AmBounded.advance { hs.setAm hx with }
  refine ⟨_, packBeat (mono (amOutput (unpackBeat b) s)), exec_sampleAm_constructed hc b, by simp, hnext.dc_nonneg,
    hnext.dc_bound, hnext.smooth_bound, ?_⟩
  rw [unpackBeat_packBeat]
  exact ⟨hs.output hx, hs.output hx⟩

end Sys2Proof.Machine
end
